-- ==== Sys2Proof/Word.lean ====
section
/-! DEFINITION. The widths the spec uses (00_scope R8, R13, 30_encoding R65, R79). -/

namespace Sys2Proof

/-- A column value, a register value or a register address: 8 bits (00_scope R8, 20_memory R47). -/
abbrev Byte := BitVec 8

/-- A command word on port `cmd` (30_encoding R65). -/
abbrev Word := BitVec 32

/-- The data block on port `cmd_data`, read only by STBLK (30_encoding R65). -/
abbrev Block := BitVec 64

/-- A bus frame, register address in bits 15:8 and value in bits 7:0 (30_encoding R79). -/
abbrev Frame := BitVec 16

/-- `PANEL_W`, the columns of one device (00_scope R8). -/
abbrev panelW : Nat := 8

/-- `PANEL_H`, the rows of one column (00_scope R8). -/
abbrev panelH : Nat := 8

end Sys2Proof
end

