-- ==== Sys2Proof/Machine/Memory.lean ====
section
/-! DEFINITION. Byte arrays as lists of (address, byte) pairs in one canonical form: addresses strictly rising.
The framebuffer (10_state R23) and a device's registers (R34) are held so. Every address the array has is listed:
the spec gives each cell a value of its own from reset on (its draw, R25), and the draw is a free value, so "what an
unlisted address reads as" is no value at all: the address does not exist in the array (20_memory R46; log entry 5). -/

namespace Sys2Proof.Machine

/-- A byte array: the cells that exist, by rising address. -/
abbrev Memory := List Host.Cell

/-- What an unlisted address reads as: no value, it does not exist (20_memory R46). -/
def Memory.unlisted : Option Byte := none

/-- The byte at an address, if the address is listed. -/
def Memory.read : Memory → Nat → Option Byte
  | [], _ => Memory.unlisted
  | (b, w) :: m, a => if a = b then some w else Memory.read m a

/-- The array with one byte written. A write keeps the canonical form. -/
def Memory.write : Memory → Nat → Byte → Memory
  | [], a, v => [(a, v)]
  | (b, w) :: m, a, v =>
    if a < b then (a, v) :: (b, w) :: m
    else if a = b then (a, v) :: m
    else (b, w) :: Memory.write m a v

/-- The listed addresses, in order. -/
def Memory.addresses (m : Memory) : List Nat := m.map Prod.fst

/-- The canonical form: addresses strictly rising. No entry equals what an unlisted address reads as, since that is
no value. -/
def Memory.wf (m : Memory) : Bool := decide (m.addresses.Pairwise (· < ·))

/-- The array of addresses 0..n-1 with the given contents. -/
def Memory.ofFn (n : Nat) (f : Nat → Byte) : Memory := (List.range n).map fun a => (a, f a)

end Sys2Proof.Machine
end

