-- ==== Sys2Proof/Config.lean ====
section
/-! DEFINITION. What an implementation fixes (00_scope R6 to R12, 10_state R36) and the free values of the spec
(93_implementation_defined). A free value is an opaque constant: nothing can evaluate it. -/

namespace Sys2Proof

/-- REGMAP, the device register address map, with its two data values (00_scope R10). -/
structure Regmap where
  /-- NOOP, the no-op register address. -/
  noop : Byte
  /-- COL(0), …, COL(7), the column register addresses. -/
  cols : Vector Byte 8
  /-- DECODE. -/
  decodeMode : Byte
  /-- INTENSITY. -/
  intensity : Byte
  /-- SCANLIMIT. -/
  scanLimit : Byte
  /-- SHUTDOWN. -/
  shutdown : Byte
  /-- TEST. -/
  test : Byte
  /-- SHUTDOWN_NORMAL (data). -/
  shutdownNormal : Byte
  /-- TEST_OFF (data). -/
  testOff : Byte
  deriving DecidableEq, Repr

/-- The addresses of REGMAP with NOOP first. -/
def Regmap.addresses (m : Regmap) : List Byte :=
  [m.noop, m.decodeMode, m.intensity, m.scanLimit, m.shutdown, m.test] ++ m.cols.toList

/-- "the REGMAP addresses are pairwise distinct and none equals NOOP" (40_bus_transport R99, 70_reset_and_hazards R184). -/
abbrev Regmap.Distinct (m : Regmap) : Prop := m.addresses.Nodup

/-- The column register addresses are pairwise distinct and none equals NOOP: the part of `Distinct` that the column
commands need. -/
abbrev Regmap.ColumnsDistinct (m : Regmap) : Prop := (m.noop :: m.cols.toList).Nodup

/-- The implementation parameters, fixed for the machine's lifetime (10_state R36). PANEL_W, PANEL_H and FRAME_ORDER
are fixed by the spec itself and are no parameters. -/
structure Params where
  /-- MAX_DEVICES (00_scope R6). -/
  maxDevices : Nat
  /-- REGMAP (00_scope R10). -/
  regmap : Regmap
  /-- INIT_INTENSITY (00_scope R11). -/
  initIntensity : Byte
  deriving DecidableEq, Repr

/-- `1 <= MAX_DEVICES <= 512` (00_scope R6). -/
abbrev Params.Wf (p : Params) : Prop := 1 ≤ p.maxDevices ∧ p.maxDevices ≤ 512

/-- The OPEN parameter MAX_DEVICES less one: any of 0..511 (00_scope R6; log entry 2). -/
opaque Config.maxDevicesLessOne : Fin 512

/-- The OPEN parameter INIT_INTENSITY (00_scope R11; log entry 2). -/
opaque Config.initIntensity : Byte

/-- The value the host holds on port `cfg_ndev` at the machine's first reset: any (00_scope R7; log entry 4). -/
opaque Config.cfgNdev : BitVec 16

/-- The reset draw of an FB cell: draw number, then cell (10_state R25; log entry 5). -/
opaque Config.fbDraw : Nat → Nat → Byte

/-- The unspecified contents of a device register: draw number, device, address (10_state R34; log entry 6). -/
opaque Config.regDraw : Nat → Nat → Nat → Byte

/-- The unspecified contents of a device's shift register: draw number, device (10_state R34; log entry 6). -/
opaque Config.srDraw : Nat → Nat → BitVec 16

/-- The unspecified contents of SO at reset: draw number, bit (10_state R32; log entry 12). -/
opaque Config.soDraw : Nat → Nat → Bool

end Sys2Proof
end

