-- ==== Sys2Proof/Machine/Parameters.lean ====
section
/-! DEFINITION. The values of the implementation parameters: the column register of a REGMAP, the spec's default REGMAP
(00_scope R10), and the parameters of the machine at hand. -/

namespace Sys2Proof

/-- COL(lc) for a local column lc in 0..7 (00_scope R10). A local column is a remainder by PANEL_W. -/
def Regmap.col (m : Regmap) (lc : Nat) : Byte := m.cols.get (Fin.ofNat 8 lc)

/-- The spec's default REGMAP (00_scope R10). PRESUMED: the spec marks it as general knowledge, the MAX7219/MAX7221
map (log entry 3). Unsafe for a device with another map; every statement is over any map. -/
def Regmap.standard : Regmap where
  noop := 0x00
  cols := #v[0x01, 0x02, 0x03, 0x04, 0x05, 0x06, 0x07, 0x08]
  decodeMode := 0x09
  intensity := 0x0A
  scanLimit := 0x0B
  shutdown := 0x0C
  test := 0x0F
  shutdownNormal := 0x01
  testOff := 0x00

/-- The machine's parameters: the OPEN ones free, REGMAP the spec's default. -/
def Config.params : Params where
  maxDevices := Config.maxDevicesLessOne.val + 1
  regmap := Regmap.standard
  initIntensity := Config.initIntensity

end Sys2Proof
end

