-- ==== Sys2Proof/Machine/Chain.lean ====
section
/-! DEFINITION. Bus frames, the bit stream and the wave form of a transaction (30_encoding R79, 40_bus_transport R88,
R90), and the reference chain model (R92 to R94). -/

namespace Sys2Proof.Machine

/-- The three bus pins (10_state R20). -/
inductive Pin where
  | data
  | clock
  | load
  deriving DecidableEq, Repr

/-- One event at the pins: a pin write (40_bus_transport R90), or a reset, which brings all three pins to their reset
values at once (70_reset_and_hazards R172). -/
inductive PinEvent where
  | write (pin : Pin) (level : Bool)
  | reset
  deriving DecidableEq, Repr

/-- `Frame(a, v) = {a[7:0], v[7:0]}` (30_encoding R79). -/
def frame (a v : Byte) : Frame := a ++ v

/-- The register address of a frame, bits 15:8 (20_memory R48). -/
def frameAddress (f : Frame) : Byte := f.extractLsb' 8 8

/-- The value of a frame, bits 7:0 (20_memory R48). -/
def frameValue (f : Frame) : Byte := f.extractLsb' 0 8

/-- The bits of a frame in shift order, MSB first (20_memory R48). -/
def frameBits (f : Frame) : List Bool := (List.range 16).map fun i => f.getLsbD (15 - i)

/-- The bit stream of a transaction: the farthest device's frame first, each MSB first (40_bus_transport R88). The
frame vector is in device order, device 0 first. -/
def stream (F : List Frame) : List Bool := F.reverse.flatMap frameBits

/-- The pin writes of one bit cell (40_bus_transport R90). -/
def bitCell (b : Bool) : List PinEvent := [.write .clock false, .write .data b, .write .clock true]

/-- The pin wave form of one transaction (40_bus_transport R90). -/
def waveform (F : List Frame) : List PinEvent :=
  [.write .load false] ++ (stream F).flatMap bitCell ++ [.write .load true]

/-- One display controller of the reference chain model (10_state R34). -/
structure Device where
  /-- `SR`, the 16-bit shift register. -/
  sr : BitVec 16
  /-- `REG[0x00..0xFF]`, 8-bit registers. -/
  reg : Memory
  deriving DecidableEq, Repr

/-- `commit(k, f)` on one device (40_bus_transport R94). -/
def Device.commit (noop : Byte) (f : Frame) (d : Device) : Device :=
  if frameAddress f = noop then d
  else { d with reg := d.reg.write (frameAddress f).toNat (frameValue f) }

/-- One device on a CLOCK rising edge, with the bit at its data input (40_bus_transport R92). -/
def Device.shift (b : Bool) (d : Device) : Device := { d with sr := d.sr.extractLsb' 0 15 ++ BitVec.ofBool b }

/-- The whole chain on a CLOCK rising edge: device 0 takes the DATA pin, every other device the top bit its
predecessor held before the edge (40_bus_transport R92). -/
def shiftChain : Bool → List Device → List Device
  | _, [] => []
  | b, d :: ds => d.shift b :: shiftChain d.sr.msb ds

/-- The whole chain on the LOAD rising edge: every device commits its shift register (40_bus_transport R94). -/
def latchChain (noop : Byte) (devs : List Device) : List Device := devs.map fun d => d.commit noop d.sr

/-- What a transaction does to one device: it holds its frame and has committed it (40_bus_transport R89, R95). -/
def Device.take (noop : Byte) (f : Frame) (d : Device) : Device := { d.commit noop f with sr := f }

/-- The transaction-level effect on the chain: device k takes F[k] (40_bus_transport R89). A frame vector has one
entry a device (R86); a device that has none keeps its state (no run reaches that; log entry 18). -/
def takeChain (noop : Byte) (F : List Frame) (devs : List Device) : List Device :=
  devs.mapIdx fun k d => match F[k]? with
    | some f => d.take noop f
    | none => d

/-- A device whose contents are unspecified: free draws (10_state R34). -/
def Device.draw (epoch k : Nat) : Device :=
  { sr := Config.srDraw epoch k, reg := Memory.ofFn 256 (Config.regDraw epoch k) }

/-- A chain of n devices whose contents are unspecified. -/
def drawChain (epoch n : Nat) : List Device := (List.range n).map (Device.draw epoch)

/-- The framebuffer of `total` cells, each at its reset draw (10_state R25). -/
def drawFb (epoch total : Nat) : Memory := Memory.ofFn total (Config.fbDraw epoch)

/-- SO with unspecified contents (10_state R32). -/
def drawSo (epoch bits : Nat) : List Bool := (List.range bits).map (Config.soDraw epoch)

/-- `N_EFF <- min(max(cfg_ndev, 1), MAX_DEVICES)` (00_scope R7). -/
def effectiveCount (maxDevices : Nat) (ndev : BitVec 16) : Nat := min (max ndev.toNat 1) maxDevices

/-- `CLAMPED <- (N_EFF != cfg_ndev)` (00_scope R7). -/
def countClamped (maxDevices : Nat) (ndev : BitVec 16) : Bool :=
  decide (effectiveCount maxDevices ndev ≠ ndev.toNat)

end Sys2Proof.Machine
end

