-- ==== Sys2Proof/Syntax.lean ====
section
/-! DEFINITION. The commands of SRBC-CMD 1, one constructor per row of spec/opcode_table.json (30_encoding R77). -/

namespace Sys2Proof

/-- A decoded command with its operands. Every operand is an immediate, zero-extended and never scaled
(30_encoding R82); its Lean type has the width of its field (R66 to R71), so every term is a command some word encodes. -/
inductive Instr where
  /-- NOP: no operation (40_bus_transport R96). -/
  | nop
  /-- INIT: the start-up configuration sequence (40_bus_transport R98). -/
  | init
  /-- BCAST reg, val: one register write broadcast to every device (40_bus_transport R97). -/
  | bcast (reg val : Byte)
  /-- STAGE col, val: buffer-only column write (41_framebuffer_write R110). -/
  | stage (col : BitVec 12) (val : Byte)
  /-- WRCOL col, val: column write to the device and to FB (41_framebuffer_write R111). -/
  | wrcol (col : BitVec 12) (val : Byte)
  /-- WRDOT col, row, v: one pixel, then its whole column (41_framebuffer_write R113). -/
  | wrdot (col : BitVec 12) (row : BitVec 4) (v : Bool)
  /-- WRALL lcol, val: one local column of every device (41_framebuffer_write R115). -/
  | wrall (lcol : BitVec 12) (val : Byte)
  /-- STBLK off, b0..b7: eight cells staged; `data` is what port `cmd_data` held in the handshake
  (41_framebuffer_write R117, 30_encoding R65). -/
  | stblk (off : BitVec 12) (data : Block)
  /-- CLEAR: every column of every device and every FB cell to zero (41_framebuffer_write R119). -/
  | clear
  /-- FLUSH: every device resynchronised to FB (41_framebuffer_write R122). -/
  | flush
  /-- SHL rot, fill: columns one slot toward column 0 (42_transform R131). -/
  | shl (rot fill : Bool)
  /-- SHR rot, fill: columns one slot away from column 0 (42_transform R132). -/
  | shr (rot fill : Bool)
  /-- SHU rot: pixels one row toward row 0 (42_transform R134). -/
  | shu (rot : Bool)
  /-- SHD rot: pixels one row away from row 0 (42_transform R135). -/
  | shd (rot : Bool)
  /-- RDCOL col: one FB cell into RSP (41_framebuffer_write R124). -/
  | rdcol (col : BitVec 12)
  deriving DecidableEq, Repr

end Sys2Proof
end

