-- ==== Sys2Proof/Machine/State.lean ====
section
/-! DEFINITION. The machine's state: every piece 10_state names (its registers, FB, the pins, the sequencer, SO), the
ports the host drives (R20), the device chain of the reference model (R34), the two observations of the bus
(40_bus_transport R91), the parameters (R36), and the host's moves to come. -/

namespace Sys2Proof.Machine

/-- One action of a command's pseudocode (00_scope R14). A command is a finite list of them. -/
inductive Action where
  /-- `Txn(F)`: one transaction with this frame vector, in device order (40_bus_transport R89). -/
  | txn (F : List Frame)
  /-- `FB[c] <- v`. -/
  | fb (c : Nat) (v : Byte)
  /-- `RSP <- v`. -/
  | rsp (v : Byte)
  /-- `CLK_O <- 1`, INIT's first step (40_bus_transport R98). -/
  | clockHigh
  /-- `STATUS.BADCMD <- 1` (60_exceptions R151). -/
  | badCmd
  deriving DecidableEq, Repr

/-- Which pin write comes next in a transaction (40_bus_transport R90). -/
inductive Phase where
  /-- No transaction is in progress; the next action is still to begin. -/
  | ready
  /-- CLK_O <- 0 of the next bit, or LOAD_O <- 1 when every bit is out. -/
  | clockLow
  /-- DATA_O <- S[i]. -/
  | data
  /-- CLK_O <- 1, the edge the devices sample at. -/
  | clockHigh
  deriving DecidableEq, Repr

/-- The sequencer while a command executes (10_state R32). -/
structure Sequencer where
  /-- The command being executed with its operands; none for a BAD word. -/
  command : Option Instr
  /-- The actions of the command still to do, the current one first. -/
  todo : List Action
  /-- The index of the current transaction within the command. -/
  txnIndex : Nat
  /-- The index of the current bit within the transaction. -/
  bitIndex : Nat
  /-- The pin write that comes next. -/
  phase : Phase
  deriving DecidableEq, Repr

/-- A move the host makes in its program order, at its turn (60_exceptions R164): offer a command on the port, or assert
`rst` with a device count. -/
inductive HostMove where
  | issue (cmd : Word) (data : Block)
  | reset (ndev : BitVec 16)
  deriving DecidableEq, Repr

/-- A reset the host asserts at a moment of its own, whatever the block is doing ("assert `rst` at any time",
60_exceptions R164): so many micro-steps from now, or from the timed reset before it, with this device count. -/
structure TimedReset where
  after : Nat
  ndev : BitVec 16
  deriving DecidableEq, Repr

/-- STATUS's fields (10_state R27). The register is read only, so nothing but these three bits is ever in it: bits 15:3
read as zero (Status.word). -/
structure Status where
  /-- BUSY, bit 0. -/
  busy : Bool
  /-- CLAMPED, bit 1. -/
  clamped : Bool
  /-- BADCMD, bit 2, sticky. -/
  badCmd : Bool
  deriving DecidableEq, Repr

/-- The state of the machine. -/
structure State where
  /-- MAX_DEVICES, REGMAP, INIT_INTENSITY: configuration that no command changes (10_state R36). -/
  params : Params
  /-- Port `rst` (10_state R20). -/
  rst : Bool
  /-- Port `cfg_ndev` (10_state R20). -/
  cfgNdev : BitVec 16
  /-- Port `cmd_valid` (10_state R20). -/
  cmdValid : Bool
  /-- Port `cmd` (10_state R20). -/
  cmd : Word
  /-- Port `cmd_data` (10_state R20). -/
  cmdData : Block
  /-- N_EFF (10_state R21). -/
  nEff : BitVec 10
  /-- STATUS (10_state R27). -/
  status : Status
  /-- RSP (10_state R26). -/
  rsp : Byte
  /-- FB (10_state R23). -/
  fb : Memory
  /-- DATA_O (10_state R30). -/
  dataO : Bool
  /-- CLK_O (10_state R30). -/
  clkO : Bool
  /-- LOAD_O (10_state R30). -/
  loadO : Bool
  /-- The sequencer, none when idle (10_state R32). -/
  seq : Option Sequencer
  /-- SO, the transaction's bit stream, the bit shifted first at index 0 (10_state R32). -/
  so : List Bool
  /-- DEV[0..N-1] (10_state R34). -/
  dev : List Device
  /-- BUSLOG, oldest first; each frame vector in device order (40_bus_transport R89). -/
  busLog : List (List Frame)
  /-- The events at the pins, oldest first (40_bus_transport R90, R91). -/
  pinLog : List PinEvent
  /-- The model's own: the number of the next free draw (log entry 5). -/
  draws : Nat
  /-- The model's own: the host's moves to come, next first (log entry 14). -/
  host : List HostMove
  /-- The model's own: the resets the host asserts at moments of its own, next first (log entry 14). -/
  resets : List TimedReset
  deriving DecidableEq, Repr

/-- The reasons a step can stop with a fault: none. "No command raises an exception, traps, or returns an error code"
(60_exceptions R150), so the type has no constructor. Safe. -/
inductive Fault where
  deriving DecidableEq, Repr

/-- The reasons a step can be refused. -/
inductive Refusal where
  /-- Raised by an arm of `exec` whose instruction has no meaning yet; no arm does. Safe. -/
  | notModelled (mnemonic : String)
  deriving DecidableEq, Repr

/-- The machine right after a power-up and a first reset with `cfg_ndev = ndev` (10_state R37, 70_reset_and_hazards
R170, R171, R174): the block in its reset state, the devices unspecified, the ports at rest. -/
def State.resetOf (p : Params) (ndev : BitVec 16) : State where
  params := p
  rst := false
  cfgNdev := ndev
  cmdValid := false
  cmd := 0
  cmdData := 0
  nEff := BitVec.ofNat 10 (effectiveCount p.maxDevices ndev)
  status := ⟨false, countClamped p.maxDevices ndev, false⟩
  rsp := 0x00
  fb := drawFb 0 (panelW * effectiveCount p.maxDevices ndev)
  dataO := false
  clkO := true
  loadO := true
  seq := none
  so := drawSo 0 (16 * effectiveCount p.maxDevices ndev)
  dev := drawChain 0 (effectiveCount p.maxDevices ndev)
  busLog := []
  pinLog := []
  draws := 1
  host := []
  resets := []

/-- The machine right after reset, with the parameters and the device count of the machine at hand: free values where
the spec leaves them open (log entries 2 to 4). -/
def State.reset : State := State.resetOf Config.params Config.cfgNdev

end Sys2Proof.Machine
end

