-- ==== Sys2Proof/Machine/Flags.lean ====
section
/-! DEFINITION. The STATUS register's fields (10_state R27 to R29) and their updates. -/

namespace Sys2Proof.Machine

/-- STATUS as the 16-bit register the host reads: BUSY in bit 0, CLAMPED in bit 1, BADCMD in bit 2, bits 15:3 zero
(10_state R27). -/
def Status.word (st : Status) : BitVec 16 :=
  0#13 ++ BitVec.ofBool st.badCmd ++ BitVec.ofBool st.clamped ++ BitVec.ofBool st.busy

/-- STATUS.BUSY (10_state R28). -/
def State.busy (s : State) : Bool := s.status.busy

/-- STATUS.BUSY set or cleared (10_state R28). -/
def State.setBusy (s : State) (b : Bool) : State := { s with status := { s.status with busy := b } }

/-- `raise BadCmd(w)`: STATUS.BADCMD set and no other effect (60_exceptions R151). It records nothing of the word, and
only reset clears it (10_state R29). -/
def State.raiseBadCmd (s : State) : State := { s with status := { s.status with badCmd := true } }

/-- `cmd_ready = NOT BUSY` (10_state R28), and 0 while `rst` is asserted (70_reset_and_hazards R171; log entry 17). -/
def State.cmdReady (s : State) : Bool := !s.busy && !s.rst

end Sys2Proof.Machine
end

