-- ==== Sys2Proof/Machine/Operands.lean ====
section
/-! DEFINITION. Every operand form: column, local column, row, value and block operands, their ranges, and the values
computed from a column byte (00_scope R9, R18, 30_encoding R68 to R71, 20_memory R50, 42_transform R134, R135). -/

namespace Sys2Proof.Machine

/-- N, the effective device count (00_scope R7). -/
def State.deviceCount (s : State) : Nat := s.nEff.toNat

/-- `TOTAL = 8 * N_EFF` (00_scope R9, 10_state R22). -/
def State.total (s : State) : Nat := panelW * s.deviceCount

/-- A global column is in range when `c < TOTAL` (30_encoding R68). -/
def State.inRange (s : State) (c : Nat) : Bool := decide (c < s.total)

/-- A local column is in range when `lc < 8` (30_encoding R68). -/
def localInRange (lc : Nat) : Bool := decide (lc < panelW)

/-- A row is in range when `row < 8` (30_encoding R69). -/
def rowInRange (r : Nat) : Bool := decide (r < panelH)

/-- The device of a global column, `c div PANEL_W` (00_scope R18). -/
def deviceOf (c : Nat) : Nat := c / panelW

/-- The local column of a global column, `c mod PANEL_W` (00_scope R18). -/
def localOf (c : Nat) : Nat := c % panelW

/-- The global column of device k's local column lc, `k * PANEL_W + lc` (00_scope R18, 41_framebuffer_write R116). -/
def globalOf (k lc : Nat) : Nat := k * panelW + lc

/-- Byte i of `cmd_data`, bits 8*i+7 : 8*i (20_memory R50). -/
def blockByte (d : Block) (i : Nat) : Byte := d.extractLsb' (8 * i) 8

/-- `(old & ~(1 << r)) | (zext_8(V) << r)`, WRDOT's new column value (41_framebuffer_write R113). -/
def dotColumn (old : Byte) (r : Nat) (v : Bool) : Byte :=
  (old &&& ~~~(1#8 <<< r)) ||| ((BitVec.ofBool v).setWidth 8 <<< r)

/-- `(v >> 1) | (ROT ? v[0] << 7 : 0)`, SHU's new column value (42_transform R134). -/
def columnUp (rot : Bool) (v : Byte) : Byte :=
  (v >>> 1) ||| (if rot then (BitVec.ofBool (v.getLsbD 0)).setWidth 8 <<< 7 else 0)

/-- `((v << 1) & 0xFF) | (ROT ? v[7] : 0)`, SHD's new column value (42_transform R135). -/
def columnDown (rot : Bool) (v : Byte) : Byte :=
  (v <<< 1) ||| (if rot then (BitVec.ofBool (v.getLsbD 7)).setWidth 8 else 0)

/-- What the exposed edge slot gets in SHL and SHR: the evicted value when ROT = 1, else zero when FILL = 1, else its
own stale value (42_transform R131, R132). -/
def edgeColumn (rot fill : Bool) (evicted stale : Byte) : Byte :=
  if rot then evicted else if fill then 0x00 else stale

end Sys2Proof.Machine
end

