-- ==== Sys2Proof/Machine/Ops.lean ====
section
/-! DEFINITION. The named operations: FB and RSP, the pins with the chain behind them, transactions, the actions of a
command, reset, and the host's side of the ports. -/

namespace Sys2Proof.Machine

/-- `FB[c]` (00_scope R14). A cell below TOTAL that FB does not list would hold a draw like any cell never written;
no run reaches such a state (log entry 5). -/
def State.fbRead (s : State) (c : Nat) : Byte := (s.fb.read c).getD (Config.fbDraw s.draws c)

/-- `FB[c] <- v` (00_scope R14). -/
def State.fbWrite (s : State) (c : Nat) (v : Byte) : State := { s with fb := s.fb.write c v }

/-- `RSP <- v` (00_scope R14). -/
def State.setRsp (s : State) (v : Byte) : State := { s with rsp := v }

/-- Every DEV register, and every shift register, becomes a free draw (70_reset_and_hazards R173; log entries 9, 11). -/
def State.havocDev (s : State) : State :=
  { s with dev := drawChain s.draws s.deviceCount, draws := s.draws + 1 }

/-- The chain sees a CLOCK rising edge: it shifts DATA in (40_bus_transport R92). The block makes such an edge only
while LOAD is low; what a device does with one while LOAD is high is unspecified (R93), so the devices' contents are
then free (log entry 11). -/
def State.clockEdge (s : State) : State :=
  if s.loadO then s.havocDev else { s with dev := shiftChain s.dataO s.dev }

/-- The chain sees the LOAD rising edge: every device commits (40_bus_transport R94). -/
def State.loadEdge (s : State) : State := { s with dev := latchChain s.params.regmap.noop s.dev }

/-- One pin write: the pin's register takes the level, the write is observed, and a rising edge of CLOCK or LOAD
reaches the chain (10_state R30, 40_bus_transport R90 to R94). -/
def State.drivePin (s : State) (p : Pin) (level : Bool) : State :=
  let logged := { s with pinLog := s.pinLog ++ [PinEvent.write p level] }
  match p with
  | .data => { logged with dataO := level }
  | .clock => { (if level && !s.clkO then logged.clockEdge else logged) with clkO := level }
  | .load => { (if level && !s.loadO then logged.loadEdge else logged) with loadO := level }

/-- `Bcast(a, v)`: the same frame for every device (40_bus_transport R87). -/
def State.bcastFrames (s : State) (a v : Byte) : List Frame := List.replicate s.deviceCount (frame a v)

/-- `Targeted(kt, a, v)`: the frame for device kt, the no-op frame for every other (40_bus_transport R87). -/
def State.targetedFrames (s : State) (kt : Nat) (a v : Byte) : List Frame :=
  (List.range s.deviceCount).map fun k => if k = kt then frame a v else frame s.params.regmap.noop 0x00

/-- `Multi(a, vs)`: each device its own value (40_bus_transport R87). -/
def State.multiFrames (s : State) (a : Byte) (vs : Nat → Byte) : List Frame :=
  (List.range s.deviceCount).map fun k => frame a (vs k)

/-- `COL(lc)` of the machine's REGMAP (00_scope R10). -/
def State.colReg (s : State) (lc : Nat) : Byte := s.params.regmap.col lc

/-- `Txn(F)` at the transaction level (40_bus_transport R89, R91): every device takes its frame, BUSLOG and the pin
observation grow, SO holds the stream, the pins are back at the idle levels with DATA at the last bit shifted
(10_state R30). -/
def State.txn (s : State) (F : List Frame) : State :=
  { s with
    dev := takeChain s.params.regmap.noop F s.dev
    busLog := s.busLog ++ [F]
    pinLog := s.pinLog ++ waveform F
    so := stream F
    dataO := (stream F).getLast?.getD s.dataO
    clkO := true
    loadO := true }

/-- One action of a command's pseudocode, done whole. -/
def State.act (s : State) : Action → State
  | .txn F => s.txn F
  | .fb c v => s.fbWrite c v
  | .rsp v => s.setRsp v
  | .clockHigh => s.drivePin .clock true
  | .badCmd => s.raiseBadCmd

/-- A command's actions in order (20_memory R57). -/
def State.perform (s : State) (actions : List Action) : State := actions.foldl State.act s

/-- `WriteCol(c, v)`, the write mux shared by WRCOL and WRDOT (41_framebuffer_write R112). The FB write goes first, so
that the LOAD rising edge is the last effect (10_state R28); the order is not observable (20_memory R58; log entry 13). -/
def State.writeCol (s : State) (c : Nat) (v : Byte) : List Action :=
  [.fb c v, .txn (s.targetedFrames (deviceOf c) (s.colReg (localOf c)) v)]

/-- `Flush()` from framebuffer contents `vals`: one multi-device transaction per local column
(41_framebuffer_write R121, R122, 42_transform R133). -/
def State.flushFrom (s : State) (vals : Nat → Byte) : List Action :=
  (List.range panelW).map fun lc => .txn (s.multiFrames (s.colReg lc) fun k => vals (globalOf k lc))

/-- Every cell of FB written, by rising column. -/
def State.fbAll (s : State) (vals : Nat → Byte) : List Action := (List.range s.total).map fun c => .fb c (vals c)

/-- A transform: every cell takes its new value, then one flush from the new FB (42_transform R130, R133). -/
def State.transform (s : State) (vals : Nat → Byte) : List Action := s.fbAll vals ++ s.flushFrom vals

/-- Reset (70_reset_and_hazards R170 to R174, 10_state R37): the block's registers take their reset values, N_EFF and
CLAMPED come from `cfg_ndev` as sampled now, every FB cell and SO become fresh draws, a command in progress is aborted.
It performs no transaction. What the devices hold is unspecified after any reset (R174), so all of it becomes free draws
(log entries 7, 8, 9). -/
def State.applyReset (s : State) : State :=
  let n := effectiveCount s.params.maxDevices s.cfgNdev
  { s with
    nEff := BitVec.ofNat 10 n
    status := ⟨false, countClamped s.params.maxDevices s.cfgNdev, false⟩
    rsp := 0x00
    fb := drawFb s.draws (panelW * n)
    dataO := false
    clkO := true
    loadO := true
    seq := none
    so := drawSo s.draws (16 * n)
    dev := drawChain s.draws n
    pinLog := s.pinLog ++ [.reset]
    draws := s.draws + 1 }

/-- The host asserts `rst` and holds this device count on `cfg_ndev` (60_exceptions R164). -/
def State.assertReset (s : State) (ndev : BitVec 16) : State := { s with rst := true, cfgNdev := ndev }

/-- The host releases `rst` (70_reset_and_hazards R176; log entry 14). -/
def State.releaseReset (s : State) : State := { s with rst := false }

/-- The host takes its offer off the port: the command was accepted (60_exceptions R164; log entry 14). -/
def State.takeOffer (s : State) : State := { s with cmdValid := false }

/-- The host's turn: if no offer of its own is still waiting, it makes its next move, if any (60_exceptions R164; log
entry 14). -/
def State.hostTurn (s : State) : State :=
  if s.cmdValid then s
  else match s.host with
    | [] => s
    | .issue w d :: rest => { s with cmdValid := true, cmd := w, cmdData := d, host := rest }
    | .reset ndev :: rest => { s.assertReset ndev with host := rest }

/-- One micro-step passes for the host's timed resets: the next one comes nearer, or is asserted now, in whatever state the
block is (60_exceptions R164; log entry 14). -/
def State.resetClock (s : State) : State :=
  match s.resets with
  | [] => s
  | ⟨0, ndev⟩ :: rest => { s.assertReset ndev with resets := rest }
  | ⟨k + 1, ndev⟩ :: rest => { s with resets := ⟨k, ndev⟩ :: rest }

/-- A move that issues a command. -/
def HostMove.issues : HostMove → Bool
  | .issue _ _ => true
  | .reset _ => false

/-- The run of a host program has ended: the host has issued its last command, that command has been accepted, and
BUSY = 0 (60_exceptions R167). -/
def State.runEnded (s : State) : Bool := !s.host.any HostMove.issues && !s.cmdValid && !s.busy

/-- What is observed at the end of a run (60_exceptions R167). -/
structure Observation where
  fb : Memory
  rsp : Byte
  status : BitVec 16
  busLog : List (List Frame)
  dev : List Device
  deriving DecidableEq, Repr

/-- The observation of a state: FB, RSP, STATUS, BUSLOG and, through the chain model, DEV (60_exceptions R167). -/
def State.observation (s : State) : Observation where
  fb := s.fb
  rsp := s.rsp
  status := s.status.word
  busLog := s.busLog
  dev := s.dev

/-- After a command has completed: its offer is gone and it is the host's turn. -/
def State.completed (s : State) : State := s.takeOffer.hostTurn

/-- The values at the output ports (10_state R20). -/
structure Outputs where
  cmdReady : Bool
  rsp : Byte
  status : BitVec 16
  nEff : BitVec 10
  data : Bool
  clock : Bool
  load : Bool
  deriving DecidableEq, Repr

/-- The output ports: `rsp`, `status`, `n_eff` show their registers, each pin its register, and `cmd_ready` is derived
(10_state R20, R30). Reading them changes nothing (60_exceptions R164). -/
def State.outputs (s : State) : Outputs where
  cmdReady := s.cmdReady
  rsp := s.rsp
  status := s.status.word
  nEff := s.nEff
  data := s.dataO
  clock := s.clkO
  load := s.loadO

end Sys2Proof.Machine
end

