-- ==== Sys2Proof/Machine/Framebuffer.lean ====
section
/-! DEFINITION. The framebuffer and write-mux family: STAGE, WRCOL, WRDOT, WRALL, STBLK, CLEAR, FLUSH, RDCOL
(41_framebuffer_write). An out-of-range operand clips: the pseudocode then does nothing (60_exceptions R152). -/

namespace Sys2Proof.Machine

/-- STAGE's pseudocode (41_framebuffer_write R110). -/
def planStage (col : BitVec 12) (val : Byte) (s : State) : List Action :=
  if s.inRange col.toNat then [.fb col.toNat val] else []

/-- STAGE (41_framebuffer_write R110). -/
def execStage (col : BitVec 12) (val : Byte) (s : State) : Host.Outcome State Fault Refusal :=
  .next (s.perform (planStage col val s))

/-- WRCOL's pseudocode (41_framebuffer_write R111). -/
def planWrcol (col : BitVec 12) (val : Byte) (s : State) : List Action :=
  if s.inRange col.toNat then s.writeCol col.toNat val else []

/-- WRCOL (41_framebuffer_write R111). -/
def execWrcol (col : BitVec 12) (val : Byte) (s : State) : Host.Outcome State Fault Refusal :=
  .next (s.perform (planWrcol col val s))

/-- WRDOT's pseudocode (41_framebuffer_write R113). -/
def planWrdot (col : BitVec 12) (row : BitVec 4) (v : Bool) (s : State) : List Action :=
  if s.inRange col.toNat && rowInRange row.toNat then
    s.writeCol col.toNat (dotColumn (s.fbRead col.toNat) row.toNat v)
  else []

/-- WRDOT (41_framebuffer_write R113). -/
def execWrdot (col : BitVec 12) (row : BitVec 4) (v : Bool) (s : State) : Host.Outcome State Fault Refusal :=
  .next (s.perform (planWrdot col row v s))

/-- One broadcast to a local column and the FB slot of every device, the device-relative global column
(41_framebuffer_write R115, R116, 90_conflicts C1). WRALL and CLEAR share it. The FB writes go first, so that the LOAD
rising edge is the last effect (10_state R28); the order is not observable (20_memory R58; log entry 13). -/
def State.writeAll (s : State) (lc : Nat) (val : Byte) : List Action :=
  ((List.range s.deviceCount).map fun k => .fb (globalOf k lc) val) ++ [.txn (s.bcastFrames (s.colReg lc) val)]

/-- WRALL's pseudocode (41_framebuffer_write R115). COL is a local column here. -/
def planWrall (lcol : BitVec 12) (val : Byte) (s : State) : List Action :=
  if localInRange lcol.toNat then s.writeAll lcol.toNat val else []

/-- WRALL (41_framebuffer_write R115). -/
def execWrall (lcol : BitVec 12) (val : Byte) (s : State) : Host.Outcome State Fault Refusal :=
  .next (s.perform (planWrall lcol val s))

/-- STBLK's pseudocode: each of the eight cells is checked on its own (41_framebuffer_write R117, R118). -/
def planStblk (off : BitVec 12) (data : Block) (s : State) : List Action :=
  ((List.range 8).filter fun i => s.inRange (off.toNat + i)).map fun i => .fb (off.toNat + i) (blockByte data i)

/-- STBLK (41_framebuffer_write R117). -/
def execStblk (off : BitVec 12) (data : Block) (s : State) : Host.Outcome State Fault Refusal :=
  .next (s.perform (planStblk off data s))

/-- CLEAR's pseudocode: the loop bound is PANEL_H, as the source writes it (41_framebuffer_write R119, 90_conflicts
C2). The FB writes go first, as in `State.writeAll` (10_state R28, 20_memory R58; log entry 13). -/
def planClear (s : State) : List Action :=
  s.fbAll (fun _ => 0x00) ++ (List.range panelH).flatMap fun lc => s.writeAll lc 0x00

/-- CLEAR (41_framebuffer_write R119). -/
def execClear (s : State) : Host.Outcome State Fault Refusal := .next (s.perform (planClear s))

/-- FLUSH's pseudocode (41_framebuffer_write R122). -/
def planFlush (s : State) : List Action := s.flushFrom s.fbRead

/-- FLUSH (41_framebuffer_write R122). -/
def execFlush (s : State) : Host.Outcome State Fault Refusal := .next (s.perform (planFlush s))

/-- RDCOL's pseudocode: an out-of-range column is not clipped, it writes 0x00 (41_framebuffer_write R124). -/
def planRdcol (col : BitVec 12) (s : State) : List Action :=
  [.rsp (if s.inRange col.toNat then s.fbRead col.toNat else 0x00)]

/-- RDCOL (41_framebuffer_write R124). -/
def execRdcol (col : BitVec 12) (s : State) : Host.Outcome State Fault Refusal :=
  .next (s.perform (planRdcol col s))

end Sys2Proof.Machine
end

