-- ==== Sys2Proof/Machine/Transform.lean ====
section
/-! DEFINITION. The transform family: SHL, SHR, SHU, SHD (42_transform). Every new value is computed from the snapshot
`old` of FB, which is `s.fbRead` for the state `s` the command starts in (R130). -/

namespace Sys2Proof.Machine

/-- The columns after SHL (42_transform R131). -/
def State.columnsLeft (s : State) (rot fill : Bool) (c : Nat) : Byte :=
  if c + 1 < s.total then s.fbRead (c + 1)
  else edgeColumn rot fill (s.fbRead 0) (s.fbRead (s.total - 1))

/-- The columns after SHR (42_transform R132). -/
def State.columnsRight (s : State) (rot fill : Bool) (c : Nat) : Byte :=
  if 0 < c then s.fbRead (c - 1)
  else edgeColumn rot fill (s.fbRead (s.total - 1)) (s.fbRead 0)

/-- SHL's pseudocode (42_transform R131). -/
def planShl (rot fill : Bool) (s : State) : List Action := s.transform (s.columnsLeft rot fill)

/-- SHL (42_transform R131). -/
def execShl (rot fill : Bool) (s : State) : Host.Outcome State Fault Refusal :=
  .next (s.perform (planShl rot fill s))

/-- SHR's pseudocode (42_transform R132). -/
def planShr (rot fill : Bool) (s : State) : List Action := s.transform (s.columnsRight rot fill)

/-- SHR (42_transform R132). -/
def execShr (rot fill : Bool) (s : State) : Host.Outcome State Fault Refusal :=
  .next (s.perform (planShr rot fill s))

/-- SHU's pseudocode (42_transform R134). -/
def planShu (rot : Bool) (s : State) : List Action := s.transform fun c => columnUp rot (s.fbRead c)

/-- SHU (42_transform R134). -/
def execShu (rot : Bool) (s : State) : Host.Outcome State Fault Refusal := .next (s.perform (planShu rot s))

/-- SHD's pseudocode (42_transform R135). -/
def planShd (rot : Bool) (s : State) : List Action := s.transform fun c => columnDown rot (s.fbRead c)

/-- SHD (42_transform R135). -/
def execShd (rot : Bool) (s : State) : Host.Outcome State Fault Refusal := .next (s.perform (planShd rot s))

end Sys2Proof.Machine
end

