-- ==== Sys2Proof/Machine/Transport.lean ====
section
/-! DEFINITION. The transport and configuration family: NOP, INIT, BCAST (40_bus_transport). Each command is the list
of its pseudocode's actions, and its meaning performs them. -/

namespace Sys2Proof.Machine

/-- NOP's pseudocode: nothing (40_bus_transport R96). -/
def planNop (_ : State) : List Action := []

/-- NOP (40_bus_transport R96). -/
def execNop (s : State) : Host.Outcome State Fault Refusal := .next (s.perform (planNop s))

/-- INIT's pseudocode (40_bus_transport R98). -/
def planInit (s : State) : List Action :=
  let m := s.params.regmap
  [.clockHigh,
    .txn (s.bcastFrames m.scanLimit 0x07),
    .txn (s.bcastFrames m.decodeMode 0x00),
    .txn (s.bcastFrames m.shutdown m.shutdownNormal),
    .txn (s.bcastFrames m.test m.testOff)]
  ++ (List.range panelW).map (fun lc => .txn (s.bcastFrames (s.colReg lc) 0x00))
  ++ s.fbAll (fun _ => 0x00)
  ++ [.txn (s.bcastFrames m.intensity s.params.initIntensity)]

/-- INIT (40_bus_transport R98). -/
def execInit (s : State) : Host.Outcome State Fault Refusal := .next (s.perform (planInit s))

/-- BCAST's pseudocode: one broadcast, any register address verbatim (40_bus_transport R97). -/
def planBcast (reg val : Byte) (s : State) : List Action := [.txn (s.bcastFrames reg val)]

/-- BCAST (40_bus_transport R97). -/
def execBcast (reg val : Byte) (s : State) : Host.Outcome State Fault Refusal :=
  .next (s.perform (planBcast reg val s))

end Sys2Proof.Machine
end

