-- ==== Sys2Proof/Machine/Dispatch.lean ====
section
/-! DEFINITION. The dispatch: one arm per command. -/

namespace Sys2Proof.Machine

def exec (i : Instr) (s : State) : Host.Outcome State Fault Refusal :=
  match i with
  | .nop => Sys2Proof.Machine.execNop s
  | .init => Sys2Proof.Machine.execInit s
  | .bcast reg val => Sys2Proof.Machine.execBcast reg val s
  | .stage col val => Sys2Proof.Machine.execStage col val s
  | .wrcol col val => Sys2Proof.Machine.execWrcol col val s
  | .wrdot col row v => Sys2Proof.Machine.execWrdot col row v s
  | .wrall lcol val => Sys2Proof.Machine.execWrall lcol val s
  | .stblk off data => Sys2Proof.Machine.execStblk off data s
  | .clear => Sys2Proof.Machine.execClear s
  | .flush => Sys2Proof.Machine.execFlush s
  | .shl rot fill => Sys2Proof.Machine.execShl rot fill s
  | .shr rot fill => Sys2Proof.Machine.execShr rot fill s
  | .shu rot => Sys2Proof.Machine.execShu rot s
  | .shd rot => Sys2Proof.Machine.execShd rot s
  | .rdcol col => Sys2Proof.Machine.execRdcol col s

end Sys2Proof.Machine
end

