-- ==== Sys2Proof/Decode.lean ====
section
/-! DEFINITION. The decoder of 30_encoding (R66 to R78, R80, R82), total on all words, and after it the encoder,
written from the same formats. -/

namespace Sys2Proof

/-- Why a word is BAD (30_encoding R80). -/
inductive BadCause where
  /-- OP = 0xF, the reserved opcode. -/
  | reservedOpcode
  /-- A known OP with a nonzero bit where its format requires zero. -/
  | mustBeZero
  deriving DecidableEq, Repr

/-- What the decoder says of a word: a command, or BAD with its cause (30_encoding R78). -/
inductive Decoded where
  | command (i : Instr)
  | bad (why : BadCause)
  deriving DecidableEq, Repr

/-- The command of a decoding, if it is one. -/
def Decoded.toOption : Decoded → Option Instr
  | .command i => some i
  | .bad _ => none

/-- OP, bits 31:28 (30_encoding R66). -/
def fieldOp (w : Word) : BitVec 4 := w.extractLsb' 28 4
/-- F1, bit 27: ROT of the shifts, V of WRDOT (30_encoding R71). -/
def fieldF1 (w : Word) : Bool := w.getLsbD 27
/-- F0, bit 26: FILL of SHL and SHR (30_encoding R71). -/
def fieldF0 (w : Word) : Bool := w.getLsbD 26
/-- COL, bits 23:12 (30_encoding R68). -/
def fieldCol (w : Word) : BitVec 12 := w.extractLsb' 12 12
/-- ROW, bits 11:8 (30_encoding R69). -/
def fieldRow (w : Word) : BitVec 4 := w.extractLsb' 8 4
/-- REG, bits 15:8, format B only (30_encoding R73). -/
def fieldReg (w : Word) : Byte := w.extractLsb' 8 8
/-- VAL, bits 7:0 (30_encoding R70). -/
def fieldVal (w : Word) : Byte := w.extractLsb' 0 8

/-- A row of the opcode map: its match, its mask, and the command read from a word and the data block offered with it. -/
structure OpRow where
  pattern : Word
  mask : Word
  read : Word → Block → Instr

/-- `(word & mask) == match` (30_encoding R77). -/
def OpRow.matchesWord (r : OpRow) (w : Word) : Bool := w &&& r.mask == r.pattern

/-- The opcode map (30_encoding R77), in the table's order. -/
def opTable : List OpRow := [
  ⟨0x00000000, 0xFFFFFFFF, fun _ _ => .nop⟩,
  ⟨0x10000000, 0xFFFFFFFF, fun _ _ => .init⟩,
  ⟨0x20000000, 0xFFFF0000, fun w _ => .bcast (fieldReg w) (fieldVal w)⟩,
  ⟨0x30000000, 0xFF000F00, fun w _ => .stage (fieldCol w) (fieldVal w)⟩,
  ⟨0x40000000, 0xFF000F00, fun w _ => .wrcol (fieldCol w) (fieldVal w)⟩,
  ⟨0x50000000, 0xF70000FF, fun w _ => .wrdot (fieldCol w) (fieldRow w) (fieldF1 w)⟩,
  ⟨0x60000000, 0xFF000F00, fun w _ => .wrall (fieldCol w) (fieldVal w)⟩,
  ⟨0x70000000, 0xFF000FFF, fun w d => .stblk (fieldCol w) d⟩,
  ⟨0x80000000, 0xFFFFFFFF, fun _ _ => .clear⟩,
  ⟨0x90000000, 0xFFFFFFFF, fun _ _ => .flush⟩,
  ⟨0xA0000000, 0xF3FFFFFF, fun w _ => .shl (fieldF1 w) (fieldF0 w)⟩,
  ⟨0xB0000000, 0xF3FFFFFF, fun w _ => .shr (fieldF1 w) (fieldF0 w)⟩,
  ⟨0xC0000000, 0xF7FFFFFF, fun w _ => .shu (fieldF1 w)⟩,
  ⟨0xD0000000, 0xF7FFFFFF, fun w _ => .shd (fieldF1 w)⟩,
  ⟨0xE0000000, 0xFF000FFF, fun w _ => .rdcol (fieldCol w)⟩]

/-- The decoder (30_encoding R78): the first row that matches, else BAD, named by its cause (R80). -/
def decode (w : Word) (d : Block) : Decoded :=
  match opTable.find? (fun r => r.matchesWord w) with
  | some r => .command (r.read w d)
  | none => .bad (if fieldOp w = 0xF then .reservedOpcode else .mustBeZero)

/-- Format N (30_encoding R72). -/
def formatN (op : BitVec 4) : Word := op ++ 0#28
/-- Format B (30_encoding R73). -/
def formatB (op : BitVec 4) (reg val : Byte) : Word := op ++ 0#12 ++ reg ++ val
/-- Format C (30_encoding R74). -/
def formatC (op : BitVec 4) (col : BitVec 12) (val : Byte) : Word := op ++ 0#4 ++ col ++ 0#4 ++ val
/-- Format D (30_encoding R75). -/
def formatD (op : BitVec 4) (v : Bool) (col : BitVec 12) (row : BitVec 4) : Word :=
  op ++ BitVec.ofBool v ++ 0#3 ++ col ++ row ++ 0#8
/-- Format S (30_encoding R76). -/
def formatS (op : BitVec 4) (rot fill : Bool) : Word := op ++ BitVec.ofBool rot ++ BitVec.ofBool fill ++ 0#26

/-- The word of a command (30_encoding R72 to R77). -/
def encode : Instr → Word
  | .nop => formatN 0x0
  | .init => formatN 0x1
  | .bcast reg val => formatB 0x2 reg val
  | .stage col val => formatC 0x3 col val
  | .wrcol col val => formatC 0x4 col val
  | .wrdot col row v => formatD 0x5 v col row
  | .wrall lcol val => formatC 0x6 lcol val
  | .stblk off _ => formatC 0x7 off 0
  | .clear => formatN 0x8
  | .flush => formatN 0x9
  | .shl rot fill => formatS 0xA rot fill
  | .shr rot fill => formatS 0xB rot fill
  | .shu rot => formatS 0xC rot false
  | .shd rot => formatS 0xD rot false
  | .rdcol col => formatC 0xE col 0

/-- What the host holds on `cmd_data` for a command: STBLK's data block. For every other command the port is ignored
(30_encoding R65); the encoder drives zero. -/
def encodeData : Instr → Block
  | .stblk _ data => data
  | _ => 0

/-- The command word and the data block of a handshake as one number: `cmd` in bits 31:0, `cmd_data` in bits 95:32
(DESIGN CHOICE, log entry 16). -/
def handshakeBits (nbits w : Nat) : BitVec 96 := BitVec.ofNat 96 (w % 2 ^ nbits)

/-- The `cmd` part of a handshake number. -/
def handshakeCmd (b : BitVec 96) : Word := b.extractLsb' 0 32
/-- The `cmd_data` part of a handshake number. -/
def handshakeData (b : BitVec 96) : Block := b.extractLsb' 32 64

/-- What the decoder reads from an instruction whose bits are `w`, numbered as the opcode table numbers them, every
bit from `nbits` up being zero. -/
def decodeTableWord (nbits w : Nat) : Option Instr :=
  (decode (handshakeCmd (handshakeBits nbits w)) (handshakeData (handshakeBits nbits w))).toOption

end Sys2Proof
end

