-- ==== Sys2Proof/Machine/Sequencer.lean ====
section
/-! DEFINITION. The machine at pin level (40_bus_transport R91): one micro-step is one pin write of a transaction
(R90), or one other action of the command in progress (10_state R32). Reset can land between any two micro-steps
(70_reset_and_hazards R173). -/

namespace Sys2Proof.Machine

/-- The pseudocode of a command, as actions, from the state it starts in. -/
def plan (i : Instr) (s : State) : List Action :=
  match i with
  | .nop => planNop s
  | .init => planInit s
  | .bcast reg val => planBcast reg val s
  | .stage col val => planStage col val s
  | .wrcol col val => planWrcol col val s
  | .wrdot col row v => planWrdot col row v s
  | .wrall lcol val => planWrall lcol val s
  | .stblk off data => planStblk off data s
  | .clear => planClear s
  | .flush => planFlush s
  | .shl rot fill => planShl rot fill s
  | .shr rot fill => planShr rot fill s
  | .shu rot => planShu rot s
  | .shd rot => planShd rot s
  | .rdcol col => planRdcol col s

/-- The sequencer starts a command: BUSY is set and the offer is accepted (10_state R28, R32). -/
def State.start (s : State) (command : Option Instr) (todo : List Action) : State :=
  { s.takeOffer.setBusy true with seq := some ⟨command, todo, 0, 0, .ready⟩ }

/-- The block accepts the offered word (20_memory R55): the command it decodes to, or BAD (30_encoding R78). -/
def State.accept (s : State) : State :=
  match decode s.cmd s.cmdData with
  | .command i => s.start (some i) (plan i s)
  | .bad _ => s.start none [.badCmd]

/-- The command in progress has completed: BUSY falls (10_state R28, 20_memory R59) and it is the host's turn. -/
def State.endCommand (s : State) : State := { s.setBusy false with seq := none }.hostTurn

/-- After an effect of the command in progress: the sequencer goes on as `q` says, or, where `q` has nothing left to do,
that was the command's last effect and the command has completed with it (10_state R28). -/
def State.proceed (s : State) (q : Sequencer) : State :=
  if q.todo.isEmpty then s.endCommand else { s with seq := some q }

/-- One pin write of the transaction F, which is the current action of `q`; `rest` are the actions after it
(40_bus_transport R90). BUSLOG takes F at the commit, and BUSY falls at the commit of the command's last transaction
(10_state R28). -/
def State.txnStep (s : State) (q : Sequencer) (F : List Frame) (rest : List Action) : State :=
  match q.phase with
  | .ready =>
    { s.drivePin .load false with so := stream F, seq := some { q with bitIndex := 0, phase := .clockLow } }
  | .clockLow =>
    if q.bitIndex < s.so.length then { s.drivePin .clock false with seq := some { q with phase := .data } }
    else { s.drivePin .load true with busLog := s.busLog ++ [F] }.proceed
      { q with todo := rest, txnIndex := q.txnIndex + 1, bitIndex := 0, phase := .ready }
  | .data =>
    { s.drivePin .data ((s.so[q.bitIndex]?).getD s.dataO) with seq := some { q with phase := .clockHigh } }
  | .clockHigh =>
    { s.drivePin .clock true with seq := some { q with bitIndex := q.bitIndex + 1, phase := .clockLow } }

/-- One micro-step of the command in progress. A command with no effect, such as a clipped one, completes in the
micro-step after its acceptance. -/
def State.seqStep (s : State) (q : Sequencer) : State :=
  match q.todo with
  | [] => s.endCommand
  | .txn F :: rest => s.txnStep q F rest
  | a :: rest => (s.act a).proceed { q with todo := rest }

/-- One micro-step of the block with `rst` released: a command in progress moves on, an idle block accepts an offer
(20_memory R55), and else it is the host's turn. -/
def State.microStep (s : State) : State :=
  match s.seq with
  | some q => s.seqStep q
  | none => if s.cmdValid && s.cmdReady then s.accept else s.endCommand

/-- The machine's next micro-step. Reset has priority over everything (60_exceptions R156): while `rst` is asserted the
block is reset, and `rst` is then released. Otherwise the block does its micro-step, and a reset the host has timed for
this moment is asserted at its end, whatever the block is doing (60_exceptions R164). -/
def State.pinStep (s : State) : State :=
  if s.rst then s.applyReset.releaseReset else s.microStep.resetClock

/-- n micro-steps. -/
def State.pinSteps : Nat → State → State
  | 0, s => s
  | n + 1, s => State.pinSteps n s.pinStep

end Sys2Proof.Machine
end

