-- ==== Sys2Proof/Machine/Step.lean ====
section
/-! DEFINITION. The machine's step. -/

namespace Sys2Proof.Machine

/-- One step. When the host offers a command and the block is ready (`cmd_valid & cmd_ready`, 20_memory R55), the block
accepts the word and the command runs to completion: `exec` of the command it decodes to, or `raise BadCmd`
(30_encoding R78). In every other state (reset asserted, a command in progress, nothing offered) the step is one
micro-step at pin level, and so it is while the host has a reset timed, which may fall inside the command (log entries 1,
14). -/
def step (s : State) : Host.Outcome State Fault Refusal :=
  if s.cmdValid && s.cmdReady && s.resets.isEmpty then
    match decode s.cmd s.cmdData with
    | .command i =>
      match exec i s with
      | .next t => .next t.completed
      | .fault r => .fault r
      | .refused r => .refused r
    | .bad _ => .next s.raiseBadCmd.completed
  else .next s.pinStep

/-- The state with an instruction offered at the port of an idle block, so that the next step accepts and runs it:
`cmd` is its bits 31:0, `cmd_data` its bits 95:32, every bit from `nbits` up being zero (log entry 16). -/
def State.withFetchWord (s : State) (nbits w : Nat) : State :=
  { s.setBusy false with
    seq := none
    rst := false
    resets := []
    cmdValid := true
    cmd := handshakeCmd (handshakeBits nbits w)
    cmdData := handshakeData (handshakeBits nbits w) }

end Sys2Proof.Machine
end

