-- ==== Sys2Proof/WellFormed.lean ====
section
/-! DEFINITION. Assembler lines and the assembler's refusals (30_encoding R83, R84, 43_sprite_blit R140, R141, R147).
An `Instr` needs no check: the width of every operand is its type. A line of assembler text carries plain numbers,
and this file says which lines the assembler takes. -/

namespace Sys2Proof

/-- One line of assembler (30_encoding R83) or a pseudo-instruction (R84). Numbers are as written; x and y of a
blit are host integers and may be negative (43_sprite_blit R141); a sprite asset is a list of bytes (R140). -/
inductive AsmLine where
  | nop
  | init
  | bcast (reg val : Nat)
  | stage (col val : Nat)
  | wrcol (col val : Nat)
  | wrdot (col row v : Nat)
  | wrall (lcol val : Nat)
  | stblk (off : Nat) (bytes : List Nat)
  | clear
  | flush
  | shl (rot fill : Nat)
  | shr (rot fill : Nat)
  | shu (rot : Nat)
  | shd (rot : Nat)
  | rdcol (col : Nat)
  /-- `SHL rot`, which is `SHL rot, 1` (R84). -/
  | shlDefault (rot : Nat)
  /-- `SHR rot`, which is `SHR rot, 1` (R84). -/
  | shrDefault (rot : Nat)
  /-- `SETREG reg, val`, which is `BCAST reg, val` (R84). -/
  | setreg (reg val : Nat)
  /-- `INTENSITY val`, which is `BCAST INTENSITY, val` with the REGMAP address (R84). -/
  | intensity (val : Nat)
  /-- `BLIT x, y, w, h, asset` (43_sprite_blit R141). -/
  | blit (x y : Int) (w h : Nat) (asset : List Byte)
  /-- `BLITA x, y, asset` (43_sprite_blit R144). -/
  | blita (x y : Int) (asset : List Byte)
  deriving DecidableEq, Repr

/-- A column operand fits COL: not above 4095 (30_encoding R83). -/
def fitsCol (n : Nat) : Bool := decide (n ≤ 4095)

/-- A row operand fits ROW: not above 15 (30_encoding R83). -/
def fitsRow (n : Nat) : Bool := decide (n ≤ 15)

/-- A flag operand is 0 or 1 (30_encoding R83). -/
def fitsFlag (n : Nat) : Bool := decide (n ≤ 1)

/-- A register or value operand fits 8 bits: not above 255 (30_encoding R83). -/
def fitsByte (n : Nat) : Bool := decide (n ≤ 255)

/-- The checks on a blit's dimensions and asset: w in 0..255, h in 0..8, at least 2 + w asset bytes
(43_sprite_blit R141, R147). DESIGN CHOICE: R141 gives w the range 0..255 and no rule says what the assembler does with a
BLIT beyond it; the model refuses the line (log entry 23). Safe: a refused line issues no command. -/
def blitOk (w h : Nat) (asset : List Byte) : Bool :=
  decide (w ≤ 255) && decide (h ≤ panelH) && decide (2 + w ≤ asset.length)

/-- The lines the assembler takes. It does not refuse operands that fit but are out of range for the chain
(30_encoding R83): those reach the block and are clipped. -/
def AsmLine.wellFormed : AsmLine → Bool
  | .nop | .init | .clear | .flush => true
  | .bcast reg val | .setreg reg val => fitsByte reg && fitsByte val
  | .stage col val | .wrcol col val | .wrall col val => fitsCol col && fitsByte val
  | .wrdot col row v => fitsCol col && fitsRow row && fitsFlag v
  | .stblk off bytes => fitsCol off && decide (bytes.length = 8) && bytes.all fitsByte
  | .shl rot fill | .shr rot fill => fitsFlag rot && fitsFlag fill
  | .shu rot | .shd rot | .shlDefault rot | .shrDefault rot => fitsFlag rot
  | .rdcol col => fitsCol col
  | .intensity val => fitsByte val
  | .blit _ _ w h asset => blitOk w h asset
  | .blita _ _ (w :: h :: rest) => blitOk w.toNat h.toNat (w :: h :: rest)
  | .blita _ _ _ => false

end Sys2Proof
end

