-- ==== Sys2Proof/Machine/Assembler.lean ====
section
/-! DEFINITION. The host's assembler: the core lines (30_encoding R83), the pseudo-instructions (R84) and the sprite
blits, which expand into WRCOL and WRDOT (43_sprite_blit R140 to R148). The block itself has no blit command. -/

namespace Sys2Proof.Machine

/-- `0 <= c < bound` as a host integer, and the natural number it then is (43_sprite_blit R145). -/
def clipTo (bound : Nat) (c : Int) : Option Nat := if 0 ≤ c ∧ c < bound then some c.toNat else none

/-- `asset[2+i]`, the bit mask of sprite column i (43_sprite_blit R140). The assembler refuses an asset too short to
hold it (R147). -/
def spriteColumn (asset : List Byte) (i : Nat) : Byte := asset.getD (2 + i) 0

/-- The fast path: one WRCOL per in-range column, the asset byte verbatim (43_sprite_blit R142). -/
def blitFast (total : Nat) (x : Int) (w : Nat) (asset : List Byte) : List Instr :=
  (List.range w).filterMap fun (i : Nat) =>
    (clipTo total (x + (i : Int))).map fun c => .wrcol (BitVec.ofNat 12 c) (spriteColumn asset i)

/-- The general path: one WRDOT per in-range pixel, column-major (43_sprite_blit R143). -/
def blitGeneral (total : Nat) (x y : Int) (w h : Nat) (asset : List Byte) : List Instr :=
  (List.range w).flatMap fun (i : Nat) => (List.range h).filterMap fun (j : Nat) =>
    (clipTo total (x + (i : Int))).bind fun c => (clipTo panelH (y + (j : Int))).map fun r =>
      .wrdot (BitVec.ofNat 12 c) (BitVec.ofNat 4 r) ((spriteColumn asset i).getLsbD j)

/-- BLIT's expansion (43_sprite_blit R141). -/
def expandBlit (total : Nat) (x y : Int) (w h : Nat) (asset : List Byte) : List Instr :=
  if h = panelH ∧ y = 0 then blitFast total x w asset else blitGeneral total x y w h asset

/-- What a line the assembler takes expands to, for a chain of `total` columns with the address map `m`. -/
def expandLine (m : Regmap) (total : Nat) : AsmLine → List Instr
  | .nop => [.nop]
  | .init => [.init]
  | .bcast reg val | .setreg reg val => [.bcast (BitVec.ofNat 8 reg) (BitVec.ofNat 8 val)]
  | .stage col val => [.stage (BitVec.ofNat 12 col) (BitVec.ofNat 8 val)]
  | .wrcol col val => [.wrcol (BitVec.ofNat 12 col) (BitVec.ofNat 8 val)]
  | .wrdot col row v => [.wrdot (BitVec.ofNat 12 col) (BitVec.ofNat 4 row) (v == 1)]
  | .wrall lcol val => [.wrall (BitVec.ofNat 12 lcol) (BitVec.ofNat 8 val)]
  | .stblk off bytes =>
    [.stblk (BitVec.ofNat 12 off) (bytes.foldr (fun b d => (d <<< 8) ||| BitVec.ofNat 64 b) 0)]
  | .clear => [.clear]
  | .flush => [.flush]
  | .shl rot fill => [.shl (rot == 1) (fill == 1)]
  | .shr rot fill => [.shr (rot == 1) (fill == 1)]
  | .shu rot => [.shu (rot == 1)]
  | .shd rot => [.shd (rot == 1)]
  | .rdcol col => [.rdcol (BitVec.ofNat 12 col)]
  | .shlDefault rot => [.shl (rot == 1) true]
  | .shrDefault rot => [.shr (rot == 1) true]
  | .intensity val => [.bcast m.intensity (BitVec.ofNat 8 val)]
  | .blit x y w h asset => expandBlit total x y w h asset
  | .blita x y asset => expandBlit total x y (asset.getD 0 0).toNat (asset.getD 1 0).toNat asset

/-- The assembler: it refuses an ill-formed line (30_encoding R83, 43_sprite_blit R147), and else gives the commands
the host issues, in order. -/
def assemble (m : Regmap) (total : Nat) (line : AsmLine) : Option (List Instr) :=
  if line.wellFormed then some (expandLine m total line) else none

/-- What the host puts on the port for a command. -/
def handshakeOf (i : Instr) : Word × Block := (encode i, encodeData i)

end Sys2Proof.Machine
end

