-- ==== Sys2Proof/Safety.lean ====
section
/-! DEFINITION. The terms claims use: the invariant of the machine, the sync relation, what a list of commands does,
and the counts of bus events. -/

namespace Sys2Proof.Machine

/-- Column c is in sync: the column register that mirrors it holds FB[c] (10_state R35). -/
def State.inSync (s : State) (c : Nat) : Prop :=
  ∃ d, s.dev[deviceOf c]? = some d ∧ d.reg.read (s.colReg (localOf c)).toNat = some (s.fbRead c)

/-- The whole chain is in sync (10_state R35). -/
def State.chainInSync (s : State) : Prop := ∀ c, c < s.total → s.inSync c

/-- What register a of device k holds, if the device is in the chain. -/
def State.devReg (s : State) (k : Nat) (a : Byte) : Option Byte := (s.dev[k]?).bind fun d => d.reg.read a.toNat

/-- An action of a command fits the machine: a frame vector has one entry a device (40_bus_transport R86), a written
cell exists (20_memory R46). -/
def State.actionFits (s : State) : Action → Prop
  | .txn F => F.length = s.deviceCount
  | .fb c _ => c < s.total
  | _ => True

/-- The pins and the sequencer agree on where in a transaction the block is: between transactions CLOCK and LOAD are
high (10_state R30); inside one LOAD is low, SO holds the stream, and CLOCK is low exactly within a bit cell
(40_bus_transport R90). -/
def State.seqFits (s : State) (q : Sequencer) : Prop :=
  (∀ a ∈ q.todo, s.actionFits a) ∧
  match q.phase with
  | .ready => s.clkO = true ∧ s.loadO = true
  | .clockLow => s.clkO = true ∧ s.loadO = false ∧
      (∃ F rest, q.todo = .txn F :: rest ∧ s.so = stream F) ∧ q.bitIndex ≤ 16 * s.deviceCount
  | .data => s.clkO = false ∧ s.loadO = false ∧
      (∃ F rest, q.todo = .txn F :: rest ∧ s.so = stream F) ∧ q.bitIndex < 16 * s.deviceCount
  | .clockHigh => s.clkO = false ∧ s.loadO = false ∧
      (∃ F rest, q.todo = .txn F :: rest ∧ s.so = stream F) ∧ q.bitIndex < 16 * s.deviceCount

/-- The machine is sound: the parameters are in range (00_scope R6), N_EFF lies in 1..MAX_DEVICES (10_state R21),
FB has exactly the cells 0..TOTAL-1 (R23), the chain has N_EFF devices of 256 registers
(R34), BUSY is 1 exactly while a command executes (R28), and the pins are where the sequencer has them (R30). -/
structure State.Sound (s : State) : Prop where
  params : s.params.Wf
  countPos : 1 ≤ s.deviceCount
  countMax : s.deviceCount ≤ s.params.maxDevices
  fbCells : s.fb.addresses = List.range s.total
  chain : s.dev.length = s.deviceCount
  devCells : ∀ d ∈ s.dev, d.reg.addresses = List.range 256
  busySeq : s.busy = s.seq.isSome
  idlePins : s.seq = none → s.clkO = true ∧ s.loadO = true
  seqFits : ∀ q, s.seq = some q → s.seqFits q

/-- The block is ready for a command: no command is executing and `rst` is released. -/
def State.idle (s : State) : Prop := s.seq = none ∧ s.cmdReady = true

/-- The state after a list of commands, each run to completion, if every one answers a next state. -/
def runCommands : List Instr → State → Option State
  | [], s => some s
  | i :: is, s =>
    match exec i s with
    | .next t => runCommands is t
    | .fault _ => none
    | .refused _ => none

/-- Nothing but FB differs (a buffer-only command, 00_scope R17). -/
def State.fbOnly (s t : State) : Prop := t = { s with fb := t.fb }

/-- Nothing but the devices and what the bus shows differs: the pins are back at their idle levels, DATA at the last bit
shifted (10_state R30). -/
def State.busOnly (s t : State) : Prop :=
  t = { s with dev := t.dev, busLog := t.busLog, pinLog := t.pinLog, so := t.so, dataO := t.dataO }

/-- Nothing but FB, the devices and what the bus shows differs. -/
def State.fbAndBusOnly (s t : State) : Prop :=
  t = { s with fb := t.fb, dev := t.dev, busLog := t.busLog, pinLog := t.pinLog, so := t.so, dataO := t.dataO }

/-- The bus shows exactly these transactions more, each with its wave form (40_bus_transport R89 to R91). -/
def State.sent (s t : State) (Fs : List (List Frame)) : Prop :=
  t.busLog = s.busLog ++ Fs ∧ t.pinLog = s.pinLog ++ Fs.flatMap waveform

/-- The frame vectors of one flush of the state's FB, device 0 first in each (41_framebuffer_write R121). -/
def State.flushVectors (s : State) : List (List Frame) :=
  (List.range panelW).map fun lc =>
    (List.range s.deviceCount).map fun k => frame (s.colReg lc) (s.fbRead (k * panelW + lc))

/-- The columns a command brings into sync (70_reset_and_hazards R184, middle column). -/
def bringsIntoSync (s : State) (i : Instr) (c : Nat) : Bool :=
  match i with
  | .wrcol col _ => s.inRange col.toNat && c == col.toNat
  | .wrdot col row _ => s.inRange col.toNat && rowInRange row.toNat && c == col.toNat
  | .wrall lcol _ => localInRange lcol.toNat && localOf c == lcol.toNat
  | .bcast reg val => reg == s.colReg (localOf c) && s.fbRead c == val
  | .init | .clear | .flush | .shl _ _ | .shr _ _ | .shu _ | .shd _ => true
  | .nop | .stage _ _ | .stblk _ _ | .rdcol _ => false

/-- The columns a command may take out of sync (70_reset_and_hazards R184, last column). -/
def mayBreakSync (s : State) (i : Instr) (c : Nat) : Bool :=
  match i with
  | .stage col _ => c == col.toNat
  | .stblk off _ => decide (off.toNat ≤ c) && decide (c < off.toNat + 8)
  | .bcast reg val => reg == s.colReg (localOf c) && s.fbRead c != val
  | .nop | .init | .wrcol _ _ | .wrdot _ _ _ | .wrall _ _ | .clear | .flush | .shl _ _ | .shr _ _ | .shu _ | .shd _
  | .rdcol _ => false

/-- The CLOCK rising edges in a list of pin events, the clock being at `level` before it (40_bus_transport R90). -/
def clockEdges : Bool → List PinEvent → Nat
  | _, [] => 0
  | level, .write .clock b :: es => (if b && !level then 1 else 0) + clockEdges b es
  | level, .reset :: es => (if level then 0 else 1) + clockEdges true es
  | level, _ :: es => clockEdges level es

/-- The LOAD rising edges in a list of pin events, LOAD being at `level` before it (40_bus_transport R90). -/
def loadEdges : Bool → List PinEvent → Nat
  | _, [] => 0
  | level, .write .load b :: es => (if b && !level then 1 else 0) + loadEdges b es
  | level, .reset :: es => (if level then 0 else 1) + loadEdges true es
  | level, _ :: es => loadEdges level es

/-- Every DATA write in a list of pin events happens while CLOCK is low, CLOCK being at `level` before it
(40_bus_transport R90). -/
def dataOnlyWhileClockLow : Bool → List PinEvent → Bool
  | _, [] => true
  | _, .write .clock b :: es => dataOnlyWhileClockLow b es
  | level, .write .data _ :: es => !level && dataOnlyWhileClockLow level es
  | _, .reset :: es => dataOnlyWhileClockLow true es
  | level, .write .load _ :: es => dataOnlyWhileClockLow level es

/-- Every CLOCK rising edge in a list of pin events happens while LOAD is low, CLOCK and LOAD being at `clk` and `load`
before it (40_bus_transport R90, R93). -/
def clockOnlyWhileLoadLow : Bool → Bool → List PinEvent → Bool
  | _, _, [] => true
  | clk, load, .write .clock b :: es => !(b && !clk && load) && clockOnlyWhileLoadLow b load es
  | clk, _, .write .load b :: es => clockOnlyWhileLoadLow clk b es
  | _, _, .reset :: es => clockOnlyWhileLoadLow true true es
  | clk, load, .write .data _ :: es => clockOnlyWhileLoadLow clk load es

/-- The transactions a command performs (70_reset_and_hazards R183). -/
def txnCount (s : State) : Instr → Nat
  | .nop | .stage _ _ | .stblk _ _ | .rdcol _ => 0
  | .bcast _ _ => 1
  | .wrcol col _ => if s.inRange col.toNat then 1 else 0
  | .wrdot col row _ => if s.inRange col.toNat && rowInRange row.toNat then 1 else 0
  | .wrall lcol _ => if localInRange lcol.toNat then 1 else 0
  | .clear | .flush | .shl _ _ | .shr _ _ | .shu _ | .shd _ => 8
  | .init => 13

/-- The level of a pin after a list of pin events, the pin being at `level` before it. Reset brings CLOCK and LOAD to 1 and
DATA to 0 (10_state R30). -/
def levelAfter (p : Pin) : Bool → List PinEvent → Bool
  | level, [] => level
  | level, .write q b :: es => levelAfter p (if q = p then b else level) es
  | _, .reset :: es => levelAfter p (p != .data) es

end Sys2Proof.Machine
end

