-- ==== Sys2Proof/Certificates/Slice0/Obligations.lean ====
section
/-! DEFINITION. The statements for the provers, from the numbered rules of spec/. Each docstring names the rule or the
section it formalises. `s.Sound` is the invariant that StepKeepsSound and ResetIsSound are about; `s.seq = none` says
that no command is executing. -/

open Sys2Proof Sys2Proof.Machine

/-- Some words of 95_test_vectors 2.1 decode as that table says. -/
def Obligations.TableWordsDecode : Prop :=
  decode 0x00000000 0 = .command .nop ∧
  decode 0x00000001 0 = .bad .mustBeZero ∧
  decode 0x20000A05 0 = .command (.bcast 0x0A 0x05) ∧
  decode 0x400090A5 0 = .command (.wrcol 9 0xA5) ∧
  decode 0x58009100 0 = .command (.wrdot 9 1 true) ∧
  decode 0x54000000 0 = .bad .mustBeZero ∧
  decode 0x70006000 0x8877665544332211 = .command (.stblk 6 0x8877665544332211) ∧
  decode 0xA4000000 0 = .command (.shl false true) ∧
  decode 0xC4000000 0 = .bad .mustBeZero ∧
  decode 0xD8000000 0 = .command (.shd true) ∧
  decode 0xF0000000 0 = .bad .reservedOpcode

/-- 30_encoding sections 2 and 3: the word of any command, with any `cmd_data` where the command is not STBLK, decodes to
that command. -/
def Obligations.DecodeOfEncode : Prop :=
  ∀ (i : Instr) (d : Block), (∀ off data, i = .stblk off data → d = data) → decode (encode i) d = .command i

/-- 30_encoding sections 2 and 3: a word that decodes to a command is that command's word, and STBLK's block is
`cmd_data`: no bit of a word is dropped. -/
def Obligations.EncodeOfDecode : Prop :=
  ∀ (w : Word) (d : Block) (i : Instr), decode w d = .command i →
    encode i = w ∧ ∀ off data, i = .stblk off data → data = d

/-- 30_encoding R77, R78: each row of the opcode map, with its fields, and BAD for every word no row matches. -/
def Obligations.DecodeFollowsOpcodeMap : Prop :=
  ∀ (w : Word) (d : Block),
    (w &&& 0xFFFFFFFF = 0x00000000 → decode w d = .command .nop) ∧
    (w &&& 0xFFFFFFFF = 0x10000000 → decode w d = .command .init) ∧
    (w &&& 0xFFFF0000 = 0x20000000 → decode w d = .command (.bcast (w.extractLsb' 8 8) (w.extractLsb' 0 8))) ∧
    (w &&& 0xFF000F00 = 0x30000000 → decode w d = .command (.stage (w.extractLsb' 12 12) (w.extractLsb' 0 8))) ∧
    (w &&& 0xFF000F00 = 0x40000000 → decode w d = .command (.wrcol (w.extractLsb' 12 12) (w.extractLsb' 0 8))) ∧
    (w &&& 0xF70000FF = 0x50000000 →
      decode w d = .command (.wrdot (w.extractLsb' 12 12) (w.extractLsb' 8 4) (w.getLsbD 27))) ∧
    (w &&& 0xFF000F00 = 0x60000000 → decode w d = .command (.wrall (w.extractLsb' 12 12) (w.extractLsb' 0 8))) ∧
    (w &&& 0xFF000FFF = 0x70000000 → decode w d = .command (.stblk (w.extractLsb' 12 12) d)) ∧
    (w &&& 0xFFFFFFFF = 0x80000000 → decode w d = .command .clear) ∧
    (w &&& 0xFFFFFFFF = 0x90000000 → decode w d = .command .flush) ∧
    (w &&& 0xF3FFFFFF = 0xA0000000 → decode w d = .command (.shl (w.getLsbD 27) (w.getLsbD 26))) ∧
    (w &&& 0xF3FFFFFF = 0xB0000000 → decode w d = .command (.shr (w.getLsbD 27) (w.getLsbD 26))) ∧
    (w &&& 0xF7FFFFFF = 0xC0000000 → decode w d = .command (.shu (w.getLsbD 27))) ∧
    (w &&& 0xF7FFFFFF = 0xD0000000 → decode w d = .command (.shd (w.getLsbD 27))) ∧
    (w &&& 0xFF000FFF = 0xE0000000 → decode w d = .command (.rdcol (w.extractLsb' 12 12))) ∧
    (w &&& 0xFFFFFFFF ≠ 0x00000000 ∧ w &&& 0xFFFFFFFF ≠ 0x10000000 ∧ w &&& 0xFFFF0000 ≠ 0x20000000 ∧
      w &&& 0xFF000F00 ≠ 0x30000000 ∧ w &&& 0xFF000F00 ≠ 0x40000000 ∧ w &&& 0xF70000FF ≠ 0x50000000 ∧
      w &&& 0xFF000F00 ≠ 0x60000000 ∧ w &&& 0xFF000FFF ≠ 0x70000000 ∧ w &&& 0xFFFFFFFF ≠ 0x80000000 ∧
      w &&& 0xFFFFFFFF ≠ 0x90000000 ∧ w &&& 0xF3FFFFFF ≠ 0xA0000000 ∧ w &&& 0xF3FFFFFF ≠ 0xB0000000 ∧
      w &&& 0xF7FFFFFF ≠ 0xC0000000 ∧ w &&& 0xF7FFFFFF ≠ 0xD0000000 ∧ w &&& 0xFF000FFF ≠ 0xE0000000 →
      ∃ why, decode w d = .bad why)

/-- 30_encoding section 4: a word with OP = 0xF is BAD as a reserved opcode, and only such a word; so a word with a known
OP is a command, or BAD for a nonzero must-be-zero bit. -/
def Obligations.ReservedOpcodeIsBad : Prop :=
  ∀ (w : Word) (d : Block), decode w d = .bad .reservedOpcode ↔ w.extractLsb' 28 4 = 0xF

/-- 30_encoding R83: the assembler's words, its refusals, and the block data of STBLK. -/
def Obligations.AssemblerWords : Prop :=
  ∀ (m : Regmap) (total : Nat),
    (assemble m total .nop = some [.nop] ∧ encode .nop = 0x00000000) ∧
    (assemble m total .init = some [.init] ∧ encode .init = 0x10000000) ∧
    (∀ reg val, reg ≤ 255 → val ≤ 255 → ∃ i, assemble m total (.bcast reg val) = some [i] ∧
      encode i = 0x20000000 ||| BitVec.ofNat 32 reg <<< 8 ||| BitVec.ofNat 32 val) ∧
    (∀ col val, col ≤ 4095 → val ≤ 255 → ∃ i, assemble m total (.stage col val) = some [i] ∧
      encode i = 0x30000000 ||| BitVec.ofNat 32 col <<< 12 ||| BitVec.ofNat 32 val) ∧
    (∀ col val, col ≤ 4095 → val ≤ 255 → ∃ i, assemble m total (.wrcol col val) = some [i] ∧
      encode i = 0x40000000 ||| BitVec.ofNat 32 col <<< 12 ||| BitVec.ofNat 32 val) ∧
    (∀ col row v, col ≤ 4095 → row ≤ 15 → v ≤ 1 → ∃ i, assemble m total (.wrdot col row v) = some [i] ∧
      encode i =
        0x50000000 ||| BitVec.ofNat 32 v <<< 27 ||| BitVec.ofNat 32 col <<< 12 ||| BitVec.ofNat 32 row <<< 8) ∧
    (∀ lcol val, lcol ≤ 4095 → val ≤ 255 → ∃ i, assemble m total (.wrall lcol val) = some [i] ∧
      encode i = 0x60000000 ||| BitVec.ofNat 32 lcol <<< 12 ||| BitVec.ofNat 32 val) ∧
    (∀ off bytes, off ≤ 4095 → bytes.length = 8 → (∀ b ∈ bytes, b ≤ 255) →
      ∃ i, assemble m total (.stblk off bytes) = some [i] ∧
        encode i = 0x70000000 ||| BitVec.ofNat 32 off <<< 12 ∧
        ∀ k, k < 8 → (encodeData i).extractLsb' (8 * k) 8 = BitVec.ofNat 8 (bytes.getD k 0)) ∧
    (assemble m total .clear = some [.clear] ∧ encode .clear = 0x80000000) ∧
    (assemble m total .flush = some [.flush] ∧ encode .flush = 0x90000000) ∧
    (∀ rot fill, rot ≤ 1 → fill ≤ 1 → ∃ i, assemble m total (.shl rot fill) = some [i] ∧
      encode i = 0xA0000000 ||| BitVec.ofNat 32 rot <<< 27 ||| BitVec.ofNat 32 fill <<< 26) ∧
    (∀ rot fill, rot ≤ 1 → fill ≤ 1 → ∃ i, assemble m total (.shr rot fill) = some [i] ∧
      encode i = 0xB0000000 ||| BitVec.ofNat 32 rot <<< 27 ||| BitVec.ofNat 32 fill <<< 26) ∧
    (∀ rot, rot ≤ 1 → ∃ i, assemble m total (.shu rot) = some [i] ∧
      encode i = 0xC0000000 ||| BitVec.ofNat 32 rot <<< 27) ∧
    (∀ rot, rot ≤ 1 → ∃ i, assemble m total (.shd rot) = some [i] ∧
      encode i = 0xD0000000 ||| BitVec.ofNat 32 rot <<< 27) ∧
    (∀ col, col ≤ 4095 → ∃ i, assemble m total (.rdcol col) = some [i] ∧
      encode i = 0xE0000000 ||| BitVec.ofNat 32 col <<< 12) ∧
    (∀ col val, 4095 < col ∨ 255 < val → assemble m total (.stage col val) = none ∧
      assemble m total (.wrcol col val) = none ∧ assemble m total (.wrall col val) = none) ∧
    (∀ reg val, 255 < reg ∨ 255 < val → assemble m total (.bcast reg val) = none) ∧
    (∀ col row v, 4095 < col ∨ 15 < row ∨ 1 < v → assemble m total (.wrdot col row v) = none) ∧
    (∀ off bytes, 4095 < off ∨ (∃ b ∈ bytes, 255 < b) → assemble m total (.stblk off bytes) = none) ∧
    (∀ rot fill, 1 < rot ∨ 1 < fill → assemble m total (.shl rot fill) = none ∧
      assemble m total (.shr rot fill) = none) ∧
    (∀ rot, 1 < rot → assemble m total (.shu rot) = none ∧ assemble m total (.shd rot) = none) ∧
    (∀ col, 4095 < col → assemble m total (.rdcol col) = none)

/-- 43_sprite_blit R144: BLITA is BLIT with the dimensions of the asset's header. -/
def Obligations.BlitaIsBlitWithHeader : Prop :=
  ∀ (m : Regmap) (total : Nat) (x y : Int) (w h : Byte) (rest : List Byte),
    assemble m total (.blita x y (w :: h :: rest)) = assemble m total (.blit x y w.toNat h.toNat (w :: h :: rest))

/-- 43_sprite_blit sections on clipping (R141, R145): a blit emits only in-range WRCOLs and WRDOTs, and none at all when
x is at or beyond the chain's end. -/
def Obligations.BlitEmitsOnlyInRange : Prop :=
  ∀ (total : Nat) (x y : Int) (w h : Nat) (asset : List Byte), total ≤ 4096 →
    (∀ i ∈ expandBlit total x y w h asset,
      (∃ col val, i = .wrcol col val ∧ col.toNat < total) ∨
      (∃ col row v, i = .wrdot col row v ∧ col.toNat < total ∧ row.toNat < 8)) ∧
    ((total : Int) ≤ x → expandBlit total x y w h asset = [])

/-- 43_sprite_blit R146: FB after a blit, bit by bit, and the columns it leaves in sync. -/
def Obligations.BlitEndState : Prop :=
  ∀ (s : State) (x y : Int) (w h : Nat) (asset : List Byte), s.Sound → s.seq = none → blitOk w h asset = true →
    ∃ t, runCommands (expandBlit s.total x y w h asset) s = some t ∧ s.fbAndBusOnly t ∧
      (∀ c r : Nat, c < s.total → r < 8 → (t.fbRead c).getLsbD r =
        if x ≤ (c : Int) ∧ (c : Int) < x + w ∧ y ≤ (r : Int) ∧ (r : Int) < y + h
        then (asset.getD (2 + ((c : Int) - x).toNat) 0).getLsbD ((r : Int) - y).toNat
        else (s.fbRead c).getLsbD r) ∧
      (s.params.regmap.ColumnsDistinct → ∀ c r : Nat, c < s.total → r < 8 →
        x ≤ (c : Int) ∧ (c : Int) < x + w ∧ y ≤ (r : Int) ∧ (r : Int) < y + h → t.inSync c)

/-- 43_sprite_blit R148: one transaction per in-range column on the fast path, one per in-range pixel on the general
path, and no flush. -/
def Obligations.BlitTransactionCount : Prop :=
  ∀ (s : State) (x y : Int) (w h : Nat) (asset : List Byte), s.Sound → s.seq = none →
    ∃ t, runCommands (expandBlit s.total x y w h asset) s = some t ∧
      t.busLog.length = s.busLog.length +
        if h = 8 ∧ y = 0 then
          ((List.range w).filter fun i : Nat => decide (0 ≤ x + (i : Int) ∧ x + (i : Int) < s.total)).length
        else
          ((List.range w).filter fun i : Nat => decide (0 ≤ x + (i : Int) ∧ x + (i : Int) < s.total)).length *
          ((List.range h).filter fun j : Nat => decide (0 ≤ y + (j : Int) ∧ y + (j : Int) < 8)).length

/-- 10_state R27, and sections 1, 3 and 4 on the ports (R20, R28, R30): the STATUS word is BUSY, CLAMPED, BADCMD, and zero
in bits 15:3; `rsp`, `status`, `n_eff` and the pins show their registers; `cmd_ready` is NOT BUSY while `rst` is released,
and 0 while it is asserted (70_reset_and_hazards R171; that the two rules are read together is the model's, log entry 17). -/
def Obligations.OutputPortsShowRegisters : Prop :=
  (∀ (st : Status), st.word.getLsbD 0 = st.busy ∧ st.word.getLsbD 1 = st.clamped ∧ st.word.getLsbD 2 = st.badCmd ∧
    ∀ i, 3 ≤ i → st.word.getLsbD i = false) ∧
  ∀ (s : State), s.outputs.rsp = s.rsp ∧ s.outputs.status = s.status.word ∧ s.outputs.nEff = s.nEff ∧
    s.outputs.data = s.dataO ∧ s.outputs.clock = s.clkO ∧ s.outputs.load = s.loadO ∧
    (s.rst = false → s.outputs.cmdReady = !s.outputs.status.getLsbD 0) ∧
    (s.rst = true → s.outputs.cmdReady = false)

/-- 00_scope R18: the global column mapping and its inverse. -/
def Obligations.GlobalColumnMapping : Prop :=
  ∀ (k lc : Nat), lc < 8 → globalOf k lc = k * 8 + lc ∧ deviceOf (globalOf k lc) = k ∧ localOf (globalOf k lc) = lc ∧
    ∀ c, globalOf (deviceOf c) (localOf c) = c

/-- 20_memory section 2: a frame is {address, value} and is shifted MSB first: address bit 7 leaves first, value bit 0
last. -/
def Obligations.FrameShiftedAddressFirst : Prop :=
  ∀ (a v : Byte), frameBits (frame a v) =
    [a.getLsbD 7, a.getLsbD 6, a.getLsbD 5, a.getLsbD 4, a.getLsbD 3, a.getLsbD 2, a.getLsbD 1, a.getLsbD 0,
     v.getLsbD 7, v.getLsbD 6, v.getLsbD 5, v.getLsbD 4, v.getLsbD 3, v.getLsbD 2, v.getLsbD 1, v.getLsbD 0]

/-- 40_bus_transport R88: the bit stream of a transaction, bit by bit. -/
def Obligations.StreamIsFarthestFirst : Prop :=
  ∀ (F : List Frame), (stream F).length = 16 * F.length ∧
    ∀ i, i < 16 * F.length → (stream F)[i]? = (F[F.length - 1 - i / 16]?).map fun f => f.getLsbD (15 - i % 16)

/-- 40_bus_transport section 1 (the properties of the wave form, R90): 16·N rising edges of CLOCK and one of LOAD, DATA
written only while CLOCK is low, CLOCK raised only while LOAD is low, LOAD lowered first and raised last, and from CLOCK
and LOAD high at the start both are high at the end. -/
def Obligations.WaveformProperties : Prop :=
  ∀ (F : List Frame), clockEdges true (waveform F) = 16 * F.length ∧ loadEdges true (waveform F) = 1 ∧
    dataOnlyWhileClockLow true (waveform F) = true ∧ clockOnlyWhileLoadLow true true (waveform F) = true ∧
    (waveform F).head? = some (.write .load false) ∧ (waveform F).getLast? = some (.write .load true) ∧
    levelAfter .clock true (waveform F) = true ∧ levelAfter .load true (waveform F) = true

/-- 40_bus_transport R95: after the 16·N CLOCK edges of one transaction every device holds its own frame, whatever the
shift registers held before, so the LOAD edge commits F[k] in device k. -/
def Obligations.ShiftedChainHoldsFrames : Prop :=
  ∀ (noop : Byte) (F : List Frame) (devs : List Device), F.length = devs.length →
    (((stream F).foldl (fun ds b => shiftChain b ds) devs).map Device.sr = F) ∧
    latchChain noop ((stream F).foldl (fun ds b => shiftChain b ds) devs) =
      List.zipWith (fun f d => { d.commit noop f with sr := f }) F devs

/-- 40_bus_transport R94: on the LOAD rising edge every device commits its shift register: the register its address
field names takes the value field, unless the address is NOOP; no other register changes. -/
def Obligations.LoadEdgeCommits : Prop :=
  ∀ (s : State) (k : Nat) (a : Byte) (d : Device), s.loadO = false → s.dev[k]? = some d →
    (s.drivePin .load true).devReg k a =
      if a = d.sr.extractLsb' 8 8 ∧ a ≠ s.params.regmap.noop then some (d.sr.extractLsb' 0 8) else s.devReg k a

/-- 20_memory section 4 (R54): performing a transaction twice leaves the devices as performing it once. -/
def Obligations.TransactionIdempotent : Prop :=
  ∀ (s : State) (F : List Frame), ((s.txn F).txn F).dev = (s.txn F).dev

/-- 20_memory section 4 (R54): at pin level a device register changes only when LOAD rises, reset apart. -/
def Obligations.DeviceRegistersChangeOnlyAtLoadEdge : Prop :=
  ∀ (s : State), s.Sound → s.rst = false → s.pinStep.dev.map Device.reg ≠ s.dev.map Device.reg →
    s.loadO = false ∧ s.pinStep.loadO = true

/-- 40_bus_transport section 3 (R96): NOP completes and changes nothing. -/
def Obligations.NopChangesNothing : Prop := ∀ (s : State), exec .nop s = .next s

/-- 40_bus_transport section 3 (R97): BCAST completes with one broadcast; every device's register REG takes VAL unless
REG is NOOP; FB, RSP and STATUS are not touched. That SO holds the whole stream afterwards is the model's choice (log entry
12). -/
def Obligations.BcastWritesEveryDevice : Prop :=
  ∀ (s : State) (reg val : Byte), s.Sound → s.seq = none →
    ∃ t, exec (.bcast reg val) s = .next t ∧ s.busOnly t ∧
      s.sent t [List.replicate s.deviceCount (frame reg val)] ∧
      t.so = stream (List.replicate s.deviceCount (frame reg val)) ∧ t.dataO = val.getLsbD 0 ∧
      ∀ k a, k < s.deviceCount →
        t.devReg k a = if a = reg ∧ reg ≠ s.params.regmap.noop then some val else s.devReg k a

/-- 40_bus_transport section 3 (R98): INIT completes with its thirteen broadcasts in order and FB all zero; a device
register it does not name is unchanged. -/
def Obligations.InitSendsStartUpSequence : Prop :=
  ∀ (s : State), s.Sound → s.seq = none →
    ∃ t, exec .init s = .next t ∧ s.fbAndBusOnly t ∧
      t.busLog = s.busLog ++ ([(s.params.regmap.scanLimit, 0x07), (s.params.regmap.decodeMode, 0x00),
          (s.params.regmap.shutdown, s.params.regmap.shutdownNormal), (s.params.regmap.test, s.params.regmap.testOff),
          (s.colReg 0, 0x00), (s.colReg 1, 0x00), (s.colReg 2, 0x00), (s.colReg 3, 0x00), (s.colReg 4, 0x00),
          (s.colReg 5, 0x00), (s.colReg 6, 0x00), (s.colReg 7, 0x00),
          (s.params.regmap.intensity, s.params.initIntensity)].map fun e : Byte × Byte =>
            List.replicate s.deviceCount (frame e.1 e.2)) ∧
      (∀ c, t.fb.read c = if c < s.total then some 0x00 else s.fb.read c) ∧
      ∀ k a, a ∉ s.params.regmap.addresses.tail → t.devReg k a = s.devReg k a

/-- 40_bus_transport R99: what the devices and FB hold after INIT, for a REGMAP of distinct addresses. -/
def Obligations.InitConfiguresEveryDevice : Prop :=
  ∀ (s : State), s.Sound → s.seq = none → s.params.regmap.Distinct →
    ∃ t, exec .init s = .next t ∧
      (∀ F ∈ t.busLog.drop s.busLog.length, ∃ f, F = List.replicate s.deviceCount f) ∧
      (∀ k, k < s.deviceCount →
        t.devReg k s.params.regmap.scanLimit = some 0x07 ∧ t.devReg k s.params.regmap.decodeMode = some 0x00 ∧
        t.devReg k s.params.regmap.shutdown = some s.params.regmap.shutdownNormal ∧
        t.devReg k s.params.regmap.test = some s.params.regmap.testOff ∧
        (∀ lc, lc < 8 → t.devReg k (s.colReg lc) = some 0x00) ∧
        t.devReg k s.params.regmap.intensity = some s.params.initIntensity) ∧
      (∀ c, c < s.total → t.fb.read c = some 0x00) ∧ t.chainInSync

/-- 41_framebuffer_write section 1 (R110): STAGE completes, writes its cell when in range, and nothing else: no
transaction, no other cell, no register. -/
def Obligations.StageWritesOneCell : Prop :=
  ∀ (s : State) (col : BitVec 12) (val : Byte),
    ∃ t, exec (.stage col val) s = .next t ∧ s.fbOnly t ∧
      ∀ c, t.fb.read c = if c = col.toNat ∧ col.toNat < s.total then some val else s.fb.read c

/-- 41_framebuffer_write section 1 (R111, R112): WRCOL completes; in range it performs the one targeted transaction,
writes its cell and the column register of the addressed device, and nothing else. -/
def Obligations.WrcolWritesColumnAndDevice : Prop :=
  ∀ (s : State) (col : BitVec 12) (val : Byte), s.Sound → s.seq = none → col.toNat < s.total →
    ∃ t, exec (.wrcol col val) s = .next t ∧ s.fbAndBusOnly t ∧
      s.sent t [(List.range s.deviceCount).map fun k =>
        if k = col.toNat / 8 then frame (s.colReg (col.toNat % 8)) val else frame s.params.regmap.noop 0x00] ∧
      (∀ c, t.fb.read c = if c = col.toNat then some val else s.fb.read c) ∧
      ∀ k a, t.devReg k a =
        if k = col.toNat / 8 ∧ a = s.colReg (col.toNat % 8) ∧ a ≠ s.params.regmap.noop then some val
        else s.devReg k a

/-- 41_framebuffer_write R114: in range, WRDOT makes bit r of FB[c] equal to V and leaves the other bits and every other
cell unchanged. -/
def Obligations.WrdotSetsExactlyOneBit : Prop :=
  ∀ (s : State) (col : BitVec 12) (row : BitVec 4) (v : Bool), col.toNat < s.total → row.toNat < 8 →
    ∃ t, exec (.wrdot col row v) s = .next t ∧ (t.fbRead col.toNat).getLsbD row.toNat = v ∧
      (∀ i, i ≠ row.toNat → (t.fbRead col.toNat).getLsbD i = (s.fbRead col.toNat).getLsbD i) ∧
      ∀ c, c ≠ col.toNat → t.fb.read c = s.fb.read c

/-- 41_framebuffer_write section 1 (R113) and 70_reset_and_hazards R179: in range, WRDOT completes with one targeted
transaction that carries all eight bits of the new FB[c], staged bits among them, and changes nothing but that cell and
that device's column register. -/
def Obligations.WrdotSendsWholeColumn : Prop :=
  ∀ (s : State) (col : BitVec 12) (row : BitVec 4) (v : Bool), s.Sound → s.seq = none →
    col.toNat < s.total → row.toNat < 8 →
    ∃ t, exec (.wrdot col row v) s = .next t ∧ s.fbAndBusOnly t ∧
      s.sent t [(List.range s.deviceCount).map fun k =>
        if k = col.toNat / 8 then frame (s.colReg (col.toNat % 8)) (t.fbRead col.toNat)
        else frame s.params.regmap.noop 0x00] ∧
      (∀ c, c ≠ col.toNat → t.fb.read c = s.fb.read c) ∧
      ∀ k a, t.devReg k a =
        if k = col.toNat / 8 ∧ a = s.colReg (col.toNat % 8) ∧ a ≠ s.params.regmap.noop
        then some (t.fbRead col.toNat) else s.devReg k a

/-- 41_framebuffer_write section 1 (R115, R116): WRALL completes; in range it performs one broadcast, writes the cell
k*8+lc of every device k and no other, and that column register of every device. -/
def Obligations.WrallWritesEveryDevice : Prop :=
  ∀ (s : State) (lcol : BitVec 12) (val : Byte), s.Sound → s.seq = none → lcol.toNat < 8 →
    ∃ t, exec (.wrall lcol val) s = .next t ∧ s.fbAndBusOnly t ∧
      s.sent t [List.replicate s.deviceCount (frame (s.colReg lcol.toNat) val)] ∧
      (∀ k, k < s.deviceCount → t.fb.read (k * 8 + lcol.toNat) = some val) ∧
      (∀ c, (∀ k, k < s.deviceCount → c ≠ k * 8 + lcol.toNat) → t.fb.read c = s.fb.read c) ∧
      ∀ k a, k < s.deviceCount → t.devReg k a =
        if a = s.colReg lcol.toNat ∧ a ≠ s.params.regmap.noop then some val else s.devReg k a

/-- 41_framebuffer_write section 2 (R117, R118): STBLK completes and writes byte i of `cmd_data` to cell off+i for each
of the eight cells below TOTAL, and nothing else. -/
def Obligations.StblkStagesEightCells : Prop :=
  ∀ (s : State) (off : BitVec 12) (data : Block),
    ∃ t, exec (.stblk off data) s = .next t ∧ s.fbOnly t ∧
      ∀ c, t.fb.read c = if off.toNat ≤ c ∧ c < off.toNat + 8 ∧ c < s.total
        then some (data.extractLsb' (8 * (c - off.toNat)) 8) else s.fb.read c

/-- 41_framebuffer_write R120: after CLEAR every FB cell equals 0. -/
def Obligations.ClearZeroesFramebuffer : Prop :=
  ∀ (s : State), ∃ t, exec .clear s = .next t ∧ ∀ c, c < t.total → t.fb.read c = some 0x00

/-- 41_framebuffer_write section 2 (R119): CLEAR completes with eight broadcasts of zero; every column register of every
device is zero, every other device register and every register of the block unchanged. -/
def Obligations.ClearZeroesDevices : Prop :=
  ∀ (s : State), s.Sound → s.seq = none →
    ∃ t, exec .clear s = .next t ∧ s.fbAndBusOnly t ∧
      s.sent t ((List.range 8).map fun lc => List.replicate s.deviceCount (frame (s.colReg lc) 0x00)) ∧
      (∀ c, s.total ≤ c → t.fb.read c = s.fb.read c) ∧
      (∀ k a, a ∉ s.params.regmap.cols.toList → t.devReg k a = s.devReg k a) ∧
      (s.params.regmap.noop ∉ s.params.regmap.cols.toList →
        ∀ k lc, k < s.deviceCount → lc < 8 → t.devReg k (s.colReg lc) = some 0x00)

/-- 41_framebuffer_write section 3 (R121, R122): FLUSH completes with eight multi-device transactions, device k receiving
COL(lc) with FB[k*8+lc]; FB is read, never written; no register but the column registers changes. -/
def Obligations.FlushSendsFramebuffer : Prop :=
  ∀ (s : State), s.Sound → s.seq = none →
    ∃ t, exec .flush s = .next t ∧ s.busOnly t ∧
      s.sent t ((List.range 8).map fun lc => (List.range s.deviceCount).map fun k =>
        frame (s.colReg lc) (s.fbRead (k * 8 + lc))) ∧
      ∀ k a, a ∉ s.params.regmap.cols.toList → t.devReg k a = s.devReg k a

/-- 41_framebuffer_write R123: after FLUSH, DEV[k].REG[COL(lc)] = FB[k*8+lc], where the column addresses are distinct and
none is NOOP. -/
def Obligations.FlushResynchronises : Prop :=
  ∀ (s : State), s.Sound → s.seq = none → s.params.regmap.ColumnsDistinct →
    ∃ t, exec .flush s = .next t ∧ ∀ k lc, k < t.deviceCount → lc < 8 →
      t.devReg k (t.colReg lc) = some (t.fbRead (k * 8 + lc))

/-- 41_framebuffer_write section 3 (R124): RDCOL completes with the cell in RSP, or 0x00 for a column out of range, and
changes nothing else. -/
def Obligations.RdcolReadsCell : Prop :=
  ∀ (s : State) (col : BitVec 12), s.Sound →
    ∃ v, exec (.rdcol col) s = .next { s with rsp := v } ∧
      (col.toNat < s.total → s.fb.read col.toNat = some v) ∧ (s.total ≤ col.toNat → v = 0x00)

/-- 41_framebuffer_write R125: WRCOL, or STAGE, of an in-range column and then RDCOL of it gives RSP = v, and no other FB
cell changes. -/
def Obligations.WriteThenReadReturnsValue : Prop :=
  ∀ (s : State) (col : BitVec 12) (val : Byte), col.toNat < s.total →
    (∃ t, runCommands [.wrcol col val, .rdcol col] s = some t ∧ t.rsp = val ∧
      ∀ c, c ≠ col.toNat → t.fb.read c = s.fb.read c) ∧
    (∃ t, runCommands [.stage col val, .rdcol col] s = some t ∧ t.rsp = val ∧
      ∀ c, c ≠ col.toNat → t.fb.read c = s.fb.read c)

/-- 60_exceptions section 1 (R152): the clipped forms of STAGE, WRCOL, WRDOT and WRALL complete and change nothing. -/
def Obligations.ClippedCommandsDoNothing : Prop :=
  ∀ (s : State) (col : BitVec 12) (row : BitVec 4) (v : Bool) (val : Byte),
    (s.total ≤ col.toNat → exec (.stage col val) s = .next s ∧ exec (.wrcol col val) s = .next s) ∧
    (s.total ≤ col.toNat ∨ 8 ≤ row.toNat → exec (.wrdot col row v) s = .next s) ∧
    (8 ≤ col.toNat → exec (.wrall col val) s = .next s)

/-- 42_transform section on SHL (R130, R131, R133): SHL completes; every column moves one slot toward column 0, the last
takes the evicted column, zero, or its stale value; then one flush of the new FB; nothing else changes. -/
def Obligations.ShlMovesColumnsLeft : Prop :=
  ∀ (s : State) (rot fill : Bool), s.Sound → s.seq = none →
    ∃ t, exec (.shl rot fill) s = .next t ∧ s.fbAndBusOnly t ∧ t.fb.addresses = s.fb.addresses ∧
      (∀ i, i + 1 < s.total → t.fbRead i = s.fbRead (i + 1)) ∧
      (t.fbRead (s.total - 1) = if rot then s.fbRead 0 else if fill then 0x00 else s.fbRead (s.total - 1)) ∧
      s.sent t t.flushVectors ∧ ∀ k a, a ∉ s.params.regmap.cols.toList → t.devReg k a = s.devReg k a

/-- 42_transform section on SHR (R130, R132, R133): the mirror of SHL. -/
def Obligations.ShrMovesColumnsRight : Prop :=
  ∀ (s : State) (rot fill : Bool), s.Sound → s.seq = none →
    ∃ t, exec (.shr rot fill) s = .next t ∧ s.fbAndBusOnly t ∧ t.fb.addresses = s.fb.addresses ∧
      (∀ i, i + 1 < s.total → t.fbRead (i + 1) = s.fbRead i) ∧
      (t.fbRead 0 = if rot then s.fbRead (s.total - 1) else if fill then 0x00 else s.fbRead 0) ∧
      s.sent t t.flushVectors ∧ ∀ k a, a ∉ s.params.regmap.cols.toList → t.devReg k a = s.devReg k a

/-- 42_transform section on SHU (R130, R134, R133): SHU completes; in every column the pixel of row i+1 moves to row i and
the bottom row takes the evicted top pixel, or 0; then one flush of the new FB; nothing else changes. -/
def Obligations.ShuMovesRowsUp : Prop :=
  ∀ (s : State) (rot : Bool), s.Sound → s.seq = none →
    ∃ t, exec (.shu rot) s = .next t ∧ s.fbAndBusOnly t ∧ t.fb.addresses = s.fb.addresses ∧
      (∀ c, c < s.total → (∀ i, i < 7 → (t.fbRead c).getLsbD i = (s.fbRead c).getLsbD (i + 1)) ∧
        (t.fbRead c).getLsbD 7 = (rot && (s.fbRead c).getLsbD 0)) ∧
      s.sent t t.flushVectors ∧ ∀ k a, a ∉ s.params.regmap.cols.toList → t.devReg k a = s.devReg k a

/-- 42_transform section on SHD (R130, R135, R133): the mirror of SHU. -/
def Obligations.ShdMovesRowsDown : Prop :=
  ∀ (s : State) (rot : Bool), s.Sound → s.seq = none →
    ∃ t, exec (.shd rot) s = .next t ∧ s.fbAndBusOnly t ∧ t.fb.addresses = s.fb.addresses ∧
      (∀ c, c < s.total → (∀ i, i < 7 → (t.fbRead c).getLsbD (i + 1) = (s.fbRead c).getLsbD i) ∧
        (t.fbRead c).getLsbD 0 = (rot && (s.fbRead c).getLsbD 7)) ∧
      s.sent t t.flushVectors ∧ ∀ k a, a ∉ s.params.regmap.cols.toList → t.devReg k a = s.devReg k a

/-- 42_transform R139: SHL with ROT = 0 and FILL = 1 sets FB[TOTAL-1] to 0 and FB[i] to old[i+1] for every other i. -/
def Obligations.ShlFillsLastColumnWithZero : Prop :=
  ∀ (s : State), s.Sound → ∃ t, exec (.shl false true) s = .next t ∧ t.fb.read (s.total - 1) = some 0x00 ∧
    ∀ i, i < s.total - 1 → t.fb.read i = s.fb.read (i + 1)

/-- 42_transform R136: the cyclic permutation law of SHL and of SHR, the devices in sync afterwards where the column
addresses are distinct and none is NOOP. -/
def Obligations.CyclicColumnShiftsRestore : Prop :=
  ∀ (s : State) (f : Bool), s.Sound → s.seq = none →
    (∃ t, runCommands (List.replicate s.total (.shl true f)) s = some t ∧ t.fb = s.fb ∧
      (s.params.regmap.ColumnsDistinct → t.chainInSync)) ∧
    (∃ t, runCommands (List.replicate s.total (.shr true f)) s = some t ∧ t.fb = s.fb ∧
      (s.params.regmap.ColumnsDistinct → t.chainInSync))

/-- 42_transform R137: SHU with ROT = 1, performed 8 times, leaves every column as it was, and so does SHD. -/
def Obligations.CyclicRowShiftsRestore : Prop :=
  ∀ (s : State), s.Sound →
    (∃ t, runCommands (List.replicate 8 (.shu true)) s = some t ∧ t.fb = s.fb) ∧
    (∃ t, runCommands (List.replicate 8 (.shd true)) s = some t ∧ t.fb = s.fb)

/-- 42_transform R138: SHL 1 then SHR 1 leaves FB as it was, for any fill flags; so does SHU 1 then SHD 1. -/
def Obligations.OppositeShiftsCancel : Prop :=
  ∀ (s : State) (f f' : Bool), s.Sound →
    (∃ t, runCommands [.shl true f, .shr true f'] s = some t ∧ t.fb = s.fb) ∧
    (∃ t, runCommands [.shu true, .shd true] s = some t ∧ t.fb = s.fb)

/-- 70_reset_and_hazards R184: what each command does to the sync relation. -/
def Obligations.SyncTable : Prop :=
  ∀ (s : State), s.Sound → s.seq = none → s.params.regmap.Distinct → ∀ c, c < s.total →
    (∀ i, ∃ t, exec i s = .next t ∧ (bringsIntoSync s i c = true → t.inSync c) ∧
      (mayBreakSync s i c = false → s.inSync c → t.inSync c)) ∧
    (s.inSync c → s.raiseBadCmd.inSync c)

/-- 70_reset_and_hazards R183: the transactions and the CLOCK rising edges of every command, and none for a BAD word. -/
def Obligations.TransactionCounts : Prop :=
  ∀ (s : State), s.Sound → s.seq = none →
    (∀ i, ∃ t es, exec i s = .next t ∧ t.busLog.length = s.busLog.length + txnCount s i ∧
      t.pinLog = s.pinLog ++ es ∧ clockEdges true es = 16 * s.deviceCount * txnCount s i ∧
      loadEdges true es = txnCount s i) ∧
    s.raiseBadCmd.busLog = s.busLog ∧ s.raiseBadCmd.pinLog = s.pinLog

/-- 10_state R26: RSP is written by RDCOL only; it holds its value until the next RDCOL or reset; its reset value is
0x00. -/
def Obligations.OnlyRdcolWritesRsp : Prop :=
  (∀ (i : Instr) (s : State), ∃ t, exec i s = .next t ∧ (t.rsp ≠ s.rsp → ∃ col, i = .rdcol col)) ∧
  (∀ (s : State), s.pinStep.rsp ≠ s.rsp → s.rst = false →
    ∃ q v rest, s.seq = some q ∧ q.todo = .rsp v :: rest) ∧
  (∀ (s : State), s.applyReset.rsp = 0x00)

/-- 10_state R36 and section 1: a step never changes the configuration, and changes N_EFF and CLAMPED only where reset is
asserted; a micro-step neither. -/
def Obligations.ConfigurationFixed : Prop :=
  ∀ (s : State), s.pinStep.params = s.params ∧
    (s.rst = false → s.pinStep.nEff = s.nEff ∧ s.pinStep.status.clamped = s.status.clamped) ∧
    ∃ t, step s = .next t ∧ t.params = s.params ∧
      (s.rst = false → t.nEff = s.nEff ∧ t.status.clamped = s.status.clamped)

/-- 10_state R29: BADCMD is set by a rejected word; once set it stays set through every later command; only reset clears
it. -/
def Obligations.BadCmdSticky : Prop :=
  (∀ (s : State), s.raiseBadCmd.status.badCmd = true) ∧
  (∀ (s : State), s.status.badCmd = true → s.rst = false →
    s.pinStep.status.badCmd = true ∧ ∃ t, step s = .next t ∧ t.status.badCmd = true) ∧
  (∀ (s : State), s.applyReset.status.badCmd = false)

/-- 60_exceptions section 1 (R150): no command and no step ever stops with a fault or a refusal. -/
def Obligations.NothingFaults : Prop :=
  (∀ (i : Instr) (s : State), ∃ t, exec i s = .next t) ∧ ∀ (s : State), ∃ t, step s = .next t

/-- 30_encoding section 3 and 20_memory R55: when the block is ready and the offered word decodes to a command, the step
is that command's execution, after which the offer is taken and it is the host's turn (log entry 14); a word placed by
withFetchWord is run by the very next step; and while the host has a reset timed (log entry 14) the step is the
acceptance, after which the sequencer holds the command with all its actions to do. -/
def Obligations.StepRunsDecodedCommand : Prop :=
  (∀ (s t : State) (i : Instr), s.rst = false → s.status.busy = false → s.cmdValid = true → s.resets = [] →
    decode s.cmd s.cmdData = .command i → exec i s = .next t → step s = .next t.completed) ∧
  (∀ (s t : State) (i : Instr) (nbits w : Nat), decodeTableWord nbits w = some i →
    exec i (s.withFetchWord nbits w) = .next t → step (s.withFetchWord nbits w) = .next t.completed) ∧
  (∀ (s : State) (i : Instr), s.rst = false → s.status.busy = false → s.seq = none → s.cmdValid = true →
    s.resets ≠ [] → decode s.cmd s.cmdData = .command i →
    ∃ t, step s = .next t ∧ t.seq = some ⟨some i, plan i s, 0, 0, .ready⟩ ∧ t.status.busy = true ∧ t.cmdValid = false)

/-- 60_exceptions section 1 (R151): a BAD word is accepted and completes with BADCMD set and no other effect, the offer
taken and the host given its turn (the model's choice, log entry 14); while the host has a reset timed (log entry 14) the
step is the acceptance, and the one action to do is setting BADCMD. -/
def Obligations.BadWordSetsOnlyBadCmd : Prop :=
  ∀ (s : State) (why : BadCause), s.rst = false → s.status.busy = false → s.cmdValid = true →
    decode s.cmd s.cmdData = .bad why →
    (s.resets = [] →
      step s = .next ({ s with status := { s.status with badCmd := true } } : State).completed) ∧
    (s.resets ≠ [] → s.seq = none →
      ∃ t, step s = .next t ∧ t.seq = some ⟨none, [.badCmd], 0, 0, .ready⟩ ∧ t.status.busy = true)

/-- 20_memory section 5 (R55) and 70_reset_and_hazards R177: while a command executes no other is accepted: a waiting
offer stays on the port unchanged, and the sequencer keeps executing the same command. -/
def Obligations.CommandsDoNotInterleave : Prop :=
  ∀ (s : State) (q : Sequencer), s.seq = some q → s.status.busy = true → s.rst = false →
    ∃ t, step s = .next t ∧ (∀ q', t.seq = some q' → q'.command = q.command) ∧
      (s.cmdValid = true → t.cmdValid = true ∧ t.cmd = s.cmd ∧ t.cmdData = s.cmdData)

/-- 40_bus_transport section 1 (R91), 20_memory R59, 70_reset_and_hazards R182: from a ready block, the pin-level run of an
accepted word completes after finitely many micro-steps in exactly the state the step gives, with BUSY fallen and no
command pending in the sequencer. 10_state section 3 (R28): BUSY is 1 from the acceptance until the last micro-step; of a
word that performs transactions the last micro-step is a LOAD rising edge, and FB, RSP and BADCMD have their final values
before it. The host has no reset timed (log entry 14); that a word with no effect holds BUSY for one micro-step is the
model's choice (log entry 13). -/
def Obligations.PinLevelRefinesCommand : Prop :=
  ∀ (s : State), s.Sound → s.seq = none → s.rst = false → s.cmdValid = true → s.resets = [] →
    ∃ t n, step s = .next t ∧ 1 < n ∧ State.pinSteps n s = t ∧ t.seq = none ∧ t.status.busy = false ∧
      (∀ m, 0 < m → m < n → (State.pinSteps m s).status.busy = true) ∧
      (t.busLog ≠ s.busLog →
        (State.pinSteps (n - 1) s).loadO = false ∧ t.loadO = true ∧ (State.pinSteps (n - 1) s).fb = t.fb ∧
        (State.pinSteps (n - 1) s).rsp = t.rsp ∧ (State.pinSteps (n - 1) s).status.badCmd = t.status.badCmd)

/-- 10_state R37 and 70_reset_and_hazards section 1 (R170, R174): the state after any reset: the block's registers at their
reset values, every FB cell and every device register a free draw. That BUSLOG is kept (log entry 10), that the draws have
one number (log entry 5), and that a device's contents are drawn although the reset does not touch it (log entry 7) are the
model's. -/
def Obligations.ResetState : Prop :=
  ∀ (s : State), s.params.Wf → s.rst = true →
    ∃ t, step s = .next t ∧
      t.deviceCount = min (max s.cfgNdev.toNat 1) s.params.maxDevices ∧
      t.status.busy = false ∧ t.status.clamped = decide (t.deviceCount ≠ s.cfgNdev.toNat) ∧
      t.status.badCmd = false ∧ t.status.word.extractLsb' 3 13 = 0 ∧ t.rsp = 0x00 ∧
      t.fb.addresses = List.range (8 * t.deviceCount) ∧
      (∀ c, c < t.total → t.fb.read c = some (Config.fbDraw s.draws c)) ∧
      t.dataO = false ∧ t.clkO = true ∧ t.loadO = true ∧ t.seq = none ∧ t.so.length = 16 * t.deviceCount ∧
      t.dev.length = t.deviceCount ∧
      (∀ k a, k < t.deviceCount → t.devReg k a = some (Config.regDraw s.draws k a.toNat)) ∧
      t.busLog = s.busLog ∧ t.draws = s.draws + 1

/-- 70_reset_and_hazards section 1 (R173): a reset that cuts a transaction aborts the command, raises LOAD, and makes every
device register and every FB cell a free draw; the cut transaction is not in BUSLOG (this last clause, and the draws'
number, are the model's choice: log entries 10 and 5). -/
def Obligations.ResetCutsTransaction : Prop :=
  ∀ (s : State), s.params.Wf → s.rst = true → s.loadO = false →
    ∃ t, step s = .next t ∧ t.seq = none ∧ t.loadO = true ∧ t.busLog = s.busLog ∧
      (∀ k a, k < t.deviceCount → t.devReg k a = some (Config.regDraw s.draws k a.toNat)) ∧
      (∀ c, c < t.total → t.fb.read c = some (Config.fbDraw s.draws c)) ∧ t.draws = s.draws + 1

/-- The machine after reset is sound (10_state section 8). -/
def Obligations.ResetIsSound : Prop := State.reset.Sound

/-- Every step, command level or pin level, keeps the machine sound (10_state sections 1 to 6, 40_bus_transport
section 1), reset and the host's moves included. -/
def Obligations.StepKeepsSound : Prop :=
  ∀ (s : State), s.Sound → s.pinStep.Sound ∧ ∃ t, step s = .next t ∧ t.Sound

/-- 30_encoding section on the pseudo-instructions (R84) and 43_sprite_blit on the assembler's refusals (R147): what the
pseudo-instructions expand to, and the blits the assembler refuses: an asset shorter than 2 + w, and h above 8. The last
clause, that a BLITA of an asset of fewer than two bytes, which has no header to read, is refused, is the model's, DEDUCED
(log entry 20). -/
def Obligations.PseudoInstructionsAndBlitRefusals : Prop :=
  ∀ (m : Regmap) (total : Nat),
    (∀ rot, assemble m total (.shlDefault rot) = assemble m total (.shl rot 1) ∧
      assemble m total (.shrDefault rot) = assemble m total (.shr rot 1)) ∧
    (∀ rot, rot ≤ 1 → assemble m total (.shlDefault rot) = some [.shl (rot == 1) true] ∧
      assemble m total (.shrDefault rot) = some [.shr (rot == 1) true]) ∧
    (∀ reg val, assemble m total (.setreg reg val) = assemble m total (.bcast reg val)) ∧
    (∀ reg val, reg ≤ 255 → val ≤ 255 →
      assemble m total (.setreg reg val) = some [.bcast (BitVec.ofNat 8 reg) (BitVec.ofNat 8 val)]) ∧
    (∀ val, assemble m total (.intensity val) = assemble m total (.bcast m.intensity.toNat val)) ∧
    (∀ val, val ≤ 255 → assemble m total (.intensity val) = some [.bcast m.intensity (BitVec.ofNat 8 val)]) ∧
    (∀ x y w h asset, w ≤ 255 → h ≤ 8 → 2 + w ≤ asset.length →
      ∃ is, assemble m total (.blit x y w h asset) = some is ∧
        ∀ i ∈ is, (∃ col val, i = .wrcol col val) ∨ ∃ col row v, i = .wrdot col row v) ∧
    (∀ x y (w h : Byte) rest, h.toNat ≤ 8 → w.toNat ≤ rest.length →
      ∃ is, assemble m total (.blita x y (w :: h :: rest)) = some is ∧
        ∀ i ∈ is, (∃ col val, i = .wrcol col val) ∨ ∃ col row v, i = .wrdot col row v) ∧
    (∀ x y w h asset, asset.length < 2 + w ∨ 8 < h → assemble m total (.blit x y w h asset) = none) ∧
    (∀ x y (w h : Byte) rest, rest.length < w.toNat ∨ 8 < h.toNat →
      assemble m total (.blita x y (w :: h :: rest)) = none) ∧
    (∀ x y asset, asset.length < 2 → assemble m total (.blita x y asset) = none)

/-- 60_exceptions section 4 (the host may assert `rst` at any time, R164): whatever the block is doing, a command in
progress or an offer waiting among it, a timed reset whose moment has come is asserted by the step, with its device count;
one whose moment has not come is one micro-step nearer; and the step after it is the reset. The timed resets are the model's
way to say when (log entry 14). -/
def Obligations.HostResetsAtAnyTime : Prop :=
  ∀ (s : State), s.rst = false →
    (∀ ndev rest, s.resets = ⟨0, ndev⟩ :: rest →
      ∃ t, step s = .next t ∧ t.rst = true ∧ t.cfgNdev = ndev ∧ t.resets = rest ∧
        step t = .next t.applyReset.releaseReset ∧ t.outputs.cmdReady = false) ∧
    (∀ k ndev rest, s.resets = ⟨k + 1, ndev⟩ :: rest →
      ∃ t, step s = .next t ∧ t.resets = ⟨k, ndev⟩ :: rest)
end

