-- ==== Sys2Proof/Laws/Memory.lean ====
section
/-! SUPPORT. What the byte arrays do: a read after a write, the canonical form kept, and equality by contents. -/

namespace Sys2Proof.Laws

open Sys2Proof.Machine

@[simp] theorem read_nil (a : Nat) : Memory.read [] a = none := rfl

@[simp] theorem read_cons (b : Nat) (w : Byte) (m : Memory) (a : Nat) :
    Memory.read ((b, w) :: m) a = if a = b then some w else Memory.read m a := rfl

@[simp] theorem addresses_nil : Memory.addresses [] = [] := rfl

@[simp] theorem addresses_cons (b : Nat) (w : Byte) (m : Memory) :
    Memory.addresses ((b, w) :: m) = b :: Memory.addresses m := rfl

theorem read_write_same (m : Memory) (a : Nat) (v : Byte) : (m.write a v).read a = some v := by
  induction m with
  | nil => simp [Memory.write]
  | cons e m ih =>
    obtain ⟨b, w⟩ := e
    simp only [Memory.write]
    split_ifs with h1 h2
    · simp
    · simp
    · simp [h2, ih]

theorem read_write_other (m : Memory) {a c : Nat} (v : Byte) (h : c ≠ a) : (m.write a v).read c = m.read c := by
  induction m with
  | nil => simp [Memory.write, h]
  | cons e m ih =>
    obtain ⟨b, w⟩ := e
    simp only [Memory.write]
    split_ifs with h1 h2
    · simp [h]
    · subst h2; simp [h]
    · simp [ih]

/-- One write, read anywhere. -/
@[simp] theorem read_write (m : Memory) (a c : Nat) (v : Byte) :
    (m.write a v).read c = if c = a then some v else m.read c := by
  split_ifs with h
  · rw [h, read_write_same]
  · exact read_write_other m v h

theorem mem_addresses_write {m : Memory} {a c : Nat} {v : Byte} :
    c ∈ (m.write a v).addresses ↔ c = a ∨ c ∈ m.addresses := by
  induction m with
  | nil => simp [Memory.write]
  | cons e m ih =>
    obtain ⟨b, w⟩ := e
    simp only [Memory.write]
    split_ifs with h1 h2
    · simp
    · subst h2; simp
    · simp [ih]; tauto

/-- A write keeps the canonical form. -/
theorem wf_write {m : Memory} (h : m.wf = true) (a : Nat) (v : Byte) : (m.write a v).wf = true := by
  simp only [Memory.wf, decide_eq_true_eq] at h ⊢
  induction m with
  | nil => simp [Memory.write]
  | cons e m ih =>
    obtain ⟨b, w⟩ := e
    simp only [addresses_cons, List.pairwise_cons] at h
    simp only [Memory.write]
    split_ifs with h1 h2
    · simp only [addresses_cons, List.pairwise_cons, List.mem_cons]
      refine ⟨?_, h⟩
      rintro x (rfl | hx)
      · exact h1
      · exact h1.trans (h.1 x hx)
    · subst h2; simpa using h
    · simp only [addresses_cons, List.pairwise_cons, mem_addresses_write]
      refine ⟨?_, ih h.2⟩
      rintro x (rfl | hx)
      · omega
      · exact h.1 x hx

/-- A write to a listed address of a canonical array leaves the addresses alone. -/
theorem addresses_write_of_mem {m : Memory} (h : m.wf = true) {a : Nat} (ha : a ∈ m.addresses) (v : Byte) :
    (m.write a v).addresses = m.addresses := by
  simp only [Memory.wf, decide_eq_true_eq] at h
  induction m with
  | nil => simp at ha
  | cons e m ih =>
    obtain ⟨b, w⟩ := e
    simp only [addresses_cons, List.pairwise_cons, List.mem_cons] at h ha
    simp only [Memory.write]
    split_ifs with h1 h2
    · rcases ha with rfl | ha
      · omega
      · have := h.1 a ha; omega
    · simp [h2]
    · simp [ih (ha.resolve_left h2) h.2]

@[simp] theorem addresses_ofFn (n : Nat) (f : Nat → Byte) : (Memory.ofFn n f).addresses = List.range n := by
  simp [Memory.ofFn, Memory.addresses, Function.comp_def]

theorem wf_of_addresses_range {m : Memory} {n : Nat} (h : m.addresses = List.range n) : m.wf = true := by
  simp [Memory.wf, h, List.pairwise_lt_range]

theorem wf_ofFn (n : Nat) (f : Nat → Byte) : (Memory.ofFn n f).wf = true :=
  wf_of_addresses_range (addresses_ofFn n f)

/-- In an array of the addresses 0..n-1, a write below n leaves the addresses alone. -/
theorem addresses_write_range {m : Memory} {n : Nat} (h : m.addresses = List.range n) {a : Nat} (ha : a < n) (v : Byte) :
    (m.write a v).addresses = List.range n := by
  rw [addresses_write_of_mem (wf_of_addresses_range h) (by rw [h]; exact List.mem_range.2 ha), h]

theorem read_isSome_iff {m : Memory} {a : Nat} : (m.read a).isSome = true ↔ a ∈ m.addresses := by
  induction m with
  | nil => simp
  | cons e m ih =>
    obtain ⟨b, w⟩ := e
    simp only [read_cons, addresses_cons, List.mem_cons]
    split_ifs with h
    · simp [h]
    · simp [h, ih]

theorem read_eq_none_iff {m : Memory} {a : Nat} : m.read a = none ↔ a ∉ m.addresses := by
  rw [← read_isSome_iff]; cases m.read a <;> simp

@[simp] theorem read_ofFn (n : Nat) (f : Nat → Byte) (a : Nat) :
    (Memory.ofFn n f).read a = if a < n then some (f a) else none := by
  have key : ∀ (l : List Nat), Memory.read (l.map fun a => (a, f a)) a = if a ∈ l then some (f a) else none := by
    intro l
    induction l with
    | nil => simp
    | cons b l ih =>
      simp only [List.map_cons, read_cons, ih, List.mem_cons]
      by_cases h : a = b
      · simp [h]
      · simp [h]
  simpa [Memory.ofFn] using key (List.range n)

/-- Two arrays that list the same addresses, each once, and read the same are equal. -/
theorem memory_ext {m m' : Memory} (h : m.wf = true) (ha : m.addresses = m'.addresses)
    (hr : ∀ a, m.read a = m'.read a) : m = m' := by
  induction m generalizing m' with
  | nil => cases m' with
    | nil => rfl
    | cons e m' => simp [Memory.addresses] at ha
  | cons e m ih =>
    obtain ⟨b, w⟩ := e
    cases m' with
    | nil => simp [Memory.addresses] at ha
    | cons e' m' =>
      obtain ⟨b', w'⟩ := e'
      simp only [addresses_cons, List.cons.injEq] at ha
      obtain ⟨rfl, ha⟩ := ha
      simp only [Memory.wf, decide_eq_true_eq, addresses_cons, List.pairwise_cons] at h
      have hw : w = w' := by simpa using hr b
      subst hw
      have hb : b ∉ Memory.addresses m := fun hm => lt_irrefl _ (h.1 b hm)
      have hb' : b ∉ Memory.addresses m' := ha ▸ hb
      rw [ih (by simp [Memory.wf, h.2]) ha]
      intro a
      by_cases hab : a = b
      · subst hab; rw [read_eq_none_iff.2 hb, read_eq_none_iff.2 hb']
      · simpa [hab] using hr a

end Sys2Proof.Laws
end

