-- ==== Sys2Proof/Laws/Chain.lean ====
section
/-! SUPPORT. Frames, streams, and what one commit, one transaction and a list of transactions do to a device. -/

namespace Sys2Proof.Laws

open Sys2Proof.Machine

@[simp] theorem frameAddress_frame (a v : Byte) : frameAddress (frame a v) = a := by
  apply BitVec.eq_of_getLsbD_eq
  intro i hi
  simp only [frameAddress, frame, BitVec.getLsbD_extractLsb', BitVec.getLsbD_append]
  simp [hi]

@[simp] theorem frameValue_frame (a v : Byte) : frameValue (frame a v) = v := by
  apply BitVec.eq_of_getLsbD_eq
  intro i hi
  simp only [frameValue, frame, BitVec.getLsbD_extractLsb', BitVec.getLsbD_append]
  simp [hi]

@[simp] theorem length_frameBits (f : Frame) : (frameBits f).length = 16 := by simp [frameBits]

@[simp] theorem stream_nil : stream [] = [] := rfl

@[simp] theorem stream_cons (f : Frame) (F : List Frame) : stream (f :: F) = stream F ++ frameBits f := by
  simp [stream]

@[simp] theorem length_stream (F : List Frame) : (stream F).length = 16 * F.length := by
  induction F with
  | nil => rfl
  | cons f F ih => simp [ih]; omega

@[simp] theorem length_shiftChain (b : Bool) (devs : List Device) : (shiftChain b devs).length = devs.length := by
  induction devs generalizing b with
  | nil => rfl
  | cons d ds ih => simp [shiftChain, ih]

/-- A CLOCK edge leaves every device's registers alone. -/
@[simp] theorem shiftChain_regs (b : Bool) (devs : List Device) :
    (shiftChain b devs).map Device.reg = devs.map Device.reg := by
  induction devs generalizing b with
  | nil => rfl
  | cons d ds ih => simp [shiftChain, ih, Device.shift]

@[simp] theorem length_latchChain (noop : Byte) (devs : List Device) : (latchChain noop devs).length = devs.length := by
  simp [latchChain]

@[simp] theorem length_drawChain (epoch n : Nat) : (drawChain epoch n).length = n := by simp [drawChain]

@[simp] theorem length_takeChain (noop : Byte) (F : List Frame) (devs : List Device) :
    (takeChain noop F devs).length = devs.length := by simp [takeChain]

theorem toNat_injective (a b : Byte) : a.toNat = b.toNat ↔ a = b := BitVec.toNat_inj

@[simp] theorem commit_sr (noop : Byte) (f : Frame) (d : Device) : (d.commit noop f).sr = d.sr := by
  unfold Device.commit; split <;> rfl

/-- One commit, one register read (40_bus_transport R94). -/
theorem read_commit (noop : Byte) (f : Frame) (d : Device) (a : Byte) :
    (d.commit noop f).reg.read a.toNat =
      if a = frameAddress f ∧ frameAddress f ≠ noop then some (frameValue f) else d.reg.read a.toNat := by
  unfold Device.commit
  by_cases h : frameAddress f = noop
  · simp [h]
  · simp [h, toNat_injective]

/-- A commit leaves the register addresses alone. -/
theorem addresses_commit (noop : Byte) (f : Frame) {d : Device} (h : d.reg.addresses = List.range 256) :
    (d.commit noop f).reg.addresses = List.range 256 := by
  unfold Device.commit
  split
  · exact h
  · exact addresses_write_range h (frameAddress f).isLt _

@[simp] theorem take_sr (noop : Byte) (f : Frame) (d : Device) : (d.take noop f).sr = f := rfl

theorem read_take (noop : Byte) (f : Frame) (d : Device) (a : Byte) :
    (d.take noop f).reg.read a.toNat =
      if a = frameAddress f ∧ frameAddress f ≠ noop then some (frameValue f) else d.reg.read a.toNat :=
  read_commit noop f d a

/-- What a transaction does to device k. -/
theorem getElem?_takeChain (noop : Byte) (F : List Frame) (devs : List Device) (k : Nat) :
    (takeChain noop F devs)[k]? = (devs[k]?).map fun d => match F[k]? with
      | some f => d.take noop f
      | none => d :=
  List.getElem?_mapIdx

/-- The chain after a list of transactions. -/
def takeChains (noop : Byte) (L : List (List Frame)) (devs : List Device) : List Device :=
  L.foldl (fun ds F => takeChain noop F ds) devs

@[simp] theorem takeChains_nil (noop : Byte) (devs : List Device) : takeChains noop [] devs = devs := rfl

@[simp] theorem takeChains_cons (noop : Byte) (F : List Frame) (L : List (List Frame)) (devs : List Device) :
    takeChains noop (F :: L) devs = takeChains noop L (takeChain noop F devs) := rfl

theorem takeChains_append (noop : Byte) (L L' : List (List Frame)) (devs : List Device) :
    takeChains noop (L ++ L') devs = takeChains noop L' (takeChains noop L devs) := by
  simp [takeChains]

@[simp] theorem length_takeChains (noop : Byte) (L : List (List Frame)) (devs : List Device) :
    (takeChains noop L devs).length = devs.length := by
  induction L generalizing devs with
  | nil => rfl
  | cons F L ih => simp [ih]

/-- A device after the frames of a list of transactions. -/
def takeFrames (noop : Byte) (fs : List Frame) (d : Device) : Device := fs.foldl (fun d f => d.take noop f) d

/-- Device k after a list of transactions has taken its frame of each, in order. -/
theorem getElem?_takeChains (noop : Byte) {L : List (List Frame)} (devs : List Device) (k : Nat) (g : List Frame → Frame)
    (h : ∀ F ∈ L, F[k]? = some (g F)) :
    (takeChains noop L devs)[k]? = (devs[k]?).map (takeFrames noop (L.map g)) := by
  induction L generalizing devs with
  | nil => cases hd : devs[k]? <;> simp [takeFrames, hd]
  | cons F L ih =>
    rw [takeChains_cons, ih _ fun F' hF' => h F' (List.mem_cons_of_mem _ hF'), getElem?_takeChain,
      h F List.mem_cons_self]
    cases devs[k]? <;> simp [takeFrames]

/-- The value a list of frames leaves in register a: that of the last frame that names it, if any does. -/
def lastValue (noop a : Byte) : List Frame → Option Byte → Option Byte
  | [], old => old
  | f :: fs, old => lastValue noop a fs (if a = frameAddress f ∧ frameAddress f ≠ noop then some (frameValue f) else old)

theorem read_takeFrames (noop : Byte) (fs : List Frame) (d : Device) (a : Byte) :
    (takeFrames noop fs d).reg.read a.toNat = lastValue noop a fs (d.reg.read a.toNat) := by
  induction fs generalizing d with
  | nil => rfl
  | cons f fs ih =>
    rw [lastValue, ← read_take]
    exact ih (d.take noop f)

/-- Frames that do not name a register leave it alone. -/
theorem lastValue_of_not_named {noop a : Byte} {fs : List Frame} (h : ∀ f ∈ fs, frameAddress f ≠ a) (old : Option Byte) :
    lastValue noop a fs old = old := by
  induction fs with
  | nil => rfl
  | cons f fs ih =>
    have hf := h f List.mem_cons_self
    simp only [lastValue]
    rw [if_neg (fun hc => hf hc.1.symm)]
    exact ih fun f' hf' => h f' (List.mem_cons_of_mem _ hf')

theorem addresses_takeFrames (noop : Byte) (fs : List Frame) {d : Device} (h : d.reg.addresses = List.range 256) :
    (takeFrames noop fs d).reg.addresses = List.range 256 := by
  induction fs generalizing d with
  | nil => exact h
  | cons f fs ih => exact ih (d := d.take noop f) (addresses_commit noop f h)

/-- A transaction leaves the register addresses of every device alone. -/
theorem addresses_takeChain (noop : Byte) (F : List Frame) {devs : List Device}
    (h : ∀ d ∈ devs, d.reg.addresses = List.range 256) :
    ∀ d ∈ takeChain noop F devs, d.reg.addresses = List.range 256 := by
  intro d hd
  obtain ⟨k, hk⟩ := List.mem_iff_getElem?.1 hd
  rw [getElem?_takeChain] at hk
  obtain ⟨d0, hd0, rfl⟩ := Option.map_eq_some_iff.1 hk
  have h0 := h d0 (List.mem_of_getElem? hd0)
  cases F[k]? with
  | none => exact h0
  | some f => exact addresses_commit noop f h0

end Sys2Proof.Laws
end

