-- ==== Sys2Proof/Laws/Decode.lean ====
section
/-! SUPPORT. The opcode map is unambiguous, and each format's word carries its fields. -/

namespace Sys2Proof.Laws

/-- Two rows cannot both match a word: their patterns differ in a bit both masks look at (30_encoding R78). -/
def rowsApart (r r' : OpRow) : Bool := !((r.pattern ^^^ r'.pattern) &&& (r.mask &&& r'.mask) == 0)

theorem opTable_apart : opTable.Pairwise (fun r r' => rowsApart r r' = true) := by decide

theorem not_both_match {r r' : OpRow} (h : rowsApart r r' = true) (w : Word) (h1 : r.matchesWord w = true) :
    r'.matchesWord w = false := by
  by_contra h2
  simp only [Bool.not_eq_false, OpRow.matchesWord, beq_iff_eq] at h1 h2
  simp only [rowsApart, ← h1, ← h2, Bool.not_eq_true', beq_eq_false_iff_ne, ne_eq] at h
  apply h
  ext i hi
  simp only [BitVec.getElem_and, BitVec.getElem_xor]
  cases w[i] <;> cases r.mask[i] <;> cases r'.mask[i] <;> simp

theorem find_of_apart {l : List OpRow} (hl : l.Pairwise fun r r' => rowsApart r r' = true) {r : OpRow} (hr : r ∈ l)
    {w : Word} (hw : r.matchesWord w = true) : l.find? (fun r => r.matchesWord w) = some r := by
  induction l with
  | nil => simp at hr
  | cons q l ih =>
    rw [List.pairwise_cons] at hl
    rcases List.mem_cons.1 hr with rfl | hr
    · simp [hw]
    · have hq : q.matchesWord w = false := by
        by_contra hc
        rw [Bool.not_eq_false] at hc
        have := not_both_match (hl.1 r hr) w hc
        simp [hw] at this
      simp [hq, ih hl.2 hr]

/-- A word that matches a row decodes by that row, whatever the order of the rows (30_encoding R78). -/
theorem decode_of_row {r : OpRow} (hr : r ∈ opTable) {w : Word} (hw : r.matchesWord w = true) (d : Block) :
    decode w d = .command (r.read w d) := by
  simp [decode, find_of_apart opTable_apart hr hw]

theorem fields_formatB (op : BitVec 4) (reg val : Byte) :
    fieldReg (formatB op reg val) = reg ∧ fieldVal (formatB op reg val) = val := by
  constructor <;> apply BitVec.eq_of_getLsbD_eq <;> intro i hi <;>
    simp only [fieldReg, fieldVal, formatB, BitVec.getLsbD_extractLsb', BitVec.getLsbD_append] <;>
    interval_cases i <;> simp

theorem fields_formatC (op : BitVec 4) (col : BitVec 12) (val : Byte) :
    fieldCol (formatC op col val) = col ∧ fieldVal (formatC op col val) = val := by
  constructor <;> apply BitVec.eq_of_getLsbD_eq <;> intro i hi <;>
    simp only [fieldCol, fieldVal, formatC, BitVec.getLsbD_extractLsb', BitVec.getLsbD_append] <;>
    interval_cases i <;> simp

theorem fields_formatD (op : BitVec 4) (v : Bool) (col : BitVec 12) (row : BitVec 4) :
    fieldCol (formatD op v col row) = col ∧ fieldRow (formatD op v col row) = row ∧ fieldF1 (formatD op v col row) = v := by
  refine ⟨?_, ?_, ?_⟩
  · apply BitVec.eq_of_getLsbD_eq; intro i hi
    simp only [fieldCol, formatD, BitVec.getLsbD_extractLsb', BitVec.getLsbD_append]
    interval_cases i <;> simp
  · apply BitVec.eq_of_getLsbD_eq; intro i hi
    simp only [fieldRow, formatD, BitVec.getLsbD_extractLsb', BitVec.getLsbD_append]
    interval_cases i <;> simp
  · simp only [fieldF1, formatD, BitVec.getLsbD_append]
    cases v <;> simp

theorem fields_formatS (op : BitVec 4) (rot fill : Bool) :
    fieldF1 (formatS op rot fill) = rot ∧ fieldF0 (formatS op rot fill) = fill := by
  constructor <;> simp only [fieldF1, fieldF0, formatS, BitVec.getLsbD_append] <;> cases rot <;> cases fill <;> simp

end Sys2Proof.Laws
end

