-- ==== Sys2Proof/Laws/State.lean ====
section
/-! SUPPORT. One lemma per field per update of the state, each true by rfl, so that no proof unfolds an update. -/

namespace Sys2Proof.Laws

open Sys2Proof.Machine

@[simp] theorem fbWrite_params (s : State) (c : Nat) (v : Byte) : (s.fbWrite c v).params = s.params := rfl
@[simp] theorem fbWrite_rst (s : State) (c : Nat) (v : Byte) : (s.fbWrite c v).rst = s.rst := rfl
@[simp] theorem fbWrite_cfgNdev (s : State) (c : Nat) (v : Byte) : (s.fbWrite c v).cfgNdev = s.cfgNdev := rfl
@[simp] theorem fbWrite_cmdValid (s : State) (c : Nat) (v : Byte) : (s.fbWrite c v).cmdValid = s.cmdValid := rfl
@[simp] theorem fbWrite_cmd (s : State) (c : Nat) (v : Byte) : (s.fbWrite c v).cmd = s.cmd := rfl
@[simp] theorem fbWrite_cmdData (s : State) (c : Nat) (v : Byte) : (s.fbWrite c v).cmdData = s.cmdData := rfl
@[simp] theorem fbWrite_nEff (s : State) (c : Nat) (v : Byte) : (s.fbWrite c v).nEff = s.nEff := rfl
@[simp] theorem fbWrite_status (s : State) (c : Nat) (v : Byte) : (s.fbWrite c v).status = s.status := rfl
@[simp] theorem fbWrite_rsp (s : State) (c : Nat) (v : Byte) : (s.fbWrite c v).rsp = s.rsp := rfl
@[simp] theorem fbWrite_fb (s : State) (c : Nat) (v : Byte) : (s.fbWrite c v).fb = s.fb.write c v := rfl
@[simp] theorem fbWrite_dataO (s : State) (c : Nat) (v : Byte) : (s.fbWrite c v).dataO = s.dataO := rfl
@[simp] theorem fbWrite_clkO (s : State) (c : Nat) (v : Byte) : (s.fbWrite c v).clkO = s.clkO := rfl
@[simp] theorem fbWrite_loadO (s : State) (c : Nat) (v : Byte) : (s.fbWrite c v).loadO = s.loadO := rfl
@[simp] theorem fbWrite_seq (s : State) (c : Nat) (v : Byte) : (s.fbWrite c v).seq = s.seq := rfl
@[simp] theorem fbWrite_so (s : State) (c : Nat) (v : Byte) : (s.fbWrite c v).so = s.so := rfl
@[simp] theorem fbWrite_dev (s : State) (c : Nat) (v : Byte) : (s.fbWrite c v).dev = s.dev := rfl
@[simp] theorem fbWrite_busLog (s : State) (c : Nat) (v : Byte) : (s.fbWrite c v).busLog = s.busLog := rfl
@[simp] theorem fbWrite_pinLog (s : State) (c : Nat) (v : Byte) : (s.fbWrite c v).pinLog = s.pinLog := rfl
@[simp] theorem fbWrite_draws (s : State) (c : Nat) (v : Byte) : (s.fbWrite c v).draws = s.draws := rfl
@[simp] theorem fbWrite_host (s : State) (c : Nat) (v : Byte) : (s.fbWrite c v).host = s.host := rfl
@[simp] theorem fbWrite_resets (s : State) (c : Nat) (v : Byte) : (s.fbWrite c v).resets = s.resets := rfl

@[simp] theorem setRsp_params (s : State) (v : Byte) : (s.setRsp v).params = s.params := rfl
@[simp] theorem setRsp_rst (s : State) (v : Byte) : (s.setRsp v).rst = s.rst := rfl
@[simp] theorem setRsp_cfgNdev (s : State) (v : Byte) : (s.setRsp v).cfgNdev = s.cfgNdev := rfl
@[simp] theorem setRsp_cmdValid (s : State) (v : Byte) : (s.setRsp v).cmdValid = s.cmdValid := rfl
@[simp] theorem setRsp_cmd (s : State) (v : Byte) : (s.setRsp v).cmd = s.cmd := rfl
@[simp] theorem setRsp_cmdData (s : State) (v : Byte) : (s.setRsp v).cmdData = s.cmdData := rfl
@[simp] theorem setRsp_nEff (s : State) (v : Byte) : (s.setRsp v).nEff = s.nEff := rfl
@[simp] theorem setRsp_status (s : State) (v : Byte) : (s.setRsp v).status = s.status := rfl
@[simp] theorem setRsp_rsp (s : State) (v : Byte) : (s.setRsp v).rsp = v := rfl
@[simp] theorem setRsp_fb (s : State) (v : Byte) : (s.setRsp v).fb = s.fb := rfl
@[simp] theorem setRsp_dataO (s : State) (v : Byte) : (s.setRsp v).dataO = s.dataO := rfl
@[simp] theorem setRsp_clkO (s : State) (v : Byte) : (s.setRsp v).clkO = s.clkO := rfl
@[simp] theorem setRsp_loadO (s : State) (v : Byte) : (s.setRsp v).loadO = s.loadO := rfl
@[simp] theorem setRsp_seq (s : State) (v : Byte) : (s.setRsp v).seq = s.seq := rfl
@[simp] theorem setRsp_so (s : State) (v : Byte) : (s.setRsp v).so = s.so := rfl
@[simp] theorem setRsp_dev (s : State) (v : Byte) : (s.setRsp v).dev = s.dev := rfl
@[simp] theorem setRsp_busLog (s : State) (v : Byte) : (s.setRsp v).busLog = s.busLog := rfl
@[simp] theorem setRsp_pinLog (s : State) (v : Byte) : (s.setRsp v).pinLog = s.pinLog := rfl
@[simp] theorem setRsp_draws (s : State) (v : Byte) : (s.setRsp v).draws = s.draws := rfl
@[simp] theorem setRsp_host (s : State) (v : Byte) : (s.setRsp v).host = s.host := rfl
@[simp] theorem setRsp_resets (s : State) (v : Byte) : (s.setRsp v).resets = s.resets := rfl

@[simp] theorem setBusy_params (s : State) (b : Bool) : (s.setBusy b).params = s.params := rfl
@[simp] theorem setBusy_rst (s : State) (b : Bool) : (s.setBusy b).rst = s.rst := rfl
@[simp] theorem setBusy_cfgNdev (s : State) (b : Bool) : (s.setBusy b).cfgNdev = s.cfgNdev := rfl
@[simp] theorem setBusy_cmdValid (s : State) (b : Bool) : (s.setBusy b).cmdValid = s.cmdValid := rfl
@[simp] theorem setBusy_cmd (s : State) (b : Bool) : (s.setBusy b).cmd = s.cmd := rfl
@[simp] theorem setBusy_cmdData (s : State) (b : Bool) : (s.setBusy b).cmdData = s.cmdData := rfl
@[simp] theorem setBusy_nEff (s : State) (b : Bool) : (s.setBusy b).nEff = s.nEff := rfl
@[simp] theorem setBusy_status (s : State) (b : Bool) : (s.setBusy b).status = { s.status with busy := b } := rfl
@[simp] theorem setBusy_rsp (s : State) (b : Bool) : (s.setBusy b).rsp = s.rsp := rfl
@[simp] theorem setBusy_fb (s : State) (b : Bool) : (s.setBusy b).fb = s.fb := rfl
@[simp] theorem setBusy_dataO (s : State) (b : Bool) : (s.setBusy b).dataO = s.dataO := rfl
@[simp] theorem setBusy_clkO (s : State) (b : Bool) : (s.setBusy b).clkO = s.clkO := rfl
@[simp] theorem setBusy_loadO (s : State) (b : Bool) : (s.setBusy b).loadO = s.loadO := rfl
@[simp] theorem setBusy_seq (s : State) (b : Bool) : (s.setBusy b).seq = s.seq := rfl
@[simp] theorem setBusy_so (s : State) (b : Bool) : (s.setBusy b).so = s.so := rfl
@[simp] theorem setBusy_dev (s : State) (b : Bool) : (s.setBusy b).dev = s.dev := rfl
@[simp] theorem setBusy_busLog (s : State) (b : Bool) : (s.setBusy b).busLog = s.busLog := rfl
@[simp] theorem setBusy_pinLog (s : State) (b : Bool) : (s.setBusy b).pinLog = s.pinLog := rfl
@[simp] theorem setBusy_draws (s : State) (b : Bool) : (s.setBusy b).draws = s.draws := rfl
@[simp] theorem setBusy_host (s : State) (b : Bool) : (s.setBusy b).host = s.host := rfl
@[simp] theorem setBusy_resets (s : State) (b : Bool) : (s.setBusy b).resets = s.resets := rfl

@[simp] theorem raiseBadCmd_params (s : State) : (s.raiseBadCmd).params = s.params := rfl
@[simp] theorem raiseBadCmd_rst (s : State) : (s.raiseBadCmd).rst = s.rst := rfl
@[simp] theorem raiseBadCmd_cfgNdev (s : State) : (s.raiseBadCmd).cfgNdev = s.cfgNdev := rfl
@[simp] theorem raiseBadCmd_cmdValid (s : State) : (s.raiseBadCmd).cmdValid = s.cmdValid := rfl
@[simp] theorem raiseBadCmd_cmd (s : State) : (s.raiseBadCmd).cmd = s.cmd := rfl
@[simp] theorem raiseBadCmd_cmdData (s : State) : (s.raiseBadCmd).cmdData = s.cmdData := rfl
@[simp] theorem raiseBadCmd_nEff (s : State) : (s.raiseBadCmd).nEff = s.nEff := rfl
@[simp] theorem raiseBadCmd_status (s : State) : (s.raiseBadCmd).status = { s.status with badCmd := true } := rfl
@[simp] theorem raiseBadCmd_rsp (s : State) : (s.raiseBadCmd).rsp = s.rsp := rfl
@[simp] theorem raiseBadCmd_fb (s : State) : (s.raiseBadCmd).fb = s.fb := rfl
@[simp] theorem raiseBadCmd_dataO (s : State) : (s.raiseBadCmd).dataO = s.dataO := rfl
@[simp] theorem raiseBadCmd_clkO (s : State) : (s.raiseBadCmd).clkO = s.clkO := rfl
@[simp] theorem raiseBadCmd_loadO (s : State) : (s.raiseBadCmd).loadO = s.loadO := rfl
@[simp] theorem raiseBadCmd_seq (s : State) : (s.raiseBadCmd).seq = s.seq := rfl
@[simp] theorem raiseBadCmd_so (s : State) : (s.raiseBadCmd).so = s.so := rfl
@[simp] theorem raiseBadCmd_dev (s : State) : (s.raiseBadCmd).dev = s.dev := rfl
@[simp] theorem raiseBadCmd_busLog (s : State) : (s.raiseBadCmd).busLog = s.busLog := rfl
@[simp] theorem raiseBadCmd_pinLog (s : State) : (s.raiseBadCmd).pinLog = s.pinLog := rfl
@[simp] theorem raiseBadCmd_draws (s : State) : (s.raiseBadCmd).draws = s.draws := rfl
@[simp] theorem raiseBadCmd_host (s : State) : (s.raiseBadCmd).host = s.host := rfl
@[simp] theorem raiseBadCmd_resets (s : State) : (s.raiseBadCmd).resets = s.resets := rfl

@[simp] theorem takeOffer_params (s : State) : (s.takeOffer).params = s.params := rfl
@[simp] theorem takeOffer_rst (s : State) : (s.takeOffer).rst = s.rst := rfl
@[simp] theorem takeOffer_cfgNdev (s : State) : (s.takeOffer).cfgNdev = s.cfgNdev := rfl
@[simp] theorem takeOffer_cmdValid (s : State) : (s.takeOffer).cmdValid = false := rfl
@[simp] theorem takeOffer_cmd (s : State) : (s.takeOffer).cmd = s.cmd := rfl
@[simp] theorem takeOffer_cmdData (s : State) : (s.takeOffer).cmdData = s.cmdData := rfl
@[simp] theorem takeOffer_nEff (s : State) : (s.takeOffer).nEff = s.nEff := rfl
@[simp] theorem takeOffer_status (s : State) : (s.takeOffer).status = s.status := rfl
@[simp] theorem takeOffer_rsp (s : State) : (s.takeOffer).rsp = s.rsp := rfl
@[simp] theorem takeOffer_fb (s : State) : (s.takeOffer).fb = s.fb := rfl
@[simp] theorem takeOffer_dataO (s : State) : (s.takeOffer).dataO = s.dataO := rfl
@[simp] theorem takeOffer_clkO (s : State) : (s.takeOffer).clkO = s.clkO := rfl
@[simp] theorem takeOffer_loadO (s : State) : (s.takeOffer).loadO = s.loadO := rfl
@[simp] theorem takeOffer_seq (s : State) : (s.takeOffer).seq = s.seq := rfl
@[simp] theorem takeOffer_so (s : State) : (s.takeOffer).so = s.so := rfl
@[simp] theorem takeOffer_dev (s : State) : (s.takeOffer).dev = s.dev := rfl
@[simp] theorem takeOffer_busLog (s : State) : (s.takeOffer).busLog = s.busLog := rfl
@[simp] theorem takeOffer_pinLog (s : State) : (s.takeOffer).pinLog = s.pinLog := rfl
@[simp] theorem takeOffer_draws (s : State) : (s.takeOffer).draws = s.draws := rfl
@[simp] theorem takeOffer_host (s : State) : (s.takeOffer).host = s.host := rfl
@[simp] theorem takeOffer_resets (s : State) : (s.takeOffer).resets = s.resets := rfl

@[simp] theorem assertReset_params (s : State) (ndev : BitVec 16) : (s.assertReset ndev).params = s.params := rfl
@[simp] theorem assertReset_rst (s : State) (ndev : BitVec 16) : (s.assertReset ndev).rst = true := rfl
@[simp] theorem assertReset_cfgNdev (s : State) (ndev : BitVec 16) : (s.assertReset ndev).cfgNdev = ndev := rfl
@[simp] theorem assertReset_cmdValid (s : State) (ndev : BitVec 16) : (s.assertReset ndev).cmdValid = s.cmdValid := rfl
@[simp] theorem assertReset_cmd (s : State) (ndev : BitVec 16) : (s.assertReset ndev).cmd = s.cmd := rfl
@[simp] theorem assertReset_cmdData (s : State) (ndev : BitVec 16) : (s.assertReset ndev).cmdData = s.cmdData := rfl
@[simp] theorem assertReset_nEff (s : State) (ndev : BitVec 16) : (s.assertReset ndev).nEff = s.nEff := rfl
@[simp] theorem assertReset_status (s : State) (ndev : BitVec 16) : (s.assertReset ndev).status = s.status := rfl
@[simp] theorem assertReset_rsp (s : State) (ndev : BitVec 16) : (s.assertReset ndev).rsp = s.rsp := rfl
@[simp] theorem assertReset_fb (s : State) (ndev : BitVec 16) : (s.assertReset ndev).fb = s.fb := rfl
@[simp] theorem assertReset_dataO (s : State) (ndev : BitVec 16) : (s.assertReset ndev).dataO = s.dataO := rfl
@[simp] theorem assertReset_clkO (s : State) (ndev : BitVec 16) : (s.assertReset ndev).clkO = s.clkO := rfl
@[simp] theorem assertReset_loadO (s : State) (ndev : BitVec 16) : (s.assertReset ndev).loadO = s.loadO := rfl
@[simp] theorem assertReset_seq (s : State) (ndev : BitVec 16) : (s.assertReset ndev).seq = s.seq := rfl
@[simp] theorem assertReset_so (s : State) (ndev : BitVec 16) : (s.assertReset ndev).so = s.so := rfl
@[simp] theorem assertReset_dev (s : State) (ndev : BitVec 16) : (s.assertReset ndev).dev = s.dev := rfl
@[simp] theorem assertReset_busLog (s : State) (ndev : BitVec 16) : (s.assertReset ndev).busLog = s.busLog := rfl
@[simp] theorem assertReset_pinLog (s : State) (ndev : BitVec 16) : (s.assertReset ndev).pinLog = s.pinLog := rfl
@[simp] theorem assertReset_draws (s : State) (ndev : BitVec 16) : (s.assertReset ndev).draws = s.draws := rfl
@[simp] theorem assertReset_host (s : State) (ndev : BitVec 16) : (s.assertReset ndev).host = s.host := rfl
@[simp] theorem assertReset_resets (s : State) (ndev : BitVec 16) : (s.assertReset ndev).resets = s.resets := rfl

@[simp] theorem releaseReset_params (s : State) : (s.releaseReset).params = s.params := rfl
@[simp] theorem releaseReset_rst (s : State) : (s.releaseReset).rst = false := rfl
@[simp] theorem releaseReset_cfgNdev (s : State) : (s.releaseReset).cfgNdev = s.cfgNdev := rfl
@[simp] theorem releaseReset_cmdValid (s : State) : (s.releaseReset).cmdValid = s.cmdValid := rfl
@[simp] theorem releaseReset_cmd (s : State) : (s.releaseReset).cmd = s.cmd := rfl
@[simp] theorem releaseReset_cmdData (s : State) : (s.releaseReset).cmdData = s.cmdData := rfl
@[simp] theorem releaseReset_nEff (s : State) : (s.releaseReset).nEff = s.nEff := rfl
@[simp] theorem releaseReset_status (s : State) : (s.releaseReset).status = s.status := rfl
@[simp] theorem releaseReset_rsp (s : State) : (s.releaseReset).rsp = s.rsp := rfl
@[simp] theorem releaseReset_fb (s : State) : (s.releaseReset).fb = s.fb := rfl
@[simp] theorem releaseReset_dataO (s : State) : (s.releaseReset).dataO = s.dataO := rfl
@[simp] theorem releaseReset_clkO (s : State) : (s.releaseReset).clkO = s.clkO := rfl
@[simp] theorem releaseReset_loadO (s : State) : (s.releaseReset).loadO = s.loadO := rfl
@[simp] theorem releaseReset_seq (s : State) : (s.releaseReset).seq = s.seq := rfl
@[simp] theorem releaseReset_so (s : State) : (s.releaseReset).so = s.so := rfl
@[simp] theorem releaseReset_dev (s : State) : (s.releaseReset).dev = s.dev := rfl
@[simp] theorem releaseReset_busLog (s : State) : (s.releaseReset).busLog = s.busLog := rfl
@[simp] theorem releaseReset_pinLog (s : State) : (s.releaseReset).pinLog = s.pinLog := rfl
@[simp] theorem releaseReset_draws (s : State) : (s.releaseReset).draws = s.draws := rfl
@[simp] theorem releaseReset_host (s : State) : (s.releaseReset).host = s.host := rfl
@[simp] theorem releaseReset_resets (s : State) : (s.releaseReset).resets = s.resets := rfl

@[simp] theorem havocDev_params (s : State) : (s.havocDev).params = s.params := rfl
@[simp] theorem havocDev_rst (s : State) : (s.havocDev).rst = s.rst := rfl
@[simp] theorem havocDev_cfgNdev (s : State) : (s.havocDev).cfgNdev = s.cfgNdev := rfl
@[simp] theorem havocDev_cmdValid (s : State) : (s.havocDev).cmdValid = s.cmdValid := rfl
@[simp] theorem havocDev_cmd (s : State) : (s.havocDev).cmd = s.cmd := rfl
@[simp] theorem havocDev_cmdData (s : State) : (s.havocDev).cmdData = s.cmdData := rfl
@[simp] theorem havocDev_nEff (s : State) : (s.havocDev).nEff = s.nEff := rfl
@[simp] theorem havocDev_status (s : State) : (s.havocDev).status = s.status := rfl
@[simp] theorem havocDev_rsp (s : State) : (s.havocDev).rsp = s.rsp := rfl
@[simp] theorem havocDev_fb (s : State) : (s.havocDev).fb = s.fb := rfl
@[simp] theorem havocDev_dataO (s : State) : (s.havocDev).dataO = s.dataO := rfl
@[simp] theorem havocDev_clkO (s : State) : (s.havocDev).clkO = s.clkO := rfl
@[simp] theorem havocDev_loadO (s : State) : (s.havocDev).loadO = s.loadO := rfl
@[simp] theorem havocDev_seq (s : State) : (s.havocDev).seq = s.seq := rfl
@[simp] theorem havocDev_so (s : State) : (s.havocDev).so = s.so := rfl
@[simp] theorem havocDev_dev (s : State) : (s.havocDev).dev = drawChain s.draws s.deviceCount := rfl
@[simp] theorem havocDev_busLog (s : State) : (s.havocDev).busLog = s.busLog := rfl
@[simp] theorem havocDev_pinLog (s : State) : (s.havocDev).pinLog = s.pinLog := rfl
@[simp] theorem havocDev_draws (s : State) : (s.havocDev).draws = s.draws + 1 := rfl
@[simp] theorem havocDev_host (s : State) : (s.havocDev).host = s.host := rfl
@[simp] theorem havocDev_resets (s : State) : (s.havocDev).resets = s.resets := rfl

@[simp] theorem loadEdge_params (s : State) : (s.loadEdge).params = s.params := rfl
@[simp] theorem loadEdge_rst (s : State) : (s.loadEdge).rst = s.rst := rfl
@[simp] theorem loadEdge_cfgNdev (s : State) : (s.loadEdge).cfgNdev = s.cfgNdev := rfl
@[simp] theorem loadEdge_cmdValid (s : State) : (s.loadEdge).cmdValid = s.cmdValid := rfl
@[simp] theorem loadEdge_cmd (s : State) : (s.loadEdge).cmd = s.cmd := rfl
@[simp] theorem loadEdge_cmdData (s : State) : (s.loadEdge).cmdData = s.cmdData := rfl
@[simp] theorem loadEdge_nEff (s : State) : (s.loadEdge).nEff = s.nEff := rfl
@[simp] theorem loadEdge_status (s : State) : (s.loadEdge).status = s.status := rfl
@[simp] theorem loadEdge_rsp (s : State) : (s.loadEdge).rsp = s.rsp := rfl
@[simp] theorem loadEdge_fb (s : State) : (s.loadEdge).fb = s.fb := rfl
@[simp] theorem loadEdge_dataO (s : State) : (s.loadEdge).dataO = s.dataO := rfl
@[simp] theorem loadEdge_clkO (s : State) : (s.loadEdge).clkO = s.clkO := rfl
@[simp] theorem loadEdge_loadO (s : State) : (s.loadEdge).loadO = s.loadO := rfl
@[simp] theorem loadEdge_seq (s : State) : (s.loadEdge).seq = s.seq := rfl
@[simp] theorem loadEdge_so (s : State) : (s.loadEdge).so = s.so := rfl
@[simp] theorem loadEdge_dev (s : State) : (s.loadEdge).dev = latchChain s.params.regmap.noop s.dev := rfl
@[simp] theorem loadEdge_busLog (s : State) : (s.loadEdge).busLog = s.busLog := rfl
@[simp] theorem loadEdge_pinLog (s : State) : (s.loadEdge).pinLog = s.pinLog := rfl
@[simp] theorem loadEdge_draws (s : State) : (s.loadEdge).draws = s.draws := rfl
@[simp] theorem loadEdge_host (s : State) : (s.loadEdge).host = s.host := rfl
@[simp] theorem loadEdge_resets (s : State) : (s.loadEdge).resets = s.resets := rfl

@[simp] theorem txn_params (s : State) (F : List Frame) : (s.txn F).params = s.params := rfl
@[simp] theorem txn_rst (s : State) (F : List Frame) : (s.txn F).rst = s.rst := rfl
@[simp] theorem txn_cfgNdev (s : State) (F : List Frame) : (s.txn F).cfgNdev = s.cfgNdev := rfl
@[simp] theorem txn_cmdValid (s : State) (F : List Frame) : (s.txn F).cmdValid = s.cmdValid := rfl
@[simp] theorem txn_cmd (s : State) (F : List Frame) : (s.txn F).cmd = s.cmd := rfl
@[simp] theorem txn_cmdData (s : State) (F : List Frame) : (s.txn F).cmdData = s.cmdData := rfl
@[simp] theorem txn_nEff (s : State) (F : List Frame) : (s.txn F).nEff = s.nEff := rfl
@[simp] theorem txn_status (s : State) (F : List Frame) : (s.txn F).status = s.status := rfl
@[simp] theorem txn_rsp (s : State) (F : List Frame) : (s.txn F).rsp = s.rsp := rfl
@[simp] theorem txn_fb (s : State) (F : List Frame) : (s.txn F).fb = s.fb := rfl
@[simp] theorem txn_dataO (s : State) (F : List Frame) : (s.txn F).dataO = (stream F).getLast?.getD s.dataO := rfl
@[simp] theorem txn_clkO (s : State) (F : List Frame) : (s.txn F).clkO = true := rfl
@[simp] theorem txn_loadO (s : State) (F : List Frame) : (s.txn F).loadO = true := rfl
@[simp] theorem txn_seq (s : State) (F : List Frame) : (s.txn F).seq = s.seq := rfl
@[simp] theorem txn_so (s : State) (F : List Frame) : (s.txn F).so = stream F := rfl
@[simp] theorem txn_dev (s : State) (F : List Frame) : (s.txn F).dev = takeChain s.params.regmap.noop F s.dev := rfl
@[simp] theorem txn_busLog (s : State) (F : List Frame) : (s.txn F).busLog = s.busLog ++ [F] := rfl
@[simp] theorem txn_pinLog (s : State) (F : List Frame) : (s.txn F).pinLog = s.pinLog ++ waveform F := rfl
@[simp] theorem txn_draws (s : State) (F : List Frame) : (s.txn F).draws = s.draws := rfl
@[simp] theorem txn_host (s : State) (F : List Frame) : (s.txn F).host = s.host := rfl
@[simp] theorem txn_resets (s : State) (F : List Frame) : (s.txn F).resets = s.resets := rfl

theorem deviceCount_def (s : State) : s.nEff.toNat = s.deviceCount := rfl

@[simp] theorem fbWrite_deviceCount (s : State) (c : Nat) (v : Byte) : (s.fbWrite c v).deviceCount = s.deviceCount := rfl
@[simp] theorem fbWrite_total (s : State) (c : Nat) (v : Byte) : (s.fbWrite c v).total = s.total := rfl

@[simp] theorem setRsp_deviceCount (s : State) (v : Byte) : (s.setRsp v).deviceCount = s.deviceCount := rfl
@[simp] theorem setRsp_total (s : State) (v : Byte) : (s.setRsp v).total = s.total := rfl

@[simp] theorem setBusy_deviceCount (s : State) (b : Bool) : (s.setBusy b).deviceCount = s.deviceCount := rfl
@[simp] theorem setBusy_total (s : State) (b : Bool) : (s.setBusy b).total = s.total := rfl

@[simp] theorem raiseBadCmd_deviceCount (s : State) : (s.raiseBadCmd).deviceCount = s.deviceCount := rfl
@[simp] theorem raiseBadCmd_total (s : State) : (s.raiseBadCmd).total = s.total := rfl

@[simp] theorem takeOffer_deviceCount (s : State) : (s.takeOffer).deviceCount = s.deviceCount := rfl
@[simp] theorem takeOffer_total (s : State) : (s.takeOffer).total = s.total := rfl

@[simp] theorem assertReset_deviceCount (s : State) (ndev : BitVec 16) : (s.assertReset ndev).deviceCount = s.deviceCount := rfl
@[simp] theorem assertReset_total (s : State) (ndev : BitVec 16) : (s.assertReset ndev).total = s.total := rfl

@[simp] theorem releaseReset_deviceCount (s : State) : (s.releaseReset).deviceCount = s.deviceCount := rfl
@[simp] theorem releaseReset_total (s : State) : (s.releaseReset).total = s.total := rfl

@[simp] theorem havocDev_deviceCount (s : State) : (s.havocDev).deviceCount = s.deviceCount := rfl
@[simp] theorem havocDev_total (s : State) : (s.havocDev).total = s.total := rfl

@[simp] theorem loadEdge_deviceCount (s : State) : (s.loadEdge).deviceCount = s.deviceCount := rfl
@[simp] theorem loadEdge_total (s : State) : (s.loadEdge).total = s.total := rfl

@[simp] theorem txn_deviceCount (s : State) (F : List Frame) : (s.txn F).deviceCount = s.deviceCount := rfl
@[simp] theorem txn_total (s : State) (F : List Frame) : (s.txn F).total = s.total := rfl

@[simp] theorem clockEdge_params (s : State) : (s.clockEdge).params = s.params := by
  unfold State.clockEdge; split <;> rfl
@[simp] theorem clockEdge_rst (s : State) : (s.clockEdge).rst = s.rst := by
  unfold State.clockEdge; split <;> rfl
@[simp] theorem clockEdge_cfgNdev (s : State) : (s.clockEdge).cfgNdev = s.cfgNdev := by
  unfold State.clockEdge; split <;> rfl
@[simp] theorem clockEdge_cmdValid (s : State) : (s.clockEdge).cmdValid = s.cmdValid := by
  unfold State.clockEdge; split <;> rfl
@[simp] theorem clockEdge_cmd (s : State) : (s.clockEdge).cmd = s.cmd := by
  unfold State.clockEdge; split <;> rfl
@[simp] theorem clockEdge_cmdData (s : State) : (s.clockEdge).cmdData = s.cmdData := by
  unfold State.clockEdge; split <;> rfl
@[simp] theorem clockEdge_nEff (s : State) : (s.clockEdge).nEff = s.nEff := by
  unfold State.clockEdge; split <;> rfl
@[simp] theorem clockEdge_status (s : State) : (s.clockEdge).status = s.status := by
  unfold State.clockEdge; split <;> rfl
@[simp] theorem clockEdge_rsp (s : State) : (s.clockEdge).rsp = s.rsp := by
  unfold State.clockEdge; split <;> rfl
@[simp] theorem clockEdge_fb (s : State) : (s.clockEdge).fb = s.fb := by
  unfold State.clockEdge; split <;> rfl
@[simp] theorem clockEdge_seq (s : State) : (s.clockEdge).seq = s.seq := by
  unfold State.clockEdge; split <;> rfl
@[simp] theorem clockEdge_so (s : State) : (s.clockEdge).so = s.so := by
  unfold State.clockEdge; split <;> rfl
@[simp] theorem clockEdge_busLog (s : State) : (s.clockEdge).busLog = s.busLog := by
  unfold State.clockEdge; split <;> rfl
@[simp] theorem clockEdge_host (s : State) : (s.clockEdge).host = s.host := by
  unfold State.clockEdge; split <;> rfl
@[simp] theorem clockEdge_resets (s : State) : (s.clockEdge).resets = s.resets := by
  unfold State.clockEdge; split <;> rfl
@[simp] theorem clockEdge_dataO (s : State) : (s.clockEdge).dataO = s.dataO := by
  unfold State.clockEdge; split <;> rfl
@[simp] theorem clockEdge_clkO (s : State) : (s.clockEdge).clkO = s.clkO := by
  unfold State.clockEdge; split <;> rfl
@[simp] theorem clockEdge_loadO (s : State) : (s.clockEdge).loadO = s.loadO := by
  unfold State.clockEdge; split <;> rfl
@[simp] theorem clockEdge_pinLog (s : State) : (s.clockEdge).pinLog = s.pinLog := by
  unfold State.clockEdge; split <;> rfl

@[simp] theorem drivePin_params (s : State) (p : Pin) (b : Bool) : (s.drivePin p b).params = s.params := by
  cases p <;> simp only [State.drivePin] <;> (try split) <;> simp
@[simp] theorem drivePin_rst (s : State) (p : Pin) (b : Bool) : (s.drivePin p b).rst = s.rst := by
  cases p <;> simp only [State.drivePin] <;> (try split) <;> simp
@[simp] theorem drivePin_cfgNdev (s : State) (p : Pin) (b : Bool) : (s.drivePin p b).cfgNdev = s.cfgNdev := by
  cases p <;> simp only [State.drivePin] <;> (try split) <;> simp
@[simp] theorem drivePin_cmdValid (s : State) (p : Pin) (b : Bool) : (s.drivePin p b).cmdValid = s.cmdValid := by
  cases p <;> simp only [State.drivePin] <;> (try split) <;> simp
@[simp] theorem drivePin_cmd (s : State) (p : Pin) (b : Bool) : (s.drivePin p b).cmd = s.cmd := by
  cases p <;> simp only [State.drivePin] <;> (try split) <;> simp
@[simp] theorem drivePin_cmdData (s : State) (p : Pin) (b : Bool) : (s.drivePin p b).cmdData = s.cmdData := by
  cases p <;> simp only [State.drivePin] <;> (try split) <;> simp
@[simp] theorem drivePin_nEff (s : State) (p : Pin) (b : Bool) : (s.drivePin p b).nEff = s.nEff := by
  cases p <;> simp only [State.drivePin] <;> (try split) <;> simp
@[simp] theorem drivePin_status (s : State) (p : Pin) (b : Bool) : (s.drivePin p b).status = s.status := by
  cases p <;> simp only [State.drivePin] <;> (try split) <;> simp
@[simp] theorem drivePin_rsp (s : State) (p : Pin) (b : Bool) : (s.drivePin p b).rsp = s.rsp := by
  cases p <;> simp only [State.drivePin] <;> (try split) <;> simp
@[simp] theorem drivePin_fb (s : State) (p : Pin) (b : Bool) : (s.drivePin p b).fb = s.fb := by
  cases p <;> simp only [State.drivePin] <;> (try split) <;> simp
@[simp] theorem drivePin_seq (s : State) (p : Pin) (b : Bool) : (s.drivePin p b).seq = s.seq := by
  cases p <;> simp only [State.drivePin] <;> (try split) <;> simp
@[simp] theorem drivePin_so (s : State) (p : Pin) (b : Bool) : (s.drivePin p b).so = s.so := by
  cases p <;> simp only [State.drivePin] <;> (try split) <;> simp
@[simp] theorem drivePin_busLog (s : State) (p : Pin) (b : Bool) : (s.drivePin p b).busLog = s.busLog := by
  cases p <;> simp only [State.drivePin] <;> (try split) <;> simp
@[simp] theorem drivePin_host (s : State) (p : Pin) (b : Bool) : (s.drivePin p b).host = s.host := by
  cases p <;> simp only [State.drivePin] <;> (try split) <;> simp
@[simp] theorem drivePin_resets (s : State) (p : Pin) (b : Bool) : (s.drivePin p b).resets = s.resets := by
  cases p <;> simp only [State.drivePin] <;> (try split) <;> simp
@[simp] theorem drivePin_pinLog (s : State) (p : Pin) (b : Bool) :
    (s.drivePin p b).pinLog = s.pinLog ++ [PinEvent.write p b] := by
  cases p <;> simp only [State.drivePin] <;> (try split) <;> simp_all
@[simp] theorem drivePin_dataO (s : State) (p : Pin) (b : Bool) :
    (s.drivePin p b).dataO = if p = .data then b else s.dataO := by
  cases p <;> simp only [State.drivePin] <;> (try split) <;> simp_all
@[simp] theorem drivePin_clkO (s : State) (p : Pin) (b : Bool) :
    (s.drivePin p b).clkO = if p = .clock then b else s.clkO := by
  cases p <;> simp only [State.drivePin] <;> (try split) <;> simp_all
@[simp] theorem drivePin_loadO (s : State) (p : Pin) (b : Bool) :
    (s.drivePin p b).loadO = if p = .load then b else s.loadO := by
  cases p <;> simp only [State.drivePin] <;> (try split) <;> simp_all
@[simp] theorem drivePin_deviceCount (s : State) (p : Pin) (b : Bool) : (s.drivePin p b).deviceCount = s.deviceCount := by
  simp [State.deviceCount]
@[simp] theorem drivePin_total (s : State) (p : Pin) (b : Bool) : (s.drivePin p b).total = s.total := by
  simp [State.total]

@[simp] theorem hostTurn_params (s : State) : s.hostTurn.params = s.params := by
  unfold State.hostTurn; split <;> [rfl; (split <;> rfl)]
@[simp] theorem hostTurn_nEff (s : State) : s.hostTurn.nEff = s.nEff := by
  unfold State.hostTurn; split <;> [rfl; (split <;> rfl)]
@[simp] theorem hostTurn_status (s : State) : s.hostTurn.status = s.status := by
  unfold State.hostTurn; split <;> [rfl; (split <;> rfl)]
@[simp] theorem hostTurn_rsp (s : State) : s.hostTurn.rsp = s.rsp := by
  unfold State.hostTurn; split <;> [rfl; (split <;> rfl)]
@[simp] theorem hostTurn_fb (s : State) : s.hostTurn.fb = s.fb := by
  unfold State.hostTurn; split <;> [rfl; (split <;> rfl)]
@[simp] theorem hostTurn_dataO (s : State) : s.hostTurn.dataO = s.dataO := by
  unfold State.hostTurn; split <;> [rfl; (split <;> rfl)]
@[simp] theorem hostTurn_clkO (s : State) : s.hostTurn.clkO = s.clkO := by
  unfold State.hostTurn; split <;> [rfl; (split <;> rfl)]
@[simp] theorem hostTurn_loadO (s : State) : s.hostTurn.loadO = s.loadO := by
  unfold State.hostTurn; split <;> [rfl; (split <;> rfl)]
@[simp] theorem hostTurn_seq (s : State) : s.hostTurn.seq = s.seq := by
  unfold State.hostTurn; split <;> [rfl; (split <;> rfl)]
@[simp] theorem hostTurn_so (s : State) : s.hostTurn.so = s.so := by
  unfold State.hostTurn; split <;> [rfl; (split <;> rfl)]
@[simp] theorem hostTurn_dev (s : State) : s.hostTurn.dev = s.dev := by
  unfold State.hostTurn; split <;> [rfl; (split <;> rfl)]
@[simp] theorem hostTurn_busLog (s : State) : s.hostTurn.busLog = s.busLog := by
  unfold State.hostTurn; split <;> [rfl; (split <;> rfl)]
@[simp] theorem hostTurn_pinLog (s : State) : s.hostTurn.pinLog = s.pinLog := by
  unfold State.hostTurn; split <;> [rfl; (split <;> rfl)]
@[simp] theorem hostTurn_draws (s : State) : s.hostTurn.draws = s.draws := by
  unfold State.hostTurn; split <;> [rfl; (split <;> rfl)]
@[simp] theorem hostTurn_resets (s : State) : s.hostTurn.resets = s.resets := by
  unfold State.hostTurn; split <;> [rfl; (split <;> rfl)]
@[simp] theorem hostTurn_deviceCount (s : State) : s.hostTurn.deviceCount = s.deviceCount := by
  simp [State.deviceCount]
@[simp] theorem hostTurn_total (s : State) : s.hostTurn.total = s.total := by
  simp [State.deviceCount, State.total]

/-- A waiting offer stays on the port through the host's turn. -/
theorem hostTurn_of_valid {s : State} (h : s.cmdValid = true) : s.hostTurn = s := by
  simp [State.hostTurn, h]

@[simp] theorem resetClock_params (s : State) : s.resetClock.params = s.params := by
  unfold State.resetClock; split <;> rfl
@[simp] theorem resetClock_cmdValid (s : State) : s.resetClock.cmdValid = s.cmdValid := by
  unfold State.resetClock; split <;> rfl
@[simp] theorem resetClock_cmd (s : State) : s.resetClock.cmd = s.cmd := by
  unfold State.resetClock; split <;> rfl
@[simp] theorem resetClock_cmdData (s : State) : s.resetClock.cmdData = s.cmdData := by
  unfold State.resetClock; split <;> rfl
@[simp] theorem resetClock_nEff (s : State) : s.resetClock.nEff = s.nEff := by
  unfold State.resetClock; split <;> rfl
@[simp] theorem resetClock_status (s : State) : s.resetClock.status = s.status := by
  unfold State.resetClock; split <;> rfl
@[simp] theorem resetClock_rsp (s : State) : s.resetClock.rsp = s.rsp := by
  unfold State.resetClock; split <;> rfl
@[simp] theorem resetClock_fb (s : State) : s.resetClock.fb = s.fb := by
  unfold State.resetClock; split <;> rfl
@[simp] theorem resetClock_dataO (s : State) : s.resetClock.dataO = s.dataO := by
  unfold State.resetClock; split <;> rfl
@[simp] theorem resetClock_clkO (s : State) : s.resetClock.clkO = s.clkO := by
  unfold State.resetClock; split <;> rfl
@[simp] theorem resetClock_loadO (s : State) : s.resetClock.loadO = s.loadO := by
  unfold State.resetClock; split <;> rfl
@[simp] theorem resetClock_seq (s : State) : s.resetClock.seq = s.seq := by
  unfold State.resetClock; split <;> rfl
@[simp] theorem resetClock_so (s : State) : s.resetClock.so = s.so := by
  unfold State.resetClock; split <;> rfl
@[simp] theorem resetClock_dev (s : State) : s.resetClock.dev = s.dev := by
  unfold State.resetClock; split <;> rfl
@[simp] theorem resetClock_busLog (s : State) : s.resetClock.busLog = s.busLog := by
  unfold State.resetClock; split <;> rfl
@[simp] theorem resetClock_pinLog (s : State) : s.resetClock.pinLog = s.pinLog := by
  unfold State.resetClock; split <;> rfl
@[simp] theorem resetClock_draws (s : State) : s.resetClock.draws = s.draws := by
  unfold State.resetClock; split <;> rfl
@[simp] theorem resetClock_host (s : State) : s.resetClock.host = s.host := by
  unfold State.resetClock; split <;> rfl
@[simp] theorem resetClock_deviceCount (s : State) : s.resetClock.deviceCount = s.deviceCount := by
  simp [State.deviceCount]
@[simp] theorem resetClock_total (s : State) : s.resetClock.total = s.total := by
  simp [State.total]

/-- Without a timed reset the clock of the timed resets changes nothing. -/
@[simp] theorem resetClock_of_nil {s : State} (h : s.resets = []) : s.resetClock = s := by
  simp [State.resetClock, h]

/-- A timed reset whose moment has come is asserted. -/
theorem resetClock_of_due {s : State} {ndev : BitVec 16} {rest : List TimedReset} (h : s.resets = ⟨0, ndev⟩ :: rest) :
    s.resetClock = { s.assertReset ndev with resets := rest } := by
  simp [State.resetClock, h]

/-- A timed reset whose moment has not come is one micro-step nearer. -/
theorem resetClock_of_later {s : State} {k : Nat} {ndev : BitVec 16} {rest : List TimedReset}
    (h : s.resets = ⟨k + 1, ndev⟩ :: rest) : s.resetClock = { s with resets := ⟨k, ndev⟩ :: rest } := by
  simp [State.resetClock, h]

/-- FB right after reset is in canonical form. -/
theorem reset_fb_wf : State.reset.fb.wf = true := wf_ofFn _ _

/-- Every device's registers right after reset are in canonical form. -/
theorem reset_dev_wf : ∀ d ∈ State.reset.dev, d.reg.wf = true := by
  intro d hd
  obtain ⟨k, -, rfl⟩ := List.mem_map.1 hd
  exact wf_ofFn _ _

end Sys2Proof.Laws
end

