-- ==== Sys2Proof/Laws/Ops.lean ====
section
/-! SUPPORT. What performing a list of actions does, once for all commands: the parts of the list that reach FB, the
bus, RSP and the pins, and the one lemma that says everything (perform_eq). -/

namespace Sys2Proof.Laws

open Sys2Proof.Machine

@[simp] theorem perform_nil (s : State) : s.perform [] = s := rfl

@[simp] theorem perform_cons (s : State) (a : Action) (as : List Action) :
    s.perform (a :: as) = (s.act a).perform as := rfl

theorem perform_append (s : State) (as bs : List Action) : s.perform (as ++ bs) = (s.perform as).perform bs := by
  simp [State.perform]

/-- The FB writes of a list of actions, in order. -/
def fbPart : List Action → List (Nat × Byte)
  | [] => []
  | .fb c v :: as => (c, v) :: fbPart as
  | _ :: as => fbPart as

/-- The frame vectors of a list of actions, in order. -/
def txnPart : List Action → List (List Frame)
  | [] => []
  | .txn F :: as => F :: txnPart as
  | _ :: as => txnPart as

/-- The pin events of a list of actions done by a block at rest, in order. -/
def pinPart : List Action → List PinEvent
  | [] => []
  | .txn F :: as => waveform F ++ pinPart as
  | .clockHigh :: as => .write .clock true :: pinPart as
  | _ :: as => pinPart as

/-- RSP after a list of actions. -/
def rspPart : List Action → Byte → Byte
  | [], old => old
  | .rsp v :: as, _ => rspPart as v
  | _ :: as, old => rspPart as old

/-- SO after a list of frame vectors. -/
def soPart : List (List Frame) → List Bool → List Bool
  | [], old => old
  | F :: L, _ => soPart L (stream F)

/-- DATA_O after a list of frame vectors. -/
def dataPart : List (List Frame) → Bool → Bool
  | [], old => old
  | F :: L, old => dataPart L ((stream F).getLast?.getD old)

/-- STATUS.BADCMD after a list of actions. -/
def badPart : List Action → Bool → Bool
  | [], old => old
  | .badCmd :: as, _ => badPart as true
  | _ :: as, old => badPart as old

/-- A list of writes to an array. -/
def writeCells (m : Memory) (l : List (Nat × Byte)) : Memory := l.foldl (fun m e => m.write e.1 e.2) m

/-- What a list of actions does to FB, whatever state the block is in. -/
theorem perform_fb (s : State) (as : List Action) : (s.perform as).fb = writeCells s.fb (fbPart as) := by
  induction as generalizing s with
  | nil => rfl
  | cons a as ih =>
    rw [perform_cons, ih]
    cases a <;> simp [State.act, fbPart, State.txn, State.setRsp, State.raiseBadCmd, State.fbWrite, writeCells]

/-- No action changes the parameters, N_EFF or the sequencer, whatever state the block is in. -/
theorem perform_fixed (s : State) (as : List Action) :
    (s.perform as).params = s.params ∧ (s.perform as).nEff = s.nEff ∧ (s.perform as).seq = s.seq := by
  induction as generalizing s with
  | nil => exact ⟨rfl, rfl, rfl⟩
  | cons a as ih =>
    rw [perform_cons]
    obtain ⟨h1, h2, h3⟩ := ih (s.act a)
    rw [h1, h2, h3]
    cases a <;> simp [State.act, State.txn, State.setRsp, State.raiseBadCmd, State.fbWrite]

/-- Everything a list of actions does to a block at rest (CLOCK and LOAD high, 10_state R30). -/
theorem perform_eq (s : State) (as : List Action) (hc : s.clkO = true) (hl : s.loadO = true) :
    s.perform as = { s with
      status := { s.status with badCmd := badPart as s.status.badCmd }
      rsp := rspPart as s.rsp
      fb := writeCells s.fb (fbPart as)
      dev := takeChains s.params.regmap.noop (txnPart as) s.dev
      busLog := s.busLog ++ txnPart as
      pinLog := s.pinLog ++ pinPart as
      so := soPart (txnPart as) s.so
      dataO := dataPart (txnPart as) s.dataO } := by
  induction as generalizing s with
  | nil => simp [badPart, rspPart, fbPart, txnPart, pinPart, soPart, dataPart, writeCells]
  | cons a as ih =>
    cases a with
    | txn F =>
      rw [perform_cons, ih (s.act (.txn F)) rfl rfl]
      simp [State.act, State.txn, badPart, rspPart, fbPart, txnPart, pinPart, soPart, dataPart, hc, hl]
    | fb c v =>
      rw [perform_cons, ih (s.act (.fb c v)) hc hl]
      simp [State.act, State.fbWrite, badPart, rspPart, fbPart, txnPart, pinPart, writeCells]
    | rsp v =>
      rw [perform_cons, ih (s.act (.rsp v)) hc hl]
      simp [State.act, State.setRsp, badPart, rspPart, fbPart, txnPart, pinPart]
    | clockHigh =>
      rw [perform_cons, ih (s.act .clockHigh) (by simp [State.act]) (by simp [State.act, hl])]
      simp [State.act, State.drivePin, hc, badPart, rspPart, fbPart, txnPart, pinPart]
    | badCmd =>
      rw [perform_cons, ih (s.act .badCmd) hc hl]
      simp [State.act, State.raiseBadCmd, badPart, rspPart, fbPart, txnPart, pinPart]

@[simp] theorem fbPart_append (as bs : List Action) : fbPart (as ++ bs) = fbPart as ++ fbPart bs := by
  induction as with
  | nil => rfl
  | cons a as ih => cases a <;> simp [fbPart, ih]

@[simp] theorem txnPart_append (as bs : List Action) : txnPart (as ++ bs) = txnPart as ++ txnPart bs := by
  induction as with
  | nil => rfl
  | cons a as ih => cases a <;> simp [txnPart, ih]

@[simp] theorem pinPart_append (as bs : List Action) : pinPart (as ++ bs) = pinPart as ++ pinPart bs := by
  induction as with
  | nil => rfl
  | cons a as ih => cases a <;> simp [pinPart, ih]

@[simp] theorem fbPart_map_fb {α : Type} (l : List α) (f : α → Nat) (g : α → Byte) :
    fbPart (l.map fun x => .fb (f x) (g x)) = l.map fun x => (f x, g x) := by
  induction l with
  | nil => rfl
  | cons x l ih => simp [fbPart, ih]

@[simp] theorem txnPart_map_fb {α : Type} (l : List α) (f : α → Nat) (g : α → Byte) :
    txnPart (l.map fun x => .fb (f x) (g x)) = [] := by
  induction l with
  | nil => rfl
  | cons x l ih => simp [txnPart, ih]

@[simp] theorem pinPart_map_fb {α : Type} (l : List α) (f : α → Nat) (g : α → Byte) :
    pinPart (l.map fun x => .fb (f x) (g x)) = [] := by
  induction l with
  | nil => rfl
  | cons x l ih => simp [pinPart, ih]

@[simp] theorem fbPart_map_txn {α : Type} (l : List α) (F : α → List Frame) :
    fbPart (l.map fun x => .txn (F x)) = [] := by
  induction l with
  | nil => rfl
  | cons x l ih => simp [fbPart, ih]

@[simp] theorem txnPart_map_txn {α : Type} (l : List α) (F : α → List Frame) :
    txnPart (l.map fun x => .txn (F x)) = l.map F := by
  induction l with
  | nil => rfl
  | cons x l ih => simp [txnPart, ih]

/-- Without an RSP write among the actions RSP keeps its value. -/
theorem rspPart_of_no_rsp {as : List Action} (h : ∀ v, Action.rsp v ∉ as) (old : Byte) : rspPart as old = old := by
  induction as with
  | nil => rfl
  | cons a as ih =>
    have ih' := ih fun v hv => h v (List.mem_cons_of_mem _ hv)
    cases a with
    | rsp v => exact absurd List.mem_cons_self (h v)
    | _ => simpa [rspPart] using ih'

/-- Without a rejection among the actions STATUS.BADCMD keeps its value. -/
theorem badPart_of_no_bad {as : List Action} (h : Action.badCmd ∉ as) (old : Bool) : badPart as old = old := by
  induction as with
  | nil => rfl
  | cons a as ih =>
    have ih' := ih fun hv => h (List.mem_cons_of_mem _ hv)
    cases a with
    | badCmd => exact absurd List.mem_cons_self h
    | _ => simpa [badPart] using ih'

/-- Cells written with the values of one function, read anywhere. -/
theorem read_writeCells_fn (m : Memory) (l : List Nat) (f : Nat → Byte) (c : Nat) :
    (writeCells m (l.map fun c => (c, f c))).read c = if c ∈ l then some (f c) else m.read c := by
  induction l generalizing m with
  | nil => simp [writeCells]
  | cons b l ih =>
    have := ih (m.write b (f b))
    simp only [writeCells, List.map_cons, List.foldl_cons] at this ⊢
    rw [this, read_write]
    by_cases hb : c = b
    · subst hb; simp
    · simp [hb]

/-- Cells written below n leave an array of the addresses 0..n-1 with those addresses. -/
theorem addresses_writeCells {m : Memory} {n : Nat} (h : m.addresses = List.range n) {l : List (Nat × Byte)}
    (hl : ∀ e ∈ l, e.1 < n) : (writeCells m l).addresses = List.range n := by
  induction l generalizing m with
  | nil => exact h
  | cons e l ih =>
    exact ih (addresses_write_range h (hl e List.mem_cons_self) e.2) fun e' he' => hl e' (List.mem_cons_of_mem _ he')

/-- A cell that exists reads as what FB lists for it. -/
theorem fbRead_of_read {s : State} {c : Nat} {v : Byte} (h : s.fb.read c = some v) : s.fbRead c = v := by
  simp [State.fbRead, h]

/-- A cell below TOTAL is listed when FB has exactly the cells 0..TOTAL-1. -/
theorem read_of_cells {s : State} (h : s.fb.addresses = List.range s.total) {c : Nat} (hc : c < s.total) :
    s.fb.read c = some (s.fbRead c) := by
  have : (s.fb.read c).isSome = true := by rw [read_isSome_iff, h]; exact List.mem_range.2 hc
  obtain ⟨v, hv⟩ := Option.isSome_iff_exists.1 this
  rw [hv, fbRead_of_read hv]

/-- A cell at or above TOTAL does not exist. -/
theorem read_none_of_cells {s : State} (h : s.fb.addresses = List.range s.total) {c : Nat} (hc : s.total ≤ c) :
    s.fb.read c = none := by
  rw [read_eq_none_iff, h]; simp; exact hc

end Sys2Proof.Laws
end

