-- ==== Sys2Proof/Laws/PerInstr.lean ====
section
/-! SUPPORT. The per-instruction family RowMatch: the encoded word of a command matches the command's own row of the
opcode map (30_encoding R77). -/

namespace Sys2Proof.Laws

/-- The row of the opcode map, counted from 0, that a command belongs to: its OP value (30_encoding R77). -/
def rowIndex : Instr → Nat
  | .nop => 0
  | .init => 1
  | .bcast _ _ => 2
  | .stage _ _ => 3
  | .wrcol _ _ => 4
  | .wrdot _ _ _ => 5
  | .wrall _ _ => 6
  | .stblk _ _ => 7
  | .clear => 8
  | .flush => 9
  | .shl _ _ => 10
  | .shr _ _ => 11
  | .shu _ => 12
  | .shd _ => 13
  | .rdcol _ => 14

namespace RowMatch

/-- The command's word matches the command's row. -/
def Statement (i : Instr) : Prop := ∃ r, opTable[rowIndex i]? = some r ∧ r.matchesWord (encode i) = true

theorem formatC_matches (op : BitVec 4) (col : BitVec 12) (val : Byte) :
    formatC op col val &&& 0xFF000F00 = op ++ 0#28 := by
  apply BitVec.eq_of_getLsbD_eq
  intro i hi
  simp only [formatC, BitVec.getLsbD_append, BitVec.getLsbD_and]
  interval_cases i <;> simp

theorem formatC_zero_matches (op : BitVec 4) (col : BitVec 12) :
    formatC op col 0 &&& 0xFF000FFF = op ++ 0#28 := by
  apply BitVec.eq_of_getLsbD_eq
  intro i hi
  simp only [formatC, BitVec.getLsbD_append, BitVec.getLsbD_and]
  interval_cases i <;> simp

theorem nop : Statement .nop := ⟨_, rfl, by decide⟩

theorem init : Statement .init := ⟨_, rfl, by decide⟩

theorem bcast (reg val : Byte) : Statement (.bcast reg val) := by
  refine ⟨_, rfl, ?_⟩
  simp only [OpRow.matchesWord, encode, beq_iff_eq]
  apply BitVec.eq_of_getLsbD_eq
  intro i hi
  simp only [formatB, BitVec.getLsbD_append, BitVec.getLsbD_and]
  interval_cases i <;> simp

theorem stage (col : BitVec 12) (val : Byte) : Statement (.stage col val) := by
  refine ⟨_, rfl, ?_⟩
  simp only [OpRow.matchesWord, encode, beq_iff_eq, formatC_matches]
  rfl

theorem wrcol (col : BitVec 12) (val : Byte) : Statement (.wrcol col val) := by
  refine ⟨_, rfl, ?_⟩
  simp only [OpRow.matchesWord, encode, beq_iff_eq, formatC_matches]
  rfl

theorem wrdot (col : BitVec 12) (row : BitVec 4) (v : Bool) : Statement (.wrdot col row v) := by
  refine ⟨_, rfl, ?_⟩
  simp only [OpRow.matchesWord, encode, beq_iff_eq]
  apply BitVec.eq_of_getLsbD_eq
  intro i hi
  simp only [formatD, BitVec.getLsbD_append, BitVec.getLsbD_and]
  interval_cases i <;> simp

theorem wrall (lcol : BitVec 12) (val : Byte) : Statement (.wrall lcol val) := by
  refine ⟨_, rfl, ?_⟩
  simp only [OpRow.matchesWord, encode, beq_iff_eq, formatC_matches]
  rfl

theorem stblk (off : BitVec 12) (data : Block) : Statement (.stblk off data) := by
  refine ⟨_, rfl, ?_⟩
  simp only [OpRow.matchesWord, encode, beq_iff_eq, formatC_zero_matches]
  rfl

theorem clear : Statement .clear := ⟨_, rfl, by decide⟩

theorem flush : Statement .flush := ⟨_, rfl, by decide⟩

theorem shl (rot fill : Bool) : Statement (.shl rot fill) := by
  refine ⟨_, rfl, ?_⟩
  cases rot <;> cases fill <;> decide

theorem shr (rot fill : Bool) : Statement (.shr rot fill) := by
  refine ⟨_, rfl, ?_⟩
  cases rot <;> cases fill <;> decide

theorem shu (rot : Bool) : Statement (.shu rot) := by
  refine ⟨_, rfl, ?_⟩
  cases rot <;> decide

theorem shd (rot : Bool) : Statement (.shd rot) := by
  refine ⟨_, rfl, ?_⟩
  cases rot <;> decide

theorem rdcol (col : BitVec 12) : Statement (.rdcol col) := by
  refine ⟨_, rfl, ?_⟩
  simp only [OpRow.matchesWord, encode, beq_iff_eq, formatC_zero_matches]
  rfl

end RowMatch

end Sys2Proof.Laws
end

