-- ==== Sys2Proof/Laws/Regmap.lean ====
section
/-! SUPPORT. The column registers of a REGMAP: COL(0) to COL(7) are the listed addresses, apart where the map keeps them
apart; and what one flush leaves in a column register. -/

namespace Sys2Proof.Laws

open Sys2Proof.Machine

theorem cols_getElem (m : Regmap) {i : Nat} (hi : i < 8) : m.cols.toList[i]? = some (m.col i) := by
  simp [Regmap.col, Vector.get, hi, Fin.ofNat, Nat.mod_eq_of_lt hi]

theorem col_mem (m : Regmap) {i : Nat} (hi : i < 8) : m.col i ∈ m.cols.toList := List.mem_of_getElem? (cols_getElem m hi)

theorem cols_eq (m : Regmap) :
    m.cols.toList = [m.col 0, m.col 1, m.col 2, m.col 3, m.col 4, m.col 5, m.col 6, m.col 7] := by
  apply List.ext_getElem?
  intro i
  by_cases hi : i < 8
  · rw [cols_getElem m hi]; interval_cases i <;> rfl
  · rw [List.getElem?_eq_none (by simp; omega), List.getElem?_eq_none (by simp; omega)]

theorem col_injective {m : Regmap} (h : m.ColumnsDistinct) {i j : Nat} (hi : i < 8) (hj : j < 8) (e : m.col i = m.col j) :
    i = j := by
  have a := cols_getElem m hi
  rw [e] at a
  exact (List.getElem?_inj (by simpa using hi) (List.nodup_cons.1 h).2).1 (a.trans (cols_getElem m hj).symm)

theorem col_ne_noop {m : Regmap} (h : m.noop ∉ m.cols.toList) {i : Nat} (hi : i < 8) : m.col i ≠ m.noop :=
  fun e => h (e ▸ col_mem m hi)

theorem distinct_columns {m : Regmap} (h : m.Distinct) : m.ColumnsDistinct := by
  unfold Regmap.Distinct Regmap.addresses at h
  exact List.Nodup.sublist (List.Sublist.cons_cons _ (List.sublist_append_right [_, _, _, _, _] _)) h

theorem lastValue_append (noop a : Byte) (fs gs : List Frame) (old : Option Byte) :
    lastValue noop a (fs ++ gs) old = lastValue noop a gs (lastValue noop a fs old) := by
  induction fs generalizing old with
  | nil => rfl
  | cons f fs ih => exact ih _

/-- After one frame per column register, COL(lc) holds its own value. -/
theorem lastValue_cols {m : Regmap} (h : m.ColumnsDistinct) (vals : Nat → Byte) {lc : Nat} (hl : lc < 8)
    (old : Option Byte) :
    lastValue m.noop (m.col lc) ((List.range 8).map fun l => frame (m.col l) (vals l)) old = some (vals lc) := by
  have key : ∀ n, n ≤ 8 → ∀ old, lastValue m.noop (m.col lc) ((List.range n).map fun l => frame (m.col l) (vals l)) old =
      if lc < n then some (vals lc) else old := by
    intro n
    induction n with
    | zero => intro _ old; rfl
    | succ n ih =>
      intro hn old
      rw [List.range_succ, List.map_append, lastValue_append, ih (by omega)]
      simp only [List.map_cons, List.map_nil, lastValue, frameAddress_frame, frameValue_frame]
      by_cases e : lc = n
      · subst e; simp [col_ne_noop (List.nodup_cons.1 h).1 hl]
      · have hne : m.col lc ≠ m.col n := fun e' => e (col_injective h hl (by omega) e')
        simp only [hne, false_and, if_false]
        by_cases h1 : lc < n <;> simp [h1] <;> omega
  rw [key 8 le_rfl]; simp [hl]

end Sys2Proof.Laws
end

