-- ==== Sys2Proof/Laws/Sequencer.lean ====
section
/-! SUPPORT. The sequencer's shared operations: the end of a command, and going on after one of its effects. -/

namespace Sys2Proof.Laws

open Sys2Proof.Machine

/-- The end of a command clears BUSY and idles the sequencer; beyond that it is the host's turn. -/
theorem endCommand_eq (s : State) : s.endCommand = { s.setBusy false with seq := none }.hostTurn := rfl

@[simp] theorem endCommand_seq (s : State) : s.endCommand.seq = none := by
  simp [State.endCommand]
@[simp] theorem endCommand_status_busy (s : State) : s.endCommand.status.busy = false := by
  simp [State.endCommand]
@[simp] theorem endCommand_status_clamped (s : State) : s.endCommand.status.clamped = s.status.clamped := by
  simp [State.endCommand]
@[simp] theorem endCommand_status_badCmd (s : State) : s.endCommand.status.badCmd = s.status.badCmd := by
  simp [State.endCommand]
@[simp] theorem endCommand_params (s : State) : s.endCommand.params = s.params := by
  simp [State.endCommand]
@[simp] theorem endCommand_nEff (s : State) : s.endCommand.nEff = s.nEff := by
  simp [State.endCommand]
@[simp] theorem endCommand_rsp (s : State) : s.endCommand.rsp = s.rsp := by
  simp [State.endCommand]
@[simp] theorem endCommand_fb (s : State) : s.endCommand.fb = s.fb := by
  simp [State.endCommand]
@[simp] theorem endCommand_dataO (s : State) : s.endCommand.dataO = s.dataO := by
  simp [State.endCommand]
@[simp] theorem endCommand_clkO (s : State) : s.endCommand.clkO = s.clkO := by
  simp [State.endCommand]
@[simp] theorem endCommand_loadO (s : State) : s.endCommand.loadO = s.loadO := by
  simp [State.endCommand]
@[simp] theorem endCommand_so (s : State) : s.endCommand.so = s.so := by
  simp [State.endCommand]
@[simp] theorem endCommand_dev (s : State) : s.endCommand.dev = s.dev := by
  simp [State.endCommand]
@[simp] theorem endCommand_busLog (s : State) : s.endCommand.busLog = s.busLog := by
  simp [State.endCommand]
@[simp] theorem endCommand_pinLog (s : State) : s.endCommand.pinLog = s.pinLog := by
  simp [State.endCommand]
@[simp] theorem endCommand_draws (s : State) : s.endCommand.draws = s.draws := by
  simp [State.endCommand]
@[simp] theorem endCommand_resets (s : State) : s.endCommand.resets = s.resets := by
  simp [State.endCommand]

/-- After its last effect a command has completed (10_state R28). -/
theorem proceed_of_nil (s : State) {q : Sequencer} (h : q.todo = []) : s.proceed q = s.endCommand := by
  simp [State.proceed, h]

/-- After any other effect the sequencer goes on. -/
theorem proceed_of_ne_nil (s : State) {q : Sequencer} (h : q.todo ≠ []) : s.proceed q = { s with seq := some q } := by
  simp [State.proceed, h]

/-- Going on after an effect: BUSY is 1 as before with the sequencer at `q`, or BUSY is 0 and the sequencer idle. -/
theorem proceed_cases (s : State) (q : Sequencer) :
    (q.todo ≠ [] ∧ s.proceed q = { s with seq := some q }) ∨ (q.todo = [] ∧ s.proceed q = s.endCommand) := by
  by_cases h : q.todo = []
  · exact .inr ⟨h, proceed_of_nil s h⟩
  · exact .inl ⟨h, proceed_of_ne_nil s h⟩

@[simp] theorem proceed_status_clamped (s : State) (q : Sequencer) : (s.proceed q).status.clamped = s.status.clamped := by
  unfold State.proceed; split <;> simp
@[simp] theorem proceed_status_badCmd (s : State) (q : Sequencer) : (s.proceed q).status.badCmd = s.status.badCmd := by
  unfold State.proceed; split <;> simp
@[simp] theorem proceed_params (s : State) (q : Sequencer) : (s.proceed q).params = s.params := by
  unfold State.proceed; split <;> simp
@[simp] theorem proceed_nEff (s : State) (q : Sequencer) : (s.proceed q).nEff = s.nEff := by
  unfold State.proceed; split <;> simp
@[simp] theorem proceed_rsp (s : State) (q : Sequencer) : (s.proceed q).rsp = s.rsp := by
  unfold State.proceed; split <;> simp
@[simp] theorem proceed_fb (s : State) (q : Sequencer) : (s.proceed q).fb = s.fb := by
  unfold State.proceed; split <;> simp
@[simp] theorem proceed_dataO (s : State) (q : Sequencer) : (s.proceed q).dataO = s.dataO := by
  unfold State.proceed; split <;> simp
@[simp] theorem proceed_clkO (s : State) (q : Sequencer) : (s.proceed q).clkO = s.clkO := by
  unfold State.proceed; split <;> simp
@[simp] theorem proceed_loadO (s : State) (q : Sequencer) : (s.proceed q).loadO = s.loadO := by
  unfold State.proceed; split <;> simp
@[simp] theorem proceed_so (s : State) (q : Sequencer) : (s.proceed q).so = s.so := by
  unfold State.proceed; split <;> simp
@[simp] theorem proceed_dev (s : State) (q : Sequencer) : (s.proceed q).dev = s.dev := by
  unfold State.proceed; split <;> simp
@[simp] theorem proceed_busLog (s : State) (q : Sequencer) : (s.proceed q).busLog = s.busLog := by
  unfold State.proceed; split <;> simp
@[simp] theorem proceed_pinLog (s : State) (q : Sequencer) : (s.proceed q).pinLog = s.pinLog := by
  unfold State.proceed; split <;> simp
@[simp] theorem proceed_draws (s : State) (q : Sequencer) : (s.proceed q).draws = s.draws := by
  unfold State.proceed; split <;> simp
@[simp] theorem proceed_resets (s : State) (q : Sequencer) : (s.proceed q).resets = s.resets := by
  unfold State.proceed; split <;> simp

end Sys2Proof.Laws
end

