-- ==== Sys2Proof/Laws/Step.lean ====
section
/-! SUPPORT. What executing a command can do, once for all commands: exec performs the command's plan; what a plan can
hold; and the state a block at rest is left in. -/

namespace Sys2Proof.Laws

open Sys2Proof.Machine

theorem total_eq (s : State) : s.total = 8 * s.deviceCount := rfl

theorem globalOf_def (k lc : Nat) : globalOf k lc = k * 8 + lc := rfl

theorem deviceOf_def (c : Nat) : deviceOf c = c / 8 := rfl

theorem localOf_def (c : Nat) : localOf c = c % 8 := rfl

/-- Every command's meaning performs its plan. -/
theorem exec_eq_perform (i : Instr) (s : State) : exec i s = .next (s.perform (plan i s)) := by
  cases i <;> rfl

/-- No command's plan rejects a word. -/
theorem plan_no_bad (i : Instr) (s : State) : Action.badCmd ∉ plan i s := by
  cases i <;>
    simp [plan, planNop, planInit, planBcast, planStage, planWrcol, planWrdot, planWrall, planStblk, planClear, planFlush,
      planShl, planShr, planShu, planShd, planRdcol, State.writeCol, State.writeAll, State.flushFrom, State.fbAll,
      State.transform]

/-- Only RDCOL's plan writes RSP. -/
theorem plan_no_rsp {i : Instr} (h : ∀ col, i ≠ .rdcol col) (s : State) (v : Byte) : Action.rsp v ∉ plan i s := by
  cases i <;>
    simp_all [plan, planNop, planInit, planBcast, planStage, planWrcol, planWrdot, planWrall, planStblk, planClear,
      planFlush, planShl, planShr, planShu, planShd, State.writeCol, State.writeAll, State.flushFrom, State.fbAll,
      State.transform]

@[simp] theorem length_bcastFrames (s : State) (a v : Byte) : (s.bcastFrames a v).length = s.deviceCount := by
  simp [State.bcastFrames]

@[simp] theorem length_targetedFrames (s : State) (k : Nat) (a v : Byte) :
    (s.targetedFrames k a v).length = s.deviceCount := by simp [State.targetedFrames]

@[simp] theorem length_multiFrames (s : State) (a : Byte) (vs : Nat → Byte) :
    (s.multiFrames a vs).length = s.deviceCount := by simp [State.multiFrames]

theorem global_lt_total {s : State} {k lc : Nat} (hk : k < s.deviceCount) (hl : lc < 8) : globalOf k lc < s.total := by
  rw [globalOf_def, total_eq]; omega

theorem deviceOf_lt {s : State} {c : Nat} (h : c < s.total) : deviceOf c < s.deviceCount := by
  rw [total_eq] at h; rw [deviceOf_def]; omega

/-- Every action of a command's plan fits the machine: one frame a device, no cell beyond TOTAL. -/
theorem plan_fits (i : Instr) (s : State) : ∀ a ∈ plan i s, s.actionFits a := by
  cases i with
  | nop => simp [plan, planNop]
  | init =>
    simp only [plan, planInit, State.fbAll, List.mem_append, List.mem_cons, List.mem_map, List.not_mem_nil, or_false,
      List.mem_range]
    rintro a (((hh | ⟨lc, _, rfl⟩) | ⟨c, hc, rfl⟩) | rfl)
    · rcases hh with rfl | rfl | rfl | rfl | rfl <;> simp [State.actionFits]
    · simp [State.actionFits]
    · exact hc
    · simp [State.actionFits]
  | bcast reg val => simp [plan, planBcast, State.actionFits]
  | stage col val =>
    simp only [plan, planStage]; split
    · rename_i h; simpa [State.actionFits, State.inRange] using h
    · simp
  | wrcol col val =>
    simp only [plan, planWrcol]; split
    · rename_i h; simpa [State.actionFits, State.writeCol, State.inRange] using h
    · simp
  | wrdot col row v =>
    simp only [plan, planWrdot]; split
    · rename_i h
      simp only [State.inRange, Bool.and_eq_true, decide_eq_true_eq] at h
      simpa [State.actionFits, State.writeCol] using h.1
    · simp
  | wrall lcol val =>
    simp only [plan, planWrall]; split
    · rename_i h
      simp only [localInRange, decide_eq_true_eq] at h
      simp only [State.writeAll, List.mem_append, List.mem_singleton, List.mem_map, List.mem_range]
      rintro a (⟨k, hk, rfl⟩ | rfl)
      · exact global_lt_total hk h
      · simp [State.actionFits]
    · simp
  | stblk off data =>
    simp only [plan, planStblk, List.mem_map, List.mem_filter, State.inRange, decide_eq_true_eq]
    rintro a ⟨i, hi, rfl⟩
    exact hi.2
  | clear =>
    simp only [plan, planClear, State.fbAll, State.writeAll, List.mem_append, List.mem_flatMap, List.mem_singleton,
      List.mem_map, List.mem_range]
    rintro a (⟨c, hc, rfl⟩ | ⟨lc, hl, (⟨k, hk, rfl⟩ | rfl)⟩)
    · exact hc
    · exact global_lt_total hk hl
    · simp [State.actionFits]
  | flush =>
    simp only [plan, planFlush, State.flushFrom, List.mem_map]
    rintro a ⟨lc, _, rfl⟩
    simp [State.actionFits]
  | rdcol col => simp [plan, planRdcol, State.actionFits]
  | shl _ _ | shr _ _ | shu _ | shd _ =>
    simp only [plan, planShl, planShr, planShu, planShd, State.transform, State.flushFrom, State.fbAll, List.mem_append,
      List.mem_map, List.mem_range]
    rintro a (⟨c, hc, rfl⟩ | ⟨lc, _, rfl⟩)
    · exact hc
    · simp [State.actionFits]

/-- Actions before a flush: the list ends in the flush's last transaction. -/
theorem append_flushFrom (s : State) (as : List Action) (vals : Nat → Byte) :
    ∃ bs F, as ++ s.flushFrom vals = bs ++ [.txn F] := by
  simp only [State.flushFrom, panelW, List.range_succ (n := 7), List.map_append, List.map_cons, List.map_nil,
    ← List.append_assoc]
  exact ⟨_, _, rfl⟩

/-- The last effect of a command that performs transactions is the last one of them (10_state R28). -/
theorem plan_ends_in_txn (i : Instr) (s : State) (h : txnPart (plan i s) ≠ []) :
    ∃ as F, plan i s = as ++ [.txn F] := by
  cases i with
  | nop => simp [plan, planNop, txnPart] at h
  | init => exact ⟨_, _, rfl⟩
  | bcast reg val => exact ⟨[], _, rfl⟩
  | stage col val =>
    simp only [plan, planStage] at h
    split at h <;> simp [txnPart] at h
  | wrcol col val =>
    simp only [plan, planWrcol] at h ⊢
    split at h
    · rename_i hr; rw [if_pos hr]; exact ⟨[_], _, rfl⟩
    · simp [txnPart] at h
  | wrdot col row v =>
    simp only [plan, planWrdot] at h ⊢
    split at h
    · rename_i hr; rw [if_pos hr]; exact ⟨[_], _, rfl⟩
    · simp [txnPart] at h
  | wrall lcol val =>
    simp only [plan, planWrall] at h ⊢
    split at h
    · rename_i hr; rw [if_pos hr]; exact ⟨_, _, rfl⟩
    · simp [txnPart] at h
  | stblk off data => simp [plan, planStblk] at h
  | clear =>
    simp only [plan, planClear, panelH, List.range_succ (n := 7), List.flatMap_append, List.flatMap_cons, List.flatMap_nil,
      List.append_nil, State.writeAll, ← List.append_assoc]
    exact ⟨_, _, rfl⟩
  | flush => exact append_flushFrom s [] _
  | rdcol col => simp [plan, planRdcol, txnPart] at h
  | shl _ _ | shr _ _ | shu _ | shd _ => exact append_flushFrom s _ _

/-- A transform's FB writes are the whole of FB. -/
@[simp] theorem fbPart_transform (s : State) (f : Nat → Byte) :
    fbPart (s.transform f) = (List.range s.total).map fun c => (c, f c) := by
  simp [State.transform, State.fbAll, State.flushFrom]

/-- A transform's transactions are one flush. -/
@[simp] theorem txnPart_transform (s : State) (f : Nat → Byte) :
    txnPart (s.transform f) = (List.range 8).map fun lc => s.multiFrames (s.colReg lc) fun k => f (globalOf k lc) := by
  simp [State.transform, State.fbAll, State.flushFrom]

/-- Without a CLOCK write of its own, a plan's pin events are its transactions' wave forms. -/
theorem pinPart_eq {as : List Action} (h : Action.clockHigh ∉ as) : pinPart as = (txnPart as).flatMap waveform := by
  induction as with
  | nil => rfl
  | cons a as ih =>
    have ih' := ih fun hv => h (List.mem_cons_of_mem _ hv)
    cases a with
    | clockHigh => exact absurd List.mem_cons_self h
    | _ => simp [pinPart, txnPart, ih']

/-- Only INIT's plan writes CLOCK on its own. -/
theorem plan_no_clockHigh {i : Instr} (h : i ≠ .init) (s : State) : Action.clockHigh ∉ plan i s := by
  cases i <;>
    simp_all [plan, planNop, planBcast, planStage, planWrcol, planWrdot, planWrall, planStblk, planClear, planFlush,
      planShl, planShr, planShu, planShd, planRdcol, State.writeCol, State.writeAll, State.flushFrom, State.fbAll,
      State.transform]

/-- The state after a command but RDCOL, from a block at rest: FB, the devices and what the bus shows, each from its part
of the plan, and nothing else. -/
theorem exec_eq_parts {i : Instr} {s : State} (hr : ∀ col, i ≠ .rdcol col) (hc : s.clkO = true) (hl : s.loadO = true) :
    exec i s = .next { s with
      fb := writeCells s.fb (fbPart (plan i s))
      dev := takeChains s.params.regmap.noop (txnPart (plan i s)) s.dev
      busLog := s.busLog ++ txnPart (plan i s)
      pinLog := s.pinLog ++ pinPart (plan i s)
      so := soPart (txnPart (plan i s)) s.so
      dataO := dataPart (txnPart (plan i s)) s.dataO } := by
  rw [exec_eq_perform, perform_eq s _ hc hl, badPart_of_no_bad (plan_no_bad i s),
    rspPart_of_no_rsp (fun v => plan_no_rsp hr s v)]

/-- A frame vector of one frame per device gives every device of a chain of that many its frame. -/
theorem getElem?_multiFrames (s : State) (a : Byte) (vs : Nat → Byte) {k : Nat} (hk : k < s.deviceCount) :
    (s.multiFrames a vs)[k]? = some (frame a (vs k)) := by
  simp [State.multiFrames, hk]

theorem getElem?_bcastFrames (s : State) (a v : Byte) {k : Nat} (hk : k < s.deviceCount) :
    (s.bcastFrames a v)[k]? = some (frame a v) := by
  simp [State.bcastFrames, hk]

theorem getElem?_targetedFrames (s : State) (kt : Nat) (a v : Byte) {k : Nat} (hk : k < s.deviceCount) :
    (s.targetedFrames kt a v)[k]? = some (if k = kt then frame a v else frame s.params.regmap.noop 0x00) := by
  simp [State.targetedFrames, hk]

/-- What register a of device k holds after a list of transactions in which device k gets the frames `fs`. -/
theorem devReg_takeChains {s t : State} {L : List (List Frame)} {noop : Byte} (ht : t.dev = takeChains noop L s.dev)
    {k : Nat} (g : List Frame → Frame) (h : ∀ F ∈ L, F[k]? = some (g F)) (hk : k < s.dev.length) (a : Byte) :
    t.devReg k a = lastValue noop a (L.map g) (s.devReg k a) := by
  simp only [State.devReg, ht, getElem?_takeChains noop s.dev k g h]
  rw [List.getElem?_eq_getElem hk]
  simp [read_takeFrames]

/-- A register of a device beyond the chain does not exist. -/
theorem devReg_none {s : State} {k : Nat} (h : s.dev.length ≤ k) (a : Byte) : s.devReg k a = none := by
  simp [State.devReg, h]

/-- What register a of device k holds after one targeted transaction. -/
theorem devReg_targeted {s t : State} (hlen : s.dev.length = s.deviceCount) {kt : Nat} (hkt : kt < s.deviceCount)
    (reg v : Byte) (ht : t.dev = takeChains s.params.regmap.noop [s.targetedFrames kt reg v] s.dev) (k : Nat) (a : Byte) :
    t.devReg k a = if k = kt ∧ a = reg ∧ a ≠ s.params.regmap.noop then some v else s.devReg k a := by
  by_cases hk : k < s.deviceCount
  · rw [devReg_takeChains ht (fun F => F.getD k 0) (by
      intro F hF
      rw [List.mem_singleton.1 hF, List.getD_eq_getElem?_getD, getElem?_targetedFrames _ _ _ _ hk]; rfl) (hlen ▸ hk)]
    simp only [List.map_cons, List.map_nil, lastValue, List.getD_eq_getElem?_getD, getElem?_targetedFrames _ _ _ _ hk,
      Option.getD_some]
    by_cases e : k = kt
    · by_cases e2 : a = reg <;> simp [e, e2]
    · simp [e]
  · rw [devReg_none (s := s) (by omega), devReg_none (s := t) (by rw [ht, length_takeChains]; omega)]
    simp; omega

/-- What register a of device k holds after a list of broadcasts. -/
theorem devReg_broadcasts {s t : State} (hlen : s.dev.length = s.deviceCount) (l : List (Byte × Byte))
    (ht : t.dev = takeChains s.params.regmap.noop (l.map fun e => s.bcastFrames e.1 e.2) s.dev) {k : Nat}
    (hk : k < s.deviceCount) (a : Byte) :
    t.devReg k a = lastValue s.params.regmap.noop a (l.map fun e => frame e.1 e.2) (s.devReg k a) := by
  rw [devReg_takeChains ht (fun F => F.getD k 0) (by
      intro F hF
      obtain ⟨e, -, rfl⟩ := List.mem_map.1 hF
      rw [List.getD_eq_getElem?_getD, getElem?_bcastFrames _ _ _ hk]; rfl) (hlen ▸ hk), List.map_map]
  congr 1
  exact List.map_congr_left fun e _ => by
    simp only [Function.comp, List.getD_eq_getElem?_getD, getElem?_bcastFrames _ _ _ hk, Option.getD_some]

/-- In sync, said through the register read. -/
theorem inSync_iff {s : State} {c : Nat} :
    s.inSync c ↔ s.devReg (deviceOf c) (s.colReg (localOf c)) = some (s.fbRead c) := by
  simp [State.inSync, State.devReg, Option.bind_eq_some_iff]

/-- What executing a command but INIT and RDCOL does to a sound block with no command executing. -/
theorem exec_outcome {i : Instr} {s : State} (h : s.Sound) (hq : s.seq = none) (hr : ∀ col, i ≠ .rdcol col)
    (hi : i ≠ .init) :
    ∃ t, exec i s = .next t ∧ s.fbAndBusOnly t ∧ t.fb = writeCells s.fb (fbPart (plan i s)) ∧
      t.dev = takeChains s.params.regmap.noop (txnPart (plan i s)) s.dev ∧ s.sent t (txnPart (plan i s)) := by
  obtain ⟨hc, hl⟩ := h.idlePins hq
  refine ⟨_, exec_eq_parts hr hc hl, rfl, rfl, rfl, rfl, ?_⟩
  rw [pinPart_eq (plan_no_clockHigh hi s)]

theorem multiFrames_getD {s : State} (a : Byte) (vs : Nat → Byte) {k : Nat} (hk : k < s.deviceCount) :
    (s.multiFrames a vs).getD k 0 = frame a (vs k) := by
  rw [List.getD_eq_getElem?_getD, getElem?_multiFrames s _ _ hk]; rfl

/-- What register a of device k holds after the eight transactions of a flush of `vals`. -/
theorem devReg_flush {s t : State} (hlen : s.dev.length = s.deviceCount) (vals : Nat → Byte)
    (ht : t.dev = takeChains s.params.regmap.noop
      ((List.range 8).map fun lc => s.multiFrames (s.colReg lc) fun k => vals (globalOf k lc)) s.dev)
    {k : Nat} (hk : k < s.deviceCount) (a : Byte) :
    t.devReg k a = lastValue s.params.regmap.noop a
      ((List.range 8).map fun l => frame (s.params.regmap.col l) (vals (globalOf k l))) (s.devReg k a) := by
  rw [devReg_takeChains ht (fun F => F.getD k 0) (by
      intro F hF
      obtain ⟨l, -, rfl⟩ := List.mem_map.1 hF
      rw [multiFrames_getD _ _ hk, getElem?_multiFrames s _ _ hk]) (hlen ▸ hk), List.map_map]
  congr 1
  exact List.map_congr_left fun l _ => multiFrames_getD _ _ hk

/-- A flush leaves every register that is no column register as it was. -/
theorem devReg_flush_other {s t : State} (hlen : s.dev.length = s.deviceCount) (vals : Nat → Byte)
    (ht : t.dev = takeChains s.params.regmap.noop
      ((List.range 8).map fun lc => s.multiFrames (s.colReg lc) fun k => vals (globalOf k lc)) s.dev)
    (k : Nat) {a : Byte} (ha : a ∉ s.params.regmap.cols.toList) : t.devReg k a = s.devReg k a := by
  by_cases hk : k < s.deviceCount
  · rw [devReg_flush hlen vals ht hk, lastValue_of_not_named]
    intro f hf
    obtain ⟨l, hl, rfl⟩ := List.mem_map.1 hf
    rw [frameAddress_frame]
    rintro rfl
    exact ha (col_mem _ (List.mem_range.1 hl))
  · rw [devReg_none (s := s) (by omega), devReg_none (s := t) (by rw [ht, length_takeChains]; omega)]

/-- What a command whose plan is a transform to `vals` does to a sound block with no command executing. -/
theorem transform_outcome {s : State} (h : s.Sound) (hq : s.seq = none) {i : Instr} (hr : ∀ col, i ≠ .rdcol col)
    (hi : i ≠ .init) (vals : Nat → Byte) (hp : plan i s = s.transform vals) :
    ∃ t, exec i s = .next t ∧ s.fbAndBusOnly t ∧ t.fb.addresses = s.fb.addresses ∧
      (∀ c, c < s.total → t.fb.read c = some (vals c)) ∧
      t.dev = takeChains s.params.regmap.noop
        ((List.range 8).map fun lc => s.multiFrames (s.colReg lc) fun k => vals (globalOf k lc)) s.dev ∧
      s.sent t ((List.range 8).map fun lc => s.multiFrames (s.colReg lc) fun k => vals (globalOf k lc)) := by
  obtain ⟨t, he, hf, hfb, hd, hs⟩ := exec_outcome h hq hr hi
  rw [hp, txnPart_transform] at hd hs
  rw [hp, fbPart_transform] at hfb
  refine ⟨t, he, hf, ?_, fun c hc => ?_, hd, hs⟩
  · rw [hfb, h.fbCells]
    refine addresses_writeCells h.fbCells fun e he => ?_
    obtain ⟨c, hc, rfl⟩ := List.mem_map.1 he
    exact List.mem_range.1 hc
  · rw [hfb, read_writeCells_fn, if_pos (List.mem_range.2 hc)]

end Sys2Proof.Laws
end

