-- ==== Sys2Proof/Laws/Sound.lean ====
section
/-! SUPPORT. Each shared operation on the machine's invariant: the host's moves, reset, and a list of actions done by a
block at rest. -/

namespace Sys2Proof.Laws

open Sys2Proof.Machine

theorem sound_hostTurn {s : State} (h : s.Sound) : s.hostTurn.Sound := by
  unfold State.hostTurn
  split
  · exact ⟨h.1, h.2, h.3, h.4, h.5, h.6, h.7, h.8, h.9⟩
  · split <;> exact ⟨h.1, h.2, h.3, h.4, h.5, h.6, h.7, h.8, h.9⟩

theorem sound_takeOffer {s : State} (h : s.Sound) : s.takeOffer.Sound :=
  ⟨h.1, h.2, h.3, h.4, h.5, h.6, h.7, h.8, h.9⟩

theorem sound_assertReset {s : State} (h : s.Sound) (ndev : BitVec 16) : (s.assertReset ndev).Sound :=
  ⟨h.1, h.2, h.3, h.4, h.5, h.6, h.7, h.8, h.9⟩

theorem sound_releaseReset {s : State} (h : s.Sound) : s.releaseReset.Sound :=
  ⟨h.1, h.2, h.3, h.4, h.5, h.6, h.7, h.8, h.9⟩

theorem sound_resetClock {s : State} (h : s.Sound) : s.resetClock.Sound := by
  unfold State.resetClock
  split <;> exact ⟨h.1, h.2, h.3, h.4, h.5, h.6, h.7, h.8, h.9⟩

/-- Going on after an effect, between two actions: the invariant of the sequencer at `q` carries over to the end of the
command. -/
theorem sound_proceed {s : State} {q : Sequencer} (h : ({ s with seq := some q } : State).Sound) (hp : q.phase = .ready) :
    (s.proceed q).Sound := by
  unfold State.proceed
  split
  · have hq := (h.seqFits q rfl).2
    rw [hp] at hq
    exact sound_hostTurn ⟨h.1, h.2, h.3, h.4, h.5, h.6, rfl, fun _ => hq, nofun⟩
  · exact h

/-- Whether an action fits depends on N_EFF only. -/
theorem actionFits_congr {s t : State} (h : t.nEff = s.nEff) (a : Action) : t.actionFits a ↔ s.actionFits a := by
  cases a <;> simp [State.actionFits, State.deviceCount, State.total, h]

/-- N_EFF holds the effective count without loss, and the count is in range (00_scope R7, R6). -/
theorem effectiveCount_range {p : Params} (hp : p.Wf) (ndev : BitVec 16) :
    1 ≤ effectiveCount p.maxDevices ndev ∧ effectiveCount p.maxDevices ndev ≤ p.maxDevices ∧
      (BitVec.ofNat 10 (effectiveCount p.maxDevices ndev)).toNat = effectiveCount p.maxDevices ndev := by
  have h1 := hp.1
  have h2 := hp.2
  have hle : effectiveCount p.maxDevices ndev ≤ p.maxDevices := by unfold effectiveCount; omega
  refine ⟨by unfold effectiveCount; omega, hle, ?_⟩
  simp; omega

theorem sound_applyReset {s : State} (h : s.Sound) : s.applyReset.Sound := by
  obtain ⟨hge, hle, hn⟩ := effectiveCount_range h.params s.cfgNdev
  constructor
  · exact h.params
  · simpa only [State.deviceCount, State.applyReset, hn] using hge
  · simpa only [State.deviceCount, State.applyReset, hn] using hle
  · simp only [State.total, State.deviceCount, State.applyReset, hn, drawFb, addresses_ofFn]
  · simp only [State.deviceCount, State.applyReset, hn, length_drawChain]
  · intro d hd
    obtain ⟨k, -, rfl⟩ := List.mem_map.1 hd
    exact addresses_ofFn _ _
  · rfl
  · exact fun _ => ⟨rfl, rfl⟩
  · intro q hq; cases hq

/-- The cells a list of fitting actions writes exist. -/
theorem fbPart_fits {s : State} {as : List Action} (hf : ∀ a ∈ as, s.actionFits a) : ∀ e ∈ fbPart as, e.1 < s.total := by
  induction as with
  | nil => simp [fbPart]
  | cons a as ih =>
    have ih' := ih fun a ha => hf a (List.mem_cons_of_mem _ ha)
    have h0 := hf a List.mem_cons_self
    cases a <;> simp only [fbPart, List.mem_cons, forall_eq_or_imp] <;> first | exact ih' | exact ⟨h0, ih'⟩

/-- A chain keeps its devices' cells through a list of transactions. -/
theorem addresses_takeChains (noop : Byte) (L : List (List Frame)) {devs : List Device}
    (h : ∀ d ∈ devs, d.reg.addresses = List.range 256) :
    ∀ d ∈ takeChains noop L devs, d.reg.addresses = List.range 256 := by
  induction L generalizing devs with
  | nil => exact h
  | cons F L ih => exact ih (addresses_takeChain _ F h)

/-- A block at rest that performs actions that fit it stays sound. -/
theorem sound_perform {s : State} (h : s.Sound) (hq : s.seq = none) {as : List Action}
    (hf : ∀ a ∈ as, s.actionFits a) : (s.perform as).Sound := by
  obtain ⟨hc, hl⟩ := h.idlePins hq
  rw [perform_eq s as hc hl]
  constructor
  · exact h.params
  · exact h.countPos
  · exact h.countMax
  · exact addresses_writeCells h.fbCells (fbPart_fits hf)
  · rw [length_takeChains]; exact h.chain
  · exact addresses_takeChains _ _ h.devCells
  · exact h.busySeq
  · exact fun _ => ⟨hc, hl⟩
  · intro q hq'; exact absurd (hq.symm.trans hq') (by simp)

end Sys2Proof.Laws
end

