-- ==== Sys2Proof/Tests/Slice0.lean ====
section
/-! SUPPORT. The author's tests: the assembler's refusals, decoding of words written out from 30_encoding and
95_test_vectors, one-step tests with the results 95_test_vectors gives, and for every statement with hypotheses a witness
that meets them. -/

namespace Sys2Proof.Tests

open Sys2Proof.Machine Sys2Proof.Laws

/-! The states. MAX_DEVICES = 8 and INIT_INTENSITY = 0x08 as 95_test_vectors assumes. -/

/-- 95_test_vectors: the parameters assumed for its examples. -/
def demoParams : Params := ⟨8, Regmap.standard, 0x08⟩

/-- The machine after a reset with this device count. -/
def demo (n : BitVec 16) : State := State.resetOf demoParams n

/-- A device whose registers are all zero. -/
def zeroDevice : Device := ⟨0, Memory.ofFn 256 fun _ => 0x00⟩

/-- n devices of zeros, FB[c] = f c. -/
def known (n : Nat) (f : Nat → Byte) : State :=
  { demo (BitVec.ofNat 16 n) with fb := Memory.ofFn (8 * n) f, dev := List.replicate n zeroDevice }

/-- FB all zero and in sync, the start state of W1 to W9. -/
def blank (n : Nat) : State := known n fun _ => 0x00

/-- FB = [1, 2, …], the start state of 95_test_vectors 2.5. -/
def counting (n : Nat) : State := known n fun c => BitVec.ofNat 8 (c + 1)

/-- One observation after a list of commands. -/
def seen {α : Type} (is : List Instr) (s : State) (f : State → α) : Option α := (runCommands is s).map f

/-- FB as a list. -/
def fbBytes (s : State) : List Byte := s.fb.map Prod.snd

/-! The assembler's refusals, one ill-formed line for each check (30_encoding R83, 43_sprite_blit R147). -/

theorem test_refuses_column : AsmLine.wellFormed (.stage 4096 0) = false := by decide
theorem test_refuses_value : AsmLine.wellFormed (.wrcol 0 256) = false := by decide
theorem test_refuses_register : AsmLine.wellFormed (.bcast 256 0) = false := by decide
theorem test_refuses_row : AsmLine.wellFormed (.wrdot 0 16 1) = false := by decide
theorem test_refuses_dot_value : AsmLine.wellFormed (.wrdot 0 0 2) = false := by decide
theorem test_refuses_rot : AsmLine.wellFormed (.shl 2 0) = false := by decide
theorem test_refuses_fill : AsmLine.wellFormed (.shr 0 2) = false := by decide
theorem test_refuses_short_block : AsmLine.wellFormed (.stblk 0 [1, 2, 3]) = false := by decide
theorem test_refuses_block_byte : AsmLine.wellFormed (.stblk 0 [0, 0, 0, 0, 0, 0, 0, 256]) = false := by decide
theorem test_refuses_rdcol : AsmLine.wellFormed (.rdcol 4096) = false := by decide
theorem test_refuses_intensity : AsmLine.wellFormed (.intensity 256) = false := by decide
/-- B5: h > 8. -/
theorem test_refuses_tall_blit : assemble Regmap.standard 8 (.blit 0 0 2 9 [2, 9, 0, 0]) = none := by decide
theorem test_refuses_wide_blit : AsmLine.wellFormed (.blit 0 0 256 1 (List.replicate 258 0)) = false := by decide
theorem test_refuses_short_asset : AsmLine.wellFormed (.blita 0 0 [2, 8, 0]) = false := by decide
theorem test_refuses_headless_asset : AsmLine.wellFormed (.blita 0 0 [2]) = false := by decide
/-- R83: a column out of range for the chain is not refused. -/
theorem test_takes_clipped_column : assemble Regmap.standard 8 (.stage 4095 255) = some [.stage 4095 0xFF] := by decide

/-! Decoding: words written bit by bit from the formats of 30_encoding. -/

theorem test_decode_nop : decode (0b0000#4 ++ 0#28) 0 = .command .nop := by decide
theorem test_decode_init : decode (0b0001#4 ++ 0#28) 0 = .command .init := by decide
theorem test_decode_bcast : decode (0b0010#4 ++ 0#12 ++ 0b00001010#8 ++ 0b00000101#8) 0 = .command (.bcast 0x0A 0x05) := by
  decide
theorem test_decode_stage :
    decode (0b0011#4 ++ 0#4 ++ 0b000000000101#12 ++ 0#4 ++ 0b00111100#8) 0 = .command (.stage 5 0x3C) := by decide
theorem test_decode_wrcol :
    decode (0b0100#4 ++ 0#4 ++ 0b000000001001#12 ++ 0#4 ++ 0b10100101#8) 0 = .command (.wrcol 9 0xA5) := by decide
theorem test_decode_wrdot :
    decode (0b0101#4 ++ 0b1#1 ++ 0#3 ++ 0b000000001001#12 ++ 0b0001#4 ++ 0#8) 0 = .command (.wrdot 9 1 true) := by decide
theorem test_decode_wrall :
    decode (0b0110#4 ++ 0#4 ++ 0b000000001010#12 ++ 0#4 ++ 0b11111111#8) 0 = .command (.wrall 10 0xFF) := by decide
theorem test_decode_stblk :
    decode (0b0111#4 ++ 0#4 ++ 0b000000000110#12 ++ 0#12) 0x8877665544332211 = .command (.stblk 6 0x8877665544332211) := by
  decide
theorem test_decode_clear : decode (0b1000#4 ++ 0#28) 0 = .command .clear := by decide
theorem test_decode_flush : decode (0b1001#4 ++ 0#28) 0 = .command .flush := by decide
theorem test_decode_shl : decode (0b1010#4 ++ 0b01#2 ++ 0#26) 0 = .command (.shl false true) := by decide
theorem test_decode_shr : decode (0b1011#4 ++ 0b10#2 ++ 0#26) 0 = .command (.shr true false) := by decide
theorem test_decode_shu : decode (0b1100#4 ++ 0b10#2 ++ 0#26) 0 = .command (.shu true) := by decide
theorem test_decode_shd : decode (0b1101#4 ++ 0b10#2 ++ 0#26) 0 = .command (.shd true) := by decide
theorem test_decode_rdcol : decode (0b1110#4 ++ 0#4 ++ 0b000000001001#12 ++ 0#12) 0 = .command (.rdcol 9) := by decide

/-- The BAD words of 95_test_vectors 2.1, a must-be-zero bit set in each. -/
theorem test_decode_bad : [0x00000001, 0x0FFFFFFF, 0x20010000, 0x30000100, 0x51000000, 0x54000000, 0x7000A001, 0x80000001,
    0xC4000000, 0xE0009001, 0xE8000000].map (fun w => decode w 0) = List.replicate 11 (.bad .mustBeZero) := by decide
/-- 95_test_vectors 2.1: OP 0xF. -/
theorem test_decode_reserved : decode 0xF0000000 0 = .bad .reservedOpcode := by decide

/-! Configuration, frames and the bus (95_test_vectors 2.2, 2.3). -/

/-- The clamping table of 2.2: N_EFF and CLAMPED for MAX_DEVICES = 8. -/
theorem test_clamping : [0, 1, 8, 9, 65535].map (fun n => (effectiveCount 8 n, countClamped 8 n)) =
    [(1, true), (1, false), (8, false), (8, true), (8, true)] := by decide
/-- The same for the state: S1 and S3. -/
theorem test_reset_registers : (demo 2).outputs = ⟨true, 0x00, 0x0000, 2, false, true, true⟩ ∧
    (demo 9).outputs.status = 0x0002 ∧ (demo 9).outputs.nEff = 8 := by decide
/-- T1's bit stream. -/
theorem test_stream_T1 : stream [0x0B07] = [false, false, false, false, true, false, true, true,
    false, false, false, false, false, true, true, true] := by decide
/-- T2's bit stream: device 1's frame first. -/
theorem test_stream_T2 : stream [0x0000, 0x02A5] = [false, false, false, false, false, false, true, false,
    true, false, true, false, false, true, false, true] ++ List.replicate 16 false := by decide

/-! One-step tests. -/

/-- 40_bus_transport R96. -/
theorem test_nop : seen [.nop] (blank 1) (fun t => (t.busLog, t.status.word)) = some ([], 0x0000) := by decide
/-- T4: the thirteen transactions. -/
theorem test_init_bus : seen [.init] (demo 1) State.busLog = some [[0x0B07], [0x0900], [0x0C01], [0x0F00], [0x0100],
    [0x0200], [0x0300], [0x0400], [0x0500], [0x0600], [0x0700], [0x0800], [0x0A08]] := by decide
/-- T4: FB[0..7] = 0. -/
theorem test_init_fb : seen [.init] (demo 1) fbBytes = some (List.replicate 8 0x00) := by decide
/-- T1. -/
theorem test_bcast : seen [.bcast 0x0B 0x07] (blank 1) (fun t => (t.busLog, t.devReg 0 0x0B, t.dataO, t.clkO, t.loadO)) =
    some ([[0x0B07]], some 0x07, true, true, true) := by decide
/-- T3: the NOOP address reaches the bus and no register. -/
theorem test_bcast_noop : seen [.bcast 0x00 0x55] (blank 3) (fun t => (t.busLog, t.devReg 0 0x00)) =
    some ([[0x0055, 0x0055, 0x0055]], some 0x00) := by decide
/-- W1. -/
theorem test_stage : seen [.stage 5 0x3C] (blank 2) (fun t => (t.fb.read 5, t.busLog, t.devReg 0 0x06)) =
    some (some 0x3C, [], some 0x00) := by decide
/-- W2: clipped. -/
theorem test_stage_clipped : seen [.stage 16 0x3C] (blank 2) State.fb = some (blank 2).fb := by decide
/-- W3. -/
theorem test_wrcol : seen [.wrcol 9 0xA5] (blank 2) (fun t => (t.fb.read 9, t.busLog, t.devReg 1 0x02, t.devReg 0 0x02)) =
    some (some 0xA5, [[0x0000, 0x02A5]], some 0xA5, some 0x00) := by decide
/-- W5: WRDOT of a dot already set still performs its transaction. -/
theorem test_wrdot : seen [.wrdot 9 1 true] (known 2 fun c => if c = 9 then 0xA7 else 0)
    (fun t => (t.fb.read 9, t.busLog)) = some (some 0xA7, [[0x0000, 0x02A7]]) := by decide
/-- W7: the staged bits travel along. -/
theorem test_wrdot_staged : seen [.wrdot 5 0 true] (known 2 fun c => if c = 5 then 0x3C else 0)
    (fun t => (t.fb.read 5, t.busLog, t.devReg 0 0x06)) = some (some 0x3D, [[0x063D, 0x0000]], some 0x3D) := by decide
/-- W8 and L1-6. -/
theorem test_wrall : seen [.wrall 3 0xFF] (blank 2) (fun t => (t.fb.read 3, t.fb.read 11, t.fb.read 0, t.busLog)) =
    some (some 0xFF, some 0xFF, some 0x00, [[0x04FF, 0x04FF]]) := by decide
/-- W9: clipped although 10 < TOTAL. -/
theorem test_wrall_clipped : seen [.wrall 10 0xFF] (blank 2) (fun t => (t.fb, t.busLog)) = some ((blank 2).fb, []) := by
  decide
/-- W10. -/
theorem test_stblk : seen [.stblk 6 0x8877665544332211] (blank 2) fbBytes =
    some [0, 0, 0, 0, 0, 0, 0x11, 0x22, 0x33, 0x44, 0x55, 0x66, 0x77, 0x88, 0, 0] := by decide
/-- W11: bytes 4..7 are clipped. -/
theorem test_stblk_clipped : seen [.stblk 12 0x8877665544332211] (blank 2) (fun t => (fbBytes t, t.busLog)) =
    some ([0, 0, 0, 0, 0, 0, 0, 0, 0, 0, 0, 0, 0x11, 0x22, 0x33, 0x44], []) := by decide
/-- W14. -/
theorem test_clear : seen [.clear] (counting 1) (fun t => (fbBytes t, t.busLog)) =
    some (List.replicate 8 0, [[0x0100], [0x0200], [0x0300], [0x0400], [0x0500], [0x0600], [0x0700], [0x0800]]) := by decide
/-- W12. -/
theorem test_flush : seen [.flush] (known 2 fun c => BitVec.ofNat 8 c) State.busLog =
    some [[0x0100, 0x0108], [0x0201, 0x0209], [0x0302, 0x030A], [0x0403, 0x040B], [0x0504, 0x050C], [0x0605, 0x060D],
      [0x0706, 0x070E], [0x0807, 0x080F]] := by decide
/-- 2.5: SHL 1, 1. -/
theorem test_shl_rot : seen [.shl true true] (counting 1) fbBytes = some [2, 3, 4, 5, 6, 7, 8, 1] := by decide
/-- 2.5: SHL 0, 0 keeps the stale edge column. -/
theorem test_shl_stale : seen [.shl false false] (counting 1) fbBytes = some [2, 3, 4, 5, 6, 7, 8, 8] := by decide
/-- 2.5: SHR 1, 1. -/
theorem test_shr_rot : seen [.shr true true] (counting 1) fbBytes = some [8, 1, 2, 3, 4, 5, 6, 7] := by decide
/-- 2.5: SHR 0, 1. -/
theorem test_shr_fill : seen [.shr false true] (counting 1) fbBytes = some [0, 1, 2, 3, 4, 5, 6, 7] := by decide
/-- 2.5: SHU 1 on 0x81. -/
theorem test_shu_rot : seen [.shu true] (known 1 fun _ => 0x81) fbBytes = some (List.replicate 8 0xC0) := by decide
/-- 2.5: SHU 0 on 0x81. -/
theorem test_shu : seen [.shu false] (known 1 fun _ => 0x81) fbBytes = some (List.replicate 8 0x40) := by decide
/-- 2.5: SHD 1 on 0x81. -/
theorem test_shd_rot : seen [.shd true] (known 1 fun _ => 0x81) fbBytes = some (List.replicate 8 0x03) := by decide
/-- 2.5: SHD 0 on 0x81. -/
theorem test_shd : seen [.shd false] (known 1 fun _ => 0x81) fbBytes = some (List.replicate 8 0x02) := by decide
/-- W13. -/
theorem test_rdcol : seen [.rdcol 9] (known 2 fun c => if c = 9 then 0xA5 else 0) State.rsp = some 0xA5 := by decide
/-- W13: out of range. -/
theorem test_rdcol_out_of_range : seen [.rdcol 16] (known 2 fun _ => 0xA5) State.rsp = some 0x00 := by decide

/-- T1 just before its LOAD edge: all sixteen bits are out. -/
def beforeLoad : State :=
  { (blank 1).setBusy true with
    seq := some ⟨some (.bcast 0x0B 0x07), [.txn [0x0B07]], 0, 16, .clockLow⟩
    so := stream [0x0B07]
    loadO := false
    dev := [⟨0x0B07, Memory.ofFn 256 fun _ => 0x00⟩] }

/-- T1 before the CLOCK edge of its first bit. -/
def beforeClock : State :=
  { (blank 1).setBusy true with
    seq := some ⟨some (.bcast 0x0B 0x07), [.txn [0x0B07]], 0, 0, .clockHigh⟩
    so := stream [0x0B07]
    dataO := true
    clkO := false
    loadO := false
    dev := [⟨0x8001, Memory.ofFn 256 fun _ => 0x00⟩] }

/-- RDCOL at pin level, its RSP write to come. -/
def beforeRsp : State :=
  { (blank 1).setBusy true with seq := some ⟨some (.rdcol 0), [.rsp 0x5A], 0, 0, .ready⟩ }

/-- 40_bus_transport R90, R94: the LOAD edge commits, and BUSLOG takes the frame vector. -/
theorem test_load_edge : beforeLoad.pinStep.devReg 0 0x0B = some 0x07 ∧ beforeLoad.pinStep.busLog = [[0x0B07]] ∧
    beforeLoad.pinStep.pinLog = [.write .load true] := by decide
/-- 40_bus_transport R90, R92: the CLOCK edge shifts DATA into device 0, and the index moves on. -/
theorem test_clock_edge : (beforeClock.pinStep.dev.map Device.sr, beforeClock.pinStep.clkO,
    beforeClock.pinStep.seq.map Sequencer.bitIndex) = ([0x0003], true, some 1) := by decide

/-- 10_state R28: BUSY falls with the LOAD edge of the command's last transaction. -/
theorem test_busy_falls_at_last_load_edge : (beforeLoad.loadO, beforeLoad.busy) = (false, true) ∧
    (beforeLoad.pinStep.loadO, beforeLoad.pinStep.busy, beforeLoad.pinStep.seq) = (true, false, none) := by decide
/-- 10_state R28: the last transactions of WRCOL, WRALL and CLEAR have no FB write after them (the address and the value
of 41_framebuffer_write R111's example, on one device). -/
theorem test_last_effect_is_transaction : plan (.wrcol 1 0xA5) (blank 1) = [.fb 1 0xA5, .txn [0x02A5]] ∧
    plan (.wrall 3 0xFF) (blank 2) = [.fb 3 0xFF, .fb 11 0xFF, .txn [0x04FF, 0x04FF]] ∧
    (plan .clear (blank 1)).getLast? = some (.txn [0x0800]) := by decide

/-- 95_test_vectors S2: STATUS after the word 0xF0000000. -/
theorem test_bad_word_status : (match step ((blank 2).withFetchWord 32 0xF0000000) with
    | .next t => some t.status.word
    | .fault _ => none
    | .refused _ => none) = some 0x0004 := by decide

/-- 60_exceptions R164, 70_reset_and_hazards R173: a reset the host times falls inside a transaction, and the step after it
aborts the command. -/
theorem test_reset_inside_transaction :
    (({ beforeClock with resets := [⟨0, 3⟩] } : State).pinStep.rst, ({ beforeClock with resets := [⟨0, 3⟩] } : State).pinStep.loadO,
      ({ beforeClock with resets := [⟨0, 3⟩] } : State).pinStep.pinStep.seq,
      ({ beforeClock with resets := [⟨0, 3⟩] } : State).pinStep.pinStep.outputs.nEff,
      ({ beforeClock with resets := [⟨0, 3⟩] } : State).pinStep.pinStep.busLog) = (true, false, none, 3, []) := by decide
/-- 60_exceptions R167: after the last command, with a reset move still to come, the run of commands has ended; with a
command still to issue it has not. -/
theorem test_run_ended : ({ blank 1 with host := [.reset 2] } : State).runEnded = true ∧
    ((blank 1).assertReset 2).runEnded = true ∧ ({ blank 1 with host := [.issue 0 0] } : State).runEnded = false ∧
    ({ blank 1 with cmdValid := true } : State).runEnded = false ∧ beforeLoad.runEnded = false := by decide

/-- The opcode table's numbering: the decoder and the very next step agree on STBLK with its block. -/
theorem test_table_word_with_block :
    decodeTableWord 96 (0x70006000 + 0x8877665544332211 * 2 ^ 32) = some (.stblk 6 0x8877665544332211) := by decide

/-! The pseudo-instructions (30_encoding R84). -/

theorem test_pseudo_shifts : assemble Regmap.standard 8 (.shlDefault 0) = some [.shl false true] ∧
    assemble Regmap.standard 8 (.shrDefault 1) = some [.shr true true] := by decide
theorem test_pseudo_registers : assemble Regmap.standard 8 (.setreg 0x0B 7) = some [.bcast 0x0B 0x07] ∧
    assemble Regmap.standard 8 (.intensity 8) = some [.bcast 0x0A 0x08] := by decide

/-! The host's blits (95_test_vectors 2.6). -/

/-- B1. -/
theorem test_blit_B1 : (assemble Regmap.standard 16 (.blita 14 0 [4, 8, 0x11, 0x22, 0x33, 0x44])).map
    (fun is => is.map encode) = some [0x4000E011, 0x4000F022] := by decide
/-- B2. -/
theorem test_blit_B2 : (assemble Regmap.standard 8 (.blit 6 6 3 3 [3, 3, 0b101, 0b010, 0b111])).map
    (fun is => is.map encode) = some [0x58006600, 0x50006700, 0x50007600, 0x58007700] := by decide
/-- B3. -/
theorem test_blit_B3 : (assemble Regmap.standard 8 (.blit (-2) 0 3 8 [3, 8, 0xAA, 0xBB, 0xCC])).map
    (fun is => is.map encode) = some [0x400000CC] := by decide
/-- B4. -/
theorem test_blit_B4 : assemble Regmap.standard 8 (.blit 8 0 1 8 [1, 8, 0xFF]) = some [] := by decide

/-! A witness for every statement with hypotheses: a concrete state and operands that meet all of them together. -/

/-- A state that has the machine's shape is sound: one device, FB of eight cells. -/
theorem known_sound (n : Nat) (f : Nat → Byte) (h1 : 1 ≤ n) (h8 : n ≤ 8) : (known n f).Sound := by
  have hn : effectiveCount 8 (BitVec.ofNat 16 n) = n := by simp [effectiveCount]; omega
  have hd : (known n f).deviceCount = n := by
    show (BitVec.ofNat 10 (effectiveCount 8 (BitVec.ofNat 16 n))).toNat = n
    rw [hn]; simp; omega
  constructor
  · exact (by decide : demoParams.Wf)
  · rw [hd]; exact h1
  · rw [hd]; exact h8
  · rw [State.total, hd]; exact addresses_ofFn _ _
  · rw [hd]; exact List.length_replicate
  · intro d hd; rw [List.eq_of_mem_replicate hd]; exact addresses_ofFn _ _
  · rfl
  · intro _; exact ⟨rfl, rfl⟩
  · intro q hq; cases hq

theorem blank_sound : (blank 2).Sound := known_sound 2 _ (by decide) (by decide)

/-- The statements over a sound block with no command executing: BcastWritesEveryDevice, InitSendsStartUpSequence,
ClearZeroesDevices, FlushSendsFramebuffer, the four shifts, BlitTransactionCount, TransactionCounts. -/
theorem witness_sound_idle : (blank 2).Sound ∧ (blank 2).seq = none := ⟨blank_sound, rfl⟩

theorem witness_DecodeOfEncode :
    (∀ off data, Instr.wrcol 9 0xA5 = .stblk off data → (0 : Block) = data) ∧
    (∀ off data, Instr.stblk 6 7 = .stblk off data → (7 : Block) = data) := by simp
theorem witness_EncodeOfDecode : decode 0x400090A5 0 = .command (.wrcol 9 0xA5) := by decide
/-- One word for each clause, the last for the BAD clause. -/
theorem witness_DecodeFollowsOpcodeMap :
    (opTable.map fun r => r.matchesWord r.pattern) = List.replicate 15 true ∧
    (opTable.all fun r => !r.matchesWord 0xF0000000) = true := by decide
theorem witness_BlitEmitsOnlyInRange : (16 : Nat) ≤ 4096 ∧ ((16 : Nat) : Int) ≤ 16 ∧
    Instr.wrcol 15 0x22 ∈ expandBlit 16 15 0 1 8 [1, 8, 0x22] := by decide
theorem witness_BlitEndState : (blank 2).Sound ∧ (blank 2).seq = none ∧ blitOk 3 3 [3, 3, 5, 2, 7] = true ∧
    (blank 2).params.regmap.ColumnsDistinct ∧ 15 < (blank 2).total ∧
    ((13 : Int) ≤ (15 : Nat) ∧ ((15 : Nat) : Int) < 13 + (3 : Nat)) ∧ ¬ ((13 : Int) ≤ (12 : Nat)) :=
  ⟨blank_sound, rfl, by decide, by decide, by decide, by decide, by decide⟩
theorem witness_BlitTransactionCount : (blank 2).Sound ∧ (blank 2).seq = none := witness_sound_idle
theorem witness_OutputPortsShowRegisters : (3 : Nat) ≤ 3 ∧ (3 : Nat) ≤ 15 ∧ (blank 2).rst = false ∧
    ((blank 2).assertReset 2).rst = true := by decide
theorem witness_GlobalColumnMapping : (7 : Nat) < 8 := by decide
theorem witness_StreamIsFarthestFirst : 31 < 16 * ([0x0000, 0x02A5] : List Frame).length := by decide
theorem witness_ShiftedChainHoldsFrames : ([0x0000, 0x02A5] : List Frame).length = (blank 2).dev.length := by decide
/-- The register the frame names, another register, and a no-op frame. -/
theorem witness_LoadEdgeCommits : beforeLoad.loadO = false ∧
    beforeLoad.dev[0]? = some ⟨0x0B07, Memory.ofFn 256 fun _ => 0x00⟩ ∧
    (0x0B : Byte) = (0x0B07 : BitVec 16).extractLsb' 8 8 ∧ (0x0B : Byte) ≠ beforeLoad.params.regmap.noop ∧
    (0x0C : Byte) ≠ (0x0B07 : BitVec 16).extractLsb' 8 8 ∧
    beforeLoad.params.regmap.noop = (0x0055 : BitVec 16).extractLsb' 8 8 :=
  ⟨rfl, rfl, by decide, by decide, by decide, by decide⟩
theorem beforeLoad_sound : beforeLoad.Sound := by
  refine ⟨by decide, by decide, by decide, addresses_ofFn _ _, by decide, ?_, rfl, (fun h => by cases h), ?_⟩
  · intro d hd; rw [List.mem_singleton.1 hd]; exact addresses_ofFn _ _
  · rintro q ⟨⟩
    refine ⟨fun a ha => ?_, rfl, rfl, ⟨_, _, rfl, rfl⟩, by decide⟩
    rw [List.mem_singleton.1 ha]; show _ = _; decide
theorem witness_DeviceRegistersChangeOnlyAtLoadEdge : beforeLoad.Sound ∧ beforeLoad.rst = false ∧
    beforeLoad.pinStep.dev.map Device.reg ≠ beforeLoad.dev.map Device.reg := by
  refine ⟨beforeLoad_sound, rfl, fun h => ?_⟩
  have h0 := congrArg (fun l => (l.map fun m => m.read 0x0B)) h
  revert h0; decide
theorem witness_BcastWritesEveryDevice : (blank 2).Sound ∧ (blank 2).seq = none ∧ 1 < (blank 2).deviceCount ∧
    (0x0B : Byte) ≠ (blank 2).params.regmap.noop ∧ (0x00 : Byte) = (blank 2).params.regmap.noop :=
  ⟨blank_sound, rfl, by decide, by decide, by decide⟩
theorem witness_InitSendsStartUpSequence : (blank 2).Sound ∧ (blank 2).seq = none ∧ 15 < (blank 2).total ∧
    (0x0D : Byte) ∉ (blank 2).params.regmap.addresses.tail := ⟨blank_sound, rfl, by decide, by decide⟩
theorem witness_InitConfiguresEveryDevice : (blank 2).Sound ∧ (blank 2).seq = none ∧
    (blank 2).params.regmap.Distinct ∧ 1 < (blank 2).deviceCount := ⟨blank_sound, rfl, by decide, by decide⟩
theorem witness_WrcolWritesColumnAndDevice : (blank 2).Sound ∧ (blank 2).seq = none ∧
    (15 : BitVec 12).toNat < (blank 2).total := ⟨blank_sound, rfl, by decide⟩
theorem witness_WrdotSetsExactlyOneBit : (15 : BitVec 12).toNat < (blank 2).total ∧ (7 : BitVec 4).toNat < 8 := by decide
theorem witness_WrdotSendsWholeColumn : (blank 2).Sound ∧ (blank 2).seq = none ∧
    (15 : BitVec 12).toNat < (blank 2).total ∧ (7 : BitVec 4).toNat < 8 := ⟨blank_sound, rfl, by decide, by decide⟩
theorem witness_WrallWritesEveryDevice : (blank 2).Sound ∧ (blank 2).seq = none ∧ (7 : BitVec 12).toNat < 8 ∧
    (∀ k, k < (blank 2).deviceCount → 3 ≠ k * 8 + (7 : BitVec 12).toNat) := ⟨blank_sound, rfl, by decide, by decide⟩
theorem witness_ClearZeroesFramebuffer : 15 < (blank 2).total := by decide
theorem witness_ClearZeroesDevices : (blank 2).Sound ∧ (blank 2).seq = none ∧ (blank 2).total ≤ 16 ∧
    (0x09 : Byte) ∉ (blank 2).params.regmap.cols.toList ∧
    (blank 2).params.regmap.noop ∉ (blank 2).params.regmap.cols.toList :=
  ⟨blank_sound, rfl, by decide, by decide, by decide⟩
theorem witness_FlushSendsFramebuffer : (blank 2).Sound ∧ (blank 2).seq = none ∧
    (0x09 : Byte) ∉ (blank 2).params.regmap.cols.toList := ⟨blank_sound, rfl, by decide⟩
theorem witness_FlushResynchronises : (blank 2).Sound ∧ (blank 2).seq = none ∧
    (blank 2).params.regmap.ColumnsDistinct := ⟨blank_sound, rfl, by decide⟩
theorem witness_RdcolReadsCell : (blank 2).Sound ∧ (15 : BitVec 12).toNat < (blank 2).total ∧
    (blank 2).total ≤ (16 : BitVec 12).toNat := ⟨blank_sound, by decide, by decide⟩
theorem witness_WriteThenReadReturnsValue : (15 : BitVec 12).toNat < (blank 2).total := by decide
theorem witness_ClippedCommandsDoNothing : (blank 2).total ≤ (16 : BitVec 12).toNat ∧ 8 ≤ (8 : BitVec 4).toNat ∧
    8 ≤ (8 : BitVec 12).toNat := by decide
theorem witness_ShlMovesColumnsLeft : (blank 2).Sound ∧ (blank 2).seq = none ∧ 14 + 1 < (blank 2).total :=
  ⟨blank_sound, rfl, by decide⟩
theorem witness_ShrMovesColumnsRight : (blank 2).Sound ∧ (blank 2).seq = none ∧ 14 + 1 < (blank 2).total :=
  ⟨blank_sound, rfl, by decide⟩
theorem witness_ShuMovesRowsUp : (blank 2).Sound ∧ (blank 2).seq = none ∧ 15 < (blank 2).total :=
  ⟨blank_sound, rfl, by decide⟩
theorem witness_ShdMovesRowsDown : (blank 2).Sound ∧ (blank 2).seq = none ∧ 15 < (blank 2).total :=
  ⟨blank_sound, rfl, by decide⟩
theorem witness_ShlFillsLastColumnWithZero : (blank 2).Sound ∧ 14 < (blank 2).total - 1 := ⟨blank_sound, by decide⟩
theorem witness_CyclicColumnShiftsRestore : (blank 2).Sound ∧ (blank 2).seq = none ∧
    (blank 2).params.regmap.ColumnsDistinct := ⟨blank_sound, rfl, by decide⟩
theorem witness_CyclicRowShiftsRestore : (blank 2).Sound := blank_sound
theorem witness_OppositeShiftsCancel : (blank 2).Sound := blank_sound
/-- In sync, and brought into sync, and possibly taken out of it. -/
theorem witness_SyncTable : (blank 2).Sound ∧ (blank 2).seq = none ∧ (blank 2).params.regmap.Distinct ∧
    9 < (blank 2).total ∧ (blank 2).inSync 9 ∧ bringsIntoSync (blank 2) (.wrcol 9 0xA5) 9 = true ∧
    bringsIntoSync (blank 2) (.bcast 0x02 0x00) 9 = true ∧ mayBreakSync (blank 2) (.stage 9 1) 9 = true ∧
    mayBreakSync (blank 2) (.stage 8 1) 9 = false :=
  ⟨blank_sound, rfl, by decide, by decide, ⟨zeroDevice, rfl, by decide⟩, by decide, by decide, by decide, by decide⟩
theorem witness_TransactionCounts : (blank 2).Sound ∧ (blank 2).seq = none := witness_sound_idle
theorem witness_OnlyRdcolWritesRsp : beforeRsp.pinStep.rsp ≠ beforeRsp.rsp ∧ beforeRsp.rst = false ∧
    seen [.rdcol 0] (known 1 fun _ => 0xA5) State.rsp ≠ some (known 1 fun _ => 0xA5).rsp := by decide
theorem witness_ConfigurationFixed : (blank 2).rst = false := by decide
theorem witness_BadCmdSticky : (blank 2).raiseBadCmd.status.badCmd = true ∧ (blank 2).raiseBadCmd.rst = false := by decide
/-- A word offered to an idle block, for the first two clauses of StepRunsDecodedCommand, and with a reset timed for the
third. -/
theorem witness_StepRunsDecodedCommand :
    ((blank 2).withFetchWord 32 0x400090A5).rst = false ∧ ((blank 2).withFetchWord 32 0x400090A5).status.busy = false ∧
    ((blank 2).withFetchWord 32 0x400090A5).cmdValid = true ∧ ((blank 2).withFetchWord 32 0x400090A5).resets = [] ∧
    decode ((blank 2).withFetchWord 32 0x400090A5).cmd ((blank 2).withFetchWord 32 0x400090A5).cmdData =
      .command (.wrcol 9 0xA5) ∧
    decodeTableWord 32 0x400090A5 = some (.wrcol 9 0xA5) ∧
    (∃ t, exec (.wrcol 9 0xA5) ((blank 2).withFetchWord 32 0x400090A5) = .next t) ∧
    ((blank 2).withFetchWord 32 0x400090A5).seq = none ∧
    ({ (blank 2).withFetchWord 32 0x400090A5 with resets := [⟨0, 1⟩] } : State).resets ≠ [] :=
  ⟨rfl, rfl, rfl, rfl, by decide, by decide, ⟨_, rfl⟩, rfl, by decide⟩
theorem witness_BadWordSetsOnlyBadCmd :
    ((blank 2).withFetchWord 32 0xF0000000).rst = false ∧ ((blank 2).withFetchWord 32 0xF0000000).status.busy = false ∧
    ((blank 2).withFetchWord 32 0xF0000000).cmdValid = true ∧
    decode ((blank 2).withFetchWord 32 0xF0000000).cmd ((blank 2).withFetchWord 32 0xF0000000).cmdData =
      .bad .reservedOpcode ∧
    ((blank 2).withFetchWord 32 0xF0000000).resets = [] ∧ ((blank 2).withFetchWord 32 0xF0000000).seq = none ∧
    ({ (blank 2).withFetchWord 32 0xF0000000 with resets := [⟨0, 1⟩] } : State).resets ≠ [] := by decide
/-- A command executing, with another offered meanwhile. -/
theorem witness_CommandsDoNotInterleave :
    ({ beforeLoad with cmdValid := true } : State).seq =
      some ⟨some (.bcast 0x0B 0x07), [.txn [0x0B07]], 0, 16, .clockLow⟩ ∧
    ({ beforeLoad with cmdValid := true } : State).status.busy = true ∧
    ({ beforeLoad with cmdValid := true } : State).rst = false ∧
    ({ beforeLoad with cmdValid := true } : State).cmdValid = true := ⟨rfl, rfl, rfl, rfl⟩
theorem witness_PinLevelRefinesCommand : ({ blank 2 with cmdValid := true } : State).Sound ∧
    ({ blank 2 with cmdValid := true } : State).seq = none ∧ ({ blank 2 with cmdValid := true } : State).rst = false ∧
    ({ blank 2 with cmdValid := true } : State).cmdValid = true ∧ ({ blank 2 with cmdValid := true } : State).resets = [] := by
  obtain ⟨h1, h2, h3, h4, h5, h6, h7, h8, h9⟩ := blank_sound
  exact ⟨⟨h1, h2, h3, h4, h5, h6, h7, h8, h9⟩, rfl, rfl, rfl, rfl⟩
/-- The clause of PinLevelRefinesCommand on words that perform transactions. -/
theorem witness_PinLevelRefinesCommand_transactions :
    (match step ((blank 1).withFetchWord 32 0x20000A05) with
    | .next t => t.busLog
    | .fault _ => []
    | .refused _ => []) ≠ ((blank 1).withFetchWord 32 0x20000A05).busLog := by decide
theorem witness_ResetState : ((blank 2).assertReset 2).params.Wf ∧ ((blank 2).assertReset 2).rst = true ∧
    15 < ((blank 2).assertReset 2).applyReset.total ∧ 1 < ((blank 2).assertReset 2).applyReset.deviceCount := by decide
theorem witness_ResetCutsTransaction : ({ beforeLoad with rst := true } : State).params.Wf ∧
    ({ beforeLoad with rst := true } : State).rst = true ∧ ({ beforeLoad with rst := true } : State).loadO = false := by
  decide
theorem witness_StepKeepsSound : beforeLoad.Sound := beforeLoad_sound

/-- Every clause of AssemblerWords that takes a line, at the operands' upper bounds. -/
theorem witness_AssemblerWords_takes : ([.bcast 255 255, .stage 4095 255, .wrcol 4095 255, .wrdot 4095 15 1,
    .wrall 4095 255, .stblk 4095 [255, 255, 255, 255, 255, 255, 255, 255], .shl 1 1, .shr 1 1, .shu 1, .shd 1,
    .rdcol 4095] : List AsmLine).all AsmLine.wellFormed = true := by decide
/-- Every clause of AssemblerWords that refuses a line, just above an operand's bound. -/
theorem witness_AssemblerWords_refuses : ([.stage 4096 255, .wrcol 4095 256, .wrall 4096 0, .bcast 255 256,
    .wrdot 4095 16 1, .stblk 4096 [0, 0, 0, 0, 0, 0, 0, 0], .shl 2 1, .shr 1 2, .shu 2, .shd 2, .rdcol 4096] :
    List AsmLine).any AsmLine.wellFormed = false := by decide

/-- Every clause of PseudoInstructionsAndBlitRefusals at its bounds: the lines taken. -/
theorem witness_PseudoInstructions_take : ([.shlDefault 1, .shrDefault 1, .setreg 255 255, .intensity 255,
    .blit 0 0 1 8 [1, 8, 0xFF], .blita 0 0 [1, 8, 0xFF]] : List AsmLine).all AsmLine.wellFormed = true := by decide
/-- And the lines refused: a byte too few, a row too many, no header. -/
theorem witness_PseudoInstructions_refuse : ([.blit 0 0 1 8 [1, 8], .blit 0 0 1 9 [1, 9, 0xFF], .blita 0 0 [1, 8],
    .blita 0 0 [1, 9, 0xFF], .blita 0 0 [1]] : List AsmLine).any AsmLine.wellFormed = false := by decide
/-- In the middle of a transaction, with a reset due now, and with one still to come. -/
theorem witness_HostResetsAtAnyTime : ({ beforeClock with resets := [⟨0, 1⟩] } : State).rst = false ∧
    ({ beforeClock with resets := [⟨0, 1⟩] } : State).resets = ⟨0, 1⟩ :: [] ∧
    ({ beforeClock with resets := [⟨3, 1⟩] } : State).resets = ⟨2 + 1, 1⟩ :: [] := by decide

end Sys2Proof.Tests
end

section
/-! The global column mapping (00_scope R18): `globalOf` and the pair `deviceOf`, `localOf` are inverse to each other. -/

namespace Sys2Proof.Proofs

open Sys2Proof.Machine Sys2Proof.Laws

@[simp] theorem deviceOf_globalOf {k lc : Nat} (h : lc < 8) : deviceOf (globalOf k lc) = k := by
  rw [deviceOf_def, globalOf_def]; omega

@[simp] theorem localOf_globalOf {k lc : Nat} (h : lc < 8) : localOf (globalOf k lc) = lc := by
  rw [localOf_def, globalOf_def]; omega

@[simp] theorem globalOf_deviceOf_localOf (c : Nat) : globalOf (deviceOf c) (localOf c) = c :=
  Nat.div_add_mod' c 8

/-- Settles O12: the formula is `globalOf`'s own, and the three inverse laws are the lemmas above. -/
theorem globalColumnMapping : Obligations.GlobalColumnMapping := fun k lc h =>
  ⟨globalOf_def k lc, deviceOf_globalOf h, localOf_globalOf h, globalOf_deviceOf_localOf⟩

end Sys2Proof.Proofs
end

section
/-! STATUS.BADCMD (10_state R29): what the sequencer's operations and the step leave of it. -/

namespace Sys2Proof.Proofs

open Sys2Proof.Machine Sys2Proof.Laws

/-- What a step is: a command run whole, a rejection, or one micro-step. -/
theorem step_cases (s : State) :
    (∃ i, decode s.cmd s.cmdData = .command i ∧ (s.cmdValid && s.cmdReady && s.resets.isEmpty) = true ∧
      step s = .next (s.perform (plan i s)).completed) ∨
    (∃ why, decode s.cmd s.cmdData = .bad why ∧ (s.cmdValid && s.cmdReady && s.resets.isEmpty) = true ∧
      step s = .next s.raiseBadCmd.completed) ∨
    ((s.cmdValid && s.cmdReady && s.resets.isEmpty) = false ∧ step s = .next s.pinStep) := by
  cases hg : s.cmdValid && s.cmdReady && s.resets.isEmpty with
  | false => exact .inr (.inr ⟨rfl, by simp [step, hg]⟩)
  | true =>
    cases hd : decode s.cmd s.cmdData with
    | command i => exact .inl ⟨i, rfl, rfl, by simp [step, hg, hd, exec_eq_perform]⟩
    | bad why => exact .inr (.inl ⟨why, rfl, rfl, by simp [step, hg, hd]⟩)

@[simp] theorem completed_status (s : State) : s.completed.status = s.status := by
  simp [State.completed]

/-- No action clears BADCMD: one sets it, the others leave STATUS alone. -/
theorem act_keeps_badCmd {s : State} (h : s.status.badCmd = true) (a : Action) : (s.act a).status.badCmd = true := by
  cases a with
  | badCmd => rfl
  | _ => simpa [State.act] using h

theorem perform_keeps_badCmd {s : State} (h : s.status.badCmd = true) (as : List Action) :
    (s.perform as).status.badCmd = true := by
  induction as generalizing s with
  | nil => exact h
  | cons a as ih => exact ih (act_keeps_badCmd h a)

@[simp] theorem txnStep_status_badCmd (s : State) (q : Sequencer) (F : List Frame) (rest : List Action) :
    (s.txnStep q F rest).status.badCmd = s.status.badCmd := by
  unfold State.txnStep
  split
  case h_2 => split <;> simp
  all_goals simp

@[simp] theorem start_status_badCmd (s : State) (command : Option Instr) (todo : List Action) :
    (s.start command todo).status.badCmd = s.status.badCmd := by
  simp [State.start]

@[simp] theorem accept_status_badCmd (s : State) : s.accept.status.badCmd = s.status.badCmd := by
  unfold State.accept
  split <;> exact start_status_badCmd ..

theorem seqStep_keeps_badCmd {s : State} (h : s.status.badCmd = true) (q : Sequencer) :
    (s.seqStep q).status.badCmd = true := by
  unfold State.seqStep
  split
  · simpa using h
  · simpa using h
  · simpa using act_keeps_badCmd h _

theorem microStep_keeps_badCmd {s : State} (h : s.status.badCmd = true) : s.microStep.status.badCmd = true := by
  unfold State.microStep
  split
  · exact seqStep_keeps_badCmd h _
  · split <;> simpa using h

/-- Outside reset, a micro-step keeps BADCMD: the host's timed resets are asserted at its end, and applied only in the
next one. -/
theorem pinStep_keeps_badCmd {s : State} (h : s.status.badCmd = true) (hr : s.rst = false) :
    s.pinStep.status.badCmd = true := by
  simpa [State.pinStep, hr] using microStep_keeps_badCmd h

theorem step_keeps_badCmd {s : State} (h : s.status.badCmd = true) (hr : s.rst = false) :
    ∃ t, step s = .next t ∧ t.status.badCmd = true := by
  obtain ⟨i, -, -, hs⟩ | ⟨why, -, -, hs⟩ | ⟨-, hs⟩ := step_cases s
  · exact ⟨_, hs, by simpa using perform_keeps_badCmd h (plan i s)⟩
  · exact ⟨_, hs, by simp⟩
  · exact ⟨_, hs, pinStep_keeps_badCmd h hr⟩

/-- Settles O49: `raiseBadCmd` sets the bit and `applyReset` clears it by definition; in between every action, and so
every micro-step and every step, keeps it. -/
theorem badCmdSticky : Obligations.BadCmdSticky :=
  ⟨fun _ => rfl, fun _ h hr => ⟨pinStep_keeps_badCmd h hr, step_keeps_badCmd h hr⟩, fun _ => rfl⟩

end Sys2Proof.Proofs
end

section
/-! A frame's layout and its bits in shift order (20_memory R48). -/

namespace Sys2Proof.Proofs

open Sys2Proof.Machine Sys2Proof.Laws

/-- The layout bit by bit: bits 15:8 of a frame are its address, bits 7:0 its value. -/
theorem getLsbD_frame (a v : Byte) (i : Nat) :
    (frame a v).getLsbD i = if i < 8 then v.getLsbD i else a.getLsbD (i - 8) :=
  BitVec.getLsbD_append

/-- Settles O13: the sixteen shifts read bits 15 to 0, and the layout sends each to its byte: the first eight to the
address, the last eight to the value. -/
theorem frameShiftedAddressFirst : Obligations.FrameShiftedAddressFirst := by
  intro a v
  have shiftOrder : List.range 16 = [0, 1, 2, 3, 4, 5, 6, 7] ++ [8, 9, 10, 11, 12, 13, 14, 15] := rfl
  simp [frameBits, shiftOrder, getLsbD_frame]

end Sys2Proof.Proofs
end

section
/-! The opcode map as the decoder follows it (30_encoding R77, R78): one row at a time, and BAD where no row matches. -/

namespace Sys2Proof.Proofs

open Sys2Proof.Laws

/-- A row's own mask and match decide: the word is read by that row. -/
theorem decode_opTable_get (k : Fin 15) (w : Word) (d : Block)
    (h : w &&& (opTable.get k).mask = (opTable.get k).pattern) : decode w d = .command ((opTable.get k).read w d) :=
  decode_of_row (opTable.get_mem k) (beq_iff_eq.2 h) d

theorem decode_bad_of_no_row {w : Word} (h : ∀ r ∈ opTable, w &&& r.mask ≠ r.pattern) (d : Block) :
    ∃ why, decode w d = .bad why := by
  have noRow : opTable.find? (fun r => r.matchesWord w) = none :=
    List.find?_eq_none.2 fun r hr => by simpa [OpRow.matchesWord] using h r hr
  exact ⟨_, by rw [decode, noRow]⟩

/-- Settles O4: clause k is row k of the map, and the last clause denies all the rows at once. -/
theorem decodeFollowsOpcodeMap : Obligations.DecodeFollowsOpcodeMap := fun w d =>
  ⟨decode_opTable_get 0 w d, decode_opTable_get 1 w d, decode_opTable_get 2 w d, decode_opTable_get 3 w d,
    decode_opTable_get 4 w d, decode_opTable_get 5 w d, decode_opTable_get 6 w d, decode_opTable_get 7 w d,
    decode_opTable_get 8 w d, decode_opTable_get 9 w d, decode_opTable_get 10 w d, decode_opTable_get 11 w d,
    decode_opTable_get 12 w d, decode_opTable_get 13 w d, decode_opTable_get 14 w d,
    fun h => decode_bad_of_no_row (by simpa [opTable] using h) d⟩

end Sys2Proof.Proofs
end

section
/-! The assembler's words and refusals (30_encoding R83): each format's word as an OR of shifted operands, the block of
STBLK byte by byte, and what the assembler answers. -/

namespace Sys2Proof.Proofs

open Sys2Proof.Machine

/-! A line is taken or refused by its check alone. -/

theorem assemble_of_wellFormed (m : Regmap) (total : Nat) {line : AsmLine} (h : line.wellFormed = true) :
    assemble m total line = some (expandLine m total line) := if_pos h

theorem assemble_of_not_wellFormed (m : Regmap) (total : Nat) (line : AsmLine) (h : line.wellFormed = false) :
    assemble m total line = none := if_neg (by simp [h])

@[simp] theorem fitsCol_eq_true {n : Nat} : fitsCol n = true ↔ n ≤ 4095 := decide_eq_true_iff
@[simp] theorem fitsRow_eq_true {n : Nat} : fitsRow n = true ↔ n ≤ 15 := decide_eq_true_iff
@[simp] theorem fitsFlag_eq_true {n : Nat} : fitsFlag n = true ↔ n ≤ 1 := decide_eq_true_iff
@[simp] theorem fitsByte_eq_true {n : Nat} : fitsByte n = true ↔ n ≤ 255 := decide_eq_true_iff

@[simp] theorem fitsCol_eq_false {n : Nat} : fitsCol n = false ↔ 4095 < n := by simp [fitsCol]
@[simp] theorem fitsRow_eq_false {n : Nat} : fitsRow n = false ↔ 15 < n := by simp [fitsRow]
@[simp] theorem fitsFlag_eq_false {n : Nat} : fitsFlag n = false ↔ 1 < n := by simp [fitsFlag]
@[simp] theorem fitsByte_eq_false {n : Nat} : fitsByte n = false ↔ 255 < n := by simp [fitsByte]

/-! A number that fits its field is the same number in the 32-bit word. -/

theorem setWidth_byte {n : Nat} (h : n ≤ 255) : (BitVec.ofNat 8 n).setWidth 32 = BitVec.ofNat 32 n :=
  BitVec.setWidth_ofNat_of_le_of_lt (by decide) (by omega)

theorem setWidth_col {n : Nat} (h : n ≤ 4095) : (BitVec.ofNat 12 n).setWidth 32 = BitVec.ofNat 32 n :=
  BitVec.setWidth_ofNat_of_le_of_lt (by decide) (by omega)

theorem setWidth_row {n : Nat} (h : n ≤ 15) : (BitVec.ofNat 4 n).setWidth 32 = BitVec.ofNat 32 n :=
  BitVec.setWidth_ofNat_of_le_of_lt (by decide) (by omega)

theorem setWidth_flag {n : Nat} (h : n ≤ 1) : (BitVec.ofBool (n == 1)).setWidth 32 = BitVec.ofNat 32 n := by
  obtain rfl | rfl := Nat.le_one_iff_eq_zero_or_eq_one.1 h <;> rfl

/-! The formats R73 to R76 as the assembler table writes them: an OR of shifted fields. Each proof splits the word at
every `++`, for which the widths have to stay sums (`-Nat.reduceAdd`). -/

theorem formatB_eq_or (op : BitVec 4) (reg val : Byte) :
    formatB op reg val = op.setWidth 32 <<< 28 ||| reg.setWidth 32 <<< 8 ||| val.setWidth 32 :=
  calc formatB op reg val
    _ = (op ++ 0#12 ++ reg ++ val).setWidth 32 := (BitVec.setWidth_eq _).symm
    _ = _ := by
      simp [-BitVec.setWidth_eq, -Nat.reduceAdd, BitVec.setWidth_append_eq_shiftLeft_setWidth_or,
        BitVec.shiftLeft_or_distrib, ← BitVec.shiftLeft_add]

theorem formatC_eq_or (op : BitVec 4) (col : BitVec 12) (val : Byte) :
    formatC op col val = op.setWidth 32 <<< 28 ||| col.setWidth 32 <<< 12 ||| val.setWidth 32 :=
  calc formatC op col val
    _ = (op ++ 0#4 ++ col ++ 0#4 ++ val).setWidth 32 := (BitVec.setWidth_eq _).symm
    _ = _ := by
      simp [-BitVec.setWidth_eq, -Nat.reduceAdd, BitVec.setWidth_append_eq_shiftLeft_setWidth_or,
        BitVec.shiftLeft_or_distrib, ← BitVec.shiftLeft_add]

theorem formatD_eq_or (op : BitVec 4) (v : Bool) (col : BitVec 12) (row : BitVec 4) :
    formatD op v col row =
      op.setWidth 32 <<< 28 ||| (BitVec.ofBool v).setWidth 32 <<< 27 ||| col.setWidth 32 <<< 12 |||
        row.setWidth 32 <<< 8 :=
  calc formatD op v col row
    _ = (op ++ BitVec.ofBool v ++ 0#3 ++ col ++ row ++ 0#8).setWidth 32 := (BitVec.setWidth_eq _).symm
    _ = _ := by
      simp [-BitVec.setWidth_eq, -Nat.reduceAdd, BitVec.setWidth_append_eq_shiftLeft_setWidth_or,
        BitVec.shiftLeft_or_distrib, ← BitVec.shiftLeft_add]

theorem formatS_eq_or (op : BitVec 4) (rot fill : Bool) :
    formatS op rot fill =
      op.setWidth 32 <<< 28 ||| (BitVec.ofBool rot).setWidth 32 <<< 27 ||| (BitVec.ofBool fill).setWidth 32 <<< 26 :=
  calc formatS op rot fill
    _ = (op ++ BitVec.ofBool rot ++ BitVec.ofBool fill ++ 0#26).setWidth 32 := (BitVec.setWidth_eq _).symm
    _ = _ := by
      simp [-BitVec.setWidth_eq, -Nat.reduceAdd, BitVec.setWidth_append_eq_shiftLeft_setWidth_or,
        BitVec.shiftLeft_or_distrib, ← BitVec.shiftLeft_add]

/-! The block of STBLK: the operands' bytes, the first in bits 7:0. -/

/-- The block `expandLine` makes of STBLK's data operands. -/
def blockOfBytes (bytes : List Nat) : Block := bytes.foldr (fun b d => d <<< 8 ||| BitVec.ofNat 64 b) 0

theorem expandLine_stblk (m : Regmap) (total off : Nat) (bytes : List Nat) :
    expandLine m total (.stblk off bytes) = [.stblk (BitVec.ofNat 12 off) (blockOfBytes bytes)] := rfl

/-- The first operand fills bits 7:0 and reaches no further, since it fits a byte. -/
theorem getLsbD_blockOfBytes_cons {b : Nat} (hb : b ≤ 255) (bs : List Nat) {i : Nat} (hi : i < 64) :
    (blockOfBytes (b :: bs)).getLsbD i = if i < 8 then b.testBit i else (blockOfBytes bs).getLsbD (i - 8) := by
  by_cases h : i < 8
  · simp [blockOfBytes, BitVec.getLsbD_ofNat, h, hi, -BitVec.getLsbD_eq_getElem]
  · have above : b.testBit i = false :=
      Nat.testBit_lt_two_pow (lt_of_lt_of_le (by omega : b < 2 ^ 8) (Nat.pow_le_pow_right (by decide) (by omega)))
    simp [blockOfBytes, BitVec.getLsbD_ofNat, h, hi, above, -BitVec.getLsbD_eq_getElem]

/-- Byte k of the block is operand k: each operand pushes the ones after it eight bits up. -/
theorem extractLsb'_blockOfBytes {bytes : List Nat} (hb : ∀ b ∈ bytes, b ≤ 255) {k : Nat} (hk : k < 8) :
    (blockOfBytes bytes).extractLsb' (8 * k) 8 = BitVec.ofNat 8 (bytes.getD k 0) := by
  induction bytes generalizing k with
  | nil => simp [blockOfBytes]
  | cons b bs ih =>
    obtain ⟨hb, hbs⟩ := List.forall_mem_cons.1 hb
    apply BitVec.eq_of_getLsbD_eq
    intro i hi
    rw [BitVec.getLsbD_extractLsb', getLsbD_blockOfBytes_cons hb bs (by omega)]
    cases k with
    | zero => simp [BitVec.getLsbD_ofNat, hi, -BitVec.getLsbD_eq_getElem]
    | succ k =>
      have ih := congrArg (·.getLsbD i) (ih hbs (by omega : k < 8))
      simpa [hi, show ¬ 8 * (k + 1) + i < 8 by omega, show 8 * (k + 1) + i - 8 = 8 * k + i by omega] using ih

/-! The rows of the assembler table. -/

/-- A line the assembler takes as one command, and the command's word. -/
theorem assemble_word {line : AsmLine} {i : Instr} {w : Word} {m : Regmap} {total : Nat}
    (hl : line.wellFormed = true) (he : expandLine m total line = [i]) (hw : encode i = w) :
    ∃ i, assemble m total line = some [i] ∧ encode i = w :=
  ⟨i, (assemble_of_wellFormed m total hl).trans (congrArg some he), hw⟩

theorem assemble_stblk {off : Nat} {bytes : List Nat} (ho : off ≤ 4095) (hlen : bytes.length = 8)
    (hb : ∀ b ∈ bytes, b ≤ 255) (m : Regmap) (total : Nat) :
    assemble m total (.stblk off bytes) = some [.stblk (BitVec.ofNat 12 off) (blockOfBytes bytes)] := by
  rw [assemble_of_wellFormed, expandLine_stblk]
  simpa [AsmLine.wellFormed, ho, hlen] using hb

/-- Settles O6: a line whose operands pass its check has its format's word; any other is refused by the check. -/
theorem assemblerWords : Obligations.AssemblerWords := by
  intro m total
  refine ⟨⟨rfl, rfl⟩, ⟨rfl, rfl⟩, ?bcast, ?stage, ?wrcol, ?wrdot, ?wrall, ?stblk, ⟨rfl, rfl⟩, ⟨rfl, rfl⟩, ?shl, ?shr,
    ?shu, ?shd, ?rdcol, ?noColVal, ?noBcast, ?noWrdot, ?noStblk, ?noShlShr, ?noShuShd, ?noRdcol⟩
  case bcast =>
    intro reg val hr hv
    exact assemble_word (by simp [AsmLine.wellFormed, hr, hv]) rfl
      (by simp [encode, formatB_eq_or, setWidth_byte, hr, hv])
  case stage | wrcol | wrall =>
    intro col val hc hv
    exact assemble_word (by simp [AsmLine.wellFormed, hc, hv]) rfl
      (by simp [encode, formatC_eq_or, setWidth_col, setWidth_byte, hc, hv])
  case wrdot =>
    intro col row v hc hr hv
    exact assemble_word (by simp [AsmLine.wellFormed, hc, hr, hv]) rfl
      (by simp [encode, formatD_eq_or, setWidth_col, setWidth_row, setWidth_flag, hc, hr, hv])
  case stblk =>
    intro off bytes ho hlen hb
    exact ⟨_, assemble_stblk ho hlen hb m total, by simp [encode, formatC_eq_or, setWidth_col, ho],
      fun k hk => extractLsb'_blockOfBytes hb hk⟩
  case shl | shr =>
    intro rot fill hr hf
    exact assemble_word (by simp [AsmLine.wellFormed, hr, hf]) rfl
      (by simp [encode, formatS_eq_or, setWidth_flag, hr, hf])
  case shu | shd =>
    intro rot hr
    exact assemble_word (by simp [AsmLine.wellFormed, hr]) rfl (by simp [encode, formatS_eq_or, setWidth_flag, hr])
  case rdcol =>
    intro col hc
    exact assemble_word (by simp [AsmLine.wellFormed, hc]) rfl (by simp [encode, formatC_eq_or, setWidth_col, hc])
  case noColVal =>
    intro col val h
    have bad : (fitsCol col && fitsByte val) = false :=
      Bool.and_eq_false_iff.2 (h.imp fitsCol_eq_false.2 fitsByte_eq_false.2)
    exact ⟨assemble_of_not_wellFormed m total (.stage col val) bad,
      assemble_of_not_wellFormed m total (.wrcol col val) bad, assemble_of_not_wellFormed m total (.wrall col val) bad⟩
  case noBcast =>
    intro reg val h
    have bad : (fitsByte reg && fitsByte val) = false :=
      Bool.and_eq_false_iff.2 (h.imp fitsByte_eq_false.2 fitsByte_eq_false.2)
    exact assemble_of_not_wellFormed m total (.bcast reg val) bad
  case noWrdot =>
    intro col row v h
    have bad : (fitsCol col && fitsRow row && fitsFlag v) = false := by
      obtain hc | hr | hv := h
      · simp [fitsCol_eq_false.2 hc]
      · simp [fitsRow_eq_false.2 hr]
      · simp [fitsFlag_eq_false.2 hv]
    exact assemble_of_not_wellFormed m total (.wrdot col row v) bad
  case noStblk =>
    intro off bytes h
    have bad : (fitsCol off && decide (bytes.length = 8) && bytes.all fitsByte) = false := by
      obtain ho | ⟨b, hb, hbig⟩ := h
      · simp [fitsCol_eq_false.2 ho]
      · rw [List.all_eq_false.2 ⟨b, hb, by simpa using hbig⟩, Bool.and_false]
    exact assemble_of_not_wellFormed m total (.stblk off bytes) bad
  case noShlShr =>
    intro rot fill h
    have bad : (fitsFlag rot && fitsFlag fill) = false :=
      Bool.and_eq_false_iff.2 (h.imp fitsFlag_eq_false.2 fitsFlag_eq_false.2)
    exact ⟨assemble_of_not_wellFormed m total (.shl rot fill) bad,
      assemble_of_not_wellFormed m total (.shr rot fill) bad⟩
  case noShuShd =>
    intro rot h
    exact ⟨assemble_of_not_wellFormed m total (.shu rot) (fitsFlag_eq_false.2 h),
      assemble_of_not_wellFormed m total (.shd rot) (fitsFlag_eq_false.2 h)⟩
  case noRdcol =>
    intro col h
    exact assemble_of_not_wellFormed m total (.rdcol col) (fitsCol_eq_false.2 h)

end Sys2Proof.Proofs
end

section
/-! The bit stream of a transaction (40_bus_transport R88) and what shifting it into the chain leaves in the shift
registers (R92, R95). The bits of a shift register followed by the bits that come in are one queue: a device passes on
what the queue had in front, and holds what is left of it. -/

namespace Sys2Proof.Proofs

open Sys2Proof.Machine Sys2Proof.Laws

theorem getElem?_frameBits (f : Frame) {i : Nat} (hi : i < 16) : (frameBits f)[i]? = some (f.getLsbD (15 - i)) := by
  simp [frameBits, hi]

theorem frameBits_injective {f g : Frame} (h : frameBits f = frameBits g) : f = g := by
  apply BitVec.eq_of_getLsbD_eq
  intro i hi
  have hbit := congrArg (·[15 - i]?) h
  simpa [getElem?_frameBits _ (show 15 - i < 16 by omega), show 15 - (15 - i) = i by omega] using hbit

/-- A bit of the stream lies in the farther devices' part, which goes first, or in the nearest device's frame. -/
theorem getElem?_stream (F : List Frame) {i : Nat} (hi : i < 16 * F.length) :
    (stream F)[i]? = (F[F.length - 1 - i / 16]?).map fun f => f.getLsbD (15 - i % 16) := by
  induction F with
  | nil => simp at hi
  | cons f F ih =>
    rw [List.length_cons] at hi
    rw [stream_cons, List.length_cons, Nat.add_sub_cancel]
    by_cases hfar : i < 16 * F.length
    · have index : F.length - i / 16 = (F.length - 1 - i / 16) + 1 := by omega
      rw [List.getElem?_append_left (by simpa using hfar), ih hfar, index, List.getElem?_cons_succ]
    · have index : F.length - i / 16 = 0 := by omega
      have bit : i - 16 * F.length = i % 16 := by omega
      rw [List.getElem?_append_right (by simpa using hfar), length_stream, bit,
        getElem?_frameBits f (Nat.mod_lt i (by decide)), index]
      rfl

/-- Settles O14: the length is the model's own lemma, the bits go by induction over the frames. -/
theorem streamIsFarthestFirst : Obligations.StreamIsFarthestFirst :=
  fun F => ⟨length_stream F, fun _ hi => getElem?_stream F hi⟩

theorem getLsbD_shift (d : Device) (b : Bool) (i : Nat) : (d.shift b).sr.getLsbD i =
    if i < 1 then (BitVec.ofBool b).getLsbD i else (d.sr.extractLsb' 0 15).getLsbD (i - 1) :=
  BitVec.getLsbD_append

theorem getLsbD_shift_zero (d : Device) (b : Bool) : (d.shift b).sr.getLsbD 0 = b := by
  rw [getLsbD_shift, if_pos (by decide), BitVec.getLsbD_ofBool]
  rfl

theorem getLsbD_shift_succ (d : Device) (b : Bool) {i : Nat} (hi : i < 15) :
    (d.shift b).sr.getLsbD (i + 1) = d.sr.getLsbD i := by
  simp [getLsbD_shift, hi]

/-- One CLOCK edge moves the queue on by one bit: the top bit leaves, the fifteen others stay, and the new bit is behind
them. -/
theorem frameBits_append_cons (d : Device) (b : Bool) (bs : List Bool) :
    frameBits d.sr ++ b :: bs = d.sr.msb :: (frameBits (d.shift b).sr ++ bs) := by
  have before : frameBits d.sr = d.sr.msb :: (List.range 15).map fun i => d.sr.getLsbD (14 - i) := by
    rw [frameBits, List.range_succ_eq_map, List.map_cons, List.map_map, BitVec.msb_eq_getLsbD_last]
    exact congrArg _ (List.map_congr_left fun i _ => congrArg d.sr.getLsbD (by simp))
  have after : frameBits (d.shift b).sr = ((List.range 15).map fun i => d.sr.getLsbD (14 - i)) ++ [b] := by
    rw [frameBits, List.range_succ, List.map_append, List.map_singleton, getLsbD_shift_zero]
    refine congrArg (· ++ [b]) (List.map_congr_left fun i hi => ?_)
    have hi := List.mem_range.1 hi
    rw [show 15 - i = 14 - i + 1 by omega, getLsbD_shift_succ d b (by omega)]
  rw [before, after, List.cons_append, List.append_assoc, List.singleton_append]

/-- A device after the CLOCK edges that bring these bits to its input (40_bus_transport R92). -/
def shiftBits (bs : List Bool) (d : Device) : Device := bs.foldl (fun d b => d.shift b) d

theorem shiftBits_cons (b : Bool) (bs : List Bool) (d : Device) :
    shiftBits (b :: bs) d = shiftBits bs (d.shift b) := rfl

/-- A chain after the CLOCK edges that bring these bits to its first device (40_bus_transport R92). -/
def shiftChainBits (bs : List Bool) (devs : List Device) : List Device := bs.foldl (fun ds b => shiftChain b ds) devs

theorem shiftChainBits_cons (b : Bool) (bs : List Bool) (devs : List Device) :
    shiftChainBits (b :: bs) devs = shiftChainBits bs (shiftChain b devs) := rfl

/-- A device that shifts bits in holds what is left of the queue. -/
theorem frameBits_shiftBits (bs : List Bool) (d : Device) :
    frameBits (shiftBits bs d).sr = (frameBits d.sr ++ bs).drop bs.length := by
  induction bs generalizing d with
  | nil => simp [shiftBits]
  | cons b bs ih => rw [shiftBits_cons, ih, frameBits_append_cons, List.length_cons, List.drop_succ_cons]

@[simp] theorem shiftBits_reg (bs : List Bool) (d : Device) : (shiftBits bs d).reg = d.reg := by
  induction bs generalizing d with
  | nil => rfl
  | cons b bs ih => exact ih (d.shift b)

/-- A device whose last sixteen bits are a frame's holds that frame, whatever came before. -/
theorem shiftBits_append_frameBits (bs : List Bool) (f : Frame) (d : Device) :
    shiftBits (bs ++ frameBits f) d = { d with sr := f } := by
  have lastSixteen : (shiftBits (bs ++ frameBits f) d).sr = f := by
    apply frameBits_injective
    rw [frameBits_shiftBits, ← List.append_assoc]
    exact List.drop_left' (by simp; omega)
  calc shiftBits (bs ++ frameBits f) d
    _ = ⟨(shiftBits (bs ++ frameBits f) d).sr, (shiftBits (bs ++ frameBits f) d).reg⟩ := rfl
    _ = { d with sr := f } := by rw [lastSixteen, shiftBits_reg]

/-- The first device of a chain shifts the bits in itself, and the devices behind it shift in what it passes on, the
front of its queue. -/
theorem shiftChainBits_cons_device (bs : List Bool) (d : Device) (ds : List Device) :
    shiftChainBits bs (d :: ds) = shiftBits bs d :: shiftChainBits ((frameBits d.sr ++ bs).take bs.length) ds := by
  induction bs generalizing d ds with
  | nil => rfl
  | cons b bs ih =>
    rw [shiftChainBits_cons, shiftChain, ih, frameBits_append_cons, List.length_cons, List.take_succ_cons]
    rfl

theorem shiftChainBits_nil_device (bs : List Bool) : shiftChainBits bs [] = [] := by
  induction bs with
  | nil => rfl
  | cons b bs ih => exact ih

/-- Bits that end in a transaction's stream leave every device its own frame. Whatever comes before the stream, the old
contents of the devices ahead included, is pushed through the chain. -/
theorem shiftChainBits_append_stream (bs : List Bool) {F : List Frame} {devs : List Device}
    (h : F.length = devs.length) :
    shiftChainBits (bs ++ stream F) devs = List.zipWith (fun f d => { d with sr := f }) F devs := by
  induction F generalizing bs devs with
  | nil =>
    obtain rfl := List.length_eq_zero_iff.1 h.symm
    exact shiftChainBits_nil_device _
  | cons f F ih =>
    obtain _ | ⟨d, ds⟩ := devs
    · cases h
    have passedOn : (frameBits d.sr ++ (bs ++ stream (f :: F))).take (bs ++ stream (f :: F)).length =
        (frameBits d.sr ++ bs) ++ stream F := by
      rw [stream_cons, ← List.append_assoc, ← List.append_assoc, ← List.append_assoc]
      exact List.take_left' (by simp; omega)
    rw [shiftChainBits_cons_device, passedOn, ih _ (Nat.succ.inj h), stream_cons, ← List.append_assoc,
      shiftBits_append_frameBits]
    rfl

theorem commit_with_sr (noop : Byte) (f : Frame) (d : Device) :
    ({ d with sr := f } : Device).commit noop f = { d.commit noop f with sr := f } := by
  unfold Device.commit
  split <;> rfl

/-- Settles O16: the stream leaves each device its frame and its registers as they were; the LOAD edge then commits that
frame. -/
theorem shiftedChainHoldsFrames : Obligations.ShiftedChainHoldsFrames := by
  intro noop F devs h
  have shifted : (stream F).foldl (fun ds b => shiftChain b ds) devs =
      List.zipWith (fun f d => { d with sr := f }) F devs := shiftChainBits_append_stream [] h
  rw [shifted]
  constructor
  · rw [List.map_zipWith, ← List.map_uncurry_zip_eq_zipWith]
    exact List.map_fst_zip h.le
  · rw [latchChain, List.map_zipWith]
    simp only [commit_with_sr]

end Sys2Proof.Proofs
end

section
/-! The LOAD rising edge (40_bus_transport R94), register by register. -/

namespace Sys2Proof.Proofs

open Sys2Proof.Machine Sys2Proof.Laws

/-- A rising edge of LOAD reaches the chain: every device commits its shift register. -/
theorem drivePin_load_rising_dev {s : State} (h : s.loadO = false) :
    (s.drivePin .load true).dev = latchChain s.params.regmap.noop s.dev := by
  simp [State.drivePin, State.loadEdge, h]

/-- Settles O17: device k commits its own shift register, and one commit writes one register. -/
theorem loadEdgeCommits : Obligations.LoadEdgeCommits := by
  intro s k a d hload hdev
  have latched : (s.drivePin .load true).dev[k]? = some (d.commit s.params.regmap.noop d.sr) := by
    rw [drivePin_load_rising_dev hload, latchChain, List.getElem?_map, hdev]
    rfl
  have named : (a = frameAddress d.sr ∧ frameAddress d.sr ≠ s.params.regmap.noop) ↔
      (a = d.sr.extractLsb' 8 8 ∧ a ≠ s.params.regmap.noop) :=
    and_congr_right fun e => by rw [e, frameAddress]
  simp only [State.devReg, latched, hdev, Option.bind_some, read_commit, named, frameValue]

end Sys2Proof.Proofs
end

section
/-! INIT (40_bus_transport R98, R99): its plan as a list of broadcasts and the writes of all of FB, and what broadcasts to
registers that are all different leave behind. -/

namespace Sys2Proof.Proofs

open Sys2Proof.Machine Sys2Proof.Laws

/-- The register writes INIT broadcasts, in the order of its pseudocode (40_bus_transport R98). -/
def initWrites (p : Params) : List (Byte × Byte) :=
  [(p.regmap.scanLimit, 0x07), (p.regmap.decodeMode, 0x00), (p.regmap.shutdown, p.regmap.shutdownNormal),
    (p.regmap.test, p.regmap.testOff)]
  ++ (List.range 8).map (fun lc => (p.regmap.col lc, 0x00))
  ++ [(p.regmap.intensity, p.initIntensity)]

theorem txnPart_init (s : State) :
    txnPart (plan .init s) = (initWrites s.params).map fun e => s.bcastFrames e.1 e.2 := by
  simp [plan, planInit, txnPart, initWrites, State.fbAll, State.colReg]

theorem fbPart_init (s : State) : fbPart (plan .init s) = (List.range s.total).map fun c => (c, 0x00) := by
  simp [plan, planInit, fbPart, State.fbAll]

theorem cols_toList_eq_map (m : Regmap) : m.cols.toList = (List.range 8).map m.col := cols_eq m

/-- INIT writes every register of REGMAP but NOOP once. -/
theorem initWrites_perm (p : Params) : ((initWrites p).map Prod.fst).Perm p.regmap.addresses.tail := by
  have addressesInOrder : (initWrites p).map Prod.fst =
      ([p.regmap.scanLimit, p.regmap.decodeMode, p.regmap.shutdown, p.regmap.test] ++ p.regmap.cols.toList)
        ++ [p.regmap.intensity] := by
    simp [initWrites, cols_toList_eq_map, Function.comp_def]
  rw [addressesInOrder]
  exact (List.perm_append_singleton _ _).trans (List.perm_middle (l₁ := [p.regmap.intensity, p.regmap.scanLimit]))

/-- Among frames to registers that are all different, the one that names a register gives it its value. -/
theorem lastValue_of_mem {noop a v : Byte} (hnoop : a ≠ noop) {l : List (Byte × Byte)}
    (hl : (l.map Prod.fst).Nodup) (hm : (a, v) ∈ l) (old : Option Byte) :
    lastValue noop a (l.map fun e => frame e.1 e.2) old = some v := by
  induction l generalizing old with
  | nil => cases hm
  | cons e l ih =>
    obtain ⟨hfresh, hl⟩ := List.nodup_cons.1 hl
    rw [List.map_cons, lastValue, frameAddress_frame, frameValue_frame]
    obtain rfl | hm := List.mem_cons.1 hm
    · rw [if_pos ⟨rfl, hnoop⟩]
      refine lastValue_of_not_named (fun f hf => ?_) _
      obtain ⟨e', he', rfl⟩ := List.mem_map.1 hf
      rw [frameAddress_frame]
      exact fun same => hfresh (List.mem_map.2 ⟨e', he', same⟩)
    · exact ih hl hm _

/-- For a REGMAP of distinct addresses, every device ends with the value INIT broadcast to a register. -/
theorem devReg_of_initWrites {s t : State} (hlen : s.dev.length = s.deviceCount) (hd : s.params.regmap.Distinct)
    (ht : t.dev = takeChains s.params.regmap.noop ((initWrites s.params).map fun e => s.bcastFrames e.1 e.2) s.dev)
    {k : Nat} (hk : k < s.deviceCount) {a v : Byte} (hm : (a, v) ∈ initWrites s.params) : t.devReg k a = some v := by
  obtain ⟨noopFresh, tailNodup⟩ := List.nodup_cons.1 hd
  have perm := initWrites_perm s.params
  have hnoop : a ≠ s.params.regmap.noop := by
    rintro rfl
    exact noopFresh (perm.subset (List.mem_map_of_mem hm))
  rw [devReg_broadcasts hlen _ ht hk, lastValue_of_mem hnoop (perm.nodup_iff.2 tailNodup) hm]

/-- What executing a command but RDCOL does to a sound block with no command executing, INIT and its CLOCK write
included. -/
theorem exec_effects {i : Instr} {s : State} (h : s.Sound) (hq : s.seq = none) (hr : ∀ col, i ≠ .rdcol col) :
    ∃ t, exec i s = .next t ∧ s.fbAndBusOnly t ∧ t.fb = writeCells s.fb (fbPart (plan i s)) ∧
      t.dev = takeChains s.params.regmap.noop (txnPart (plan i s)) s.dev ∧ t.busLog = s.busLog ++ txnPart (plan i s) := by
  obtain ⟨hc, hl⟩ := h.idlePins hq
  exact ⟨_, exec_eq_parts hr hc hl, rfl, rfl, rfl, rfl⟩

/-- Settles O23: each configuration value and each zero column is one of INIT's broadcasts, FB is written whole, and the
zero columns agree with the zero FB. -/
theorem initConfiguresEveryDevice : Obligations.InitConfiguresEveryDevice := by
  intro s h hq distinct
  obtain ⟨t, he, hframe, hfb, hdev, hbus⟩ := exec_effects (i := .init) h hq nofun
  rw [fbPart_init] at hfb
  rw [txnPart_init] at hdev hbus
  have hparams : t.params = s.params := by rw [hframe]
  have htotal : t.total = s.total := by rw [hframe]; rfl
  have zeroCell : ∀ c, c < s.total → t.fb.read c = some 0x00 := fun c hc => by
    rw [hfb, read_writeCells_fn, if_pos (List.mem_range.2 hc)]
  have written {k : Nat} (hk : k < s.deviceCount) {a v : Byte} (hm : (a, v) ∈ initWrites s.params) :
      t.devReg k a = some v := devReg_of_initWrites h.chain distinct hdev hk hm
  have zeroColumn {k : Nat} (hk : k < s.deviceCount) (lc : Nat) (hlc : lc < 8) : t.devReg k (s.colReg lc) = some 0x00 :=
    written hk (List.mem_append_left _ (List.mem_append_right _ (List.mem_map_of_mem (List.mem_range.2 hlc))))
  refine ⟨t, he, ?broadcasts, fun k hk => ⟨?_, ?_, ?_, ?_, zeroColumn hk, ?_⟩, zeroCell, ?inSync⟩
  case broadcasts =>
    intro F hF
    rw [hbus, List.drop_left] at hF
    obtain ⟨e, -, rfl⟩ := List.mem_map.1 hF
    exact ⟨_, rfl⟩
  case inSync =>
    intro c hc
    rw [htotal] at hc
    have column := zeroColumn (deviceOf_lt hc) (localOf c) (Nat.mod_lt c (by decide))
    rwa [inSync_iff, fbRead_of_read (zeroCell c hc), State.colReg, hparams]
  all_goals exact written hk (by simp [initWrites])

end Sys2Proof.Proofs
end

section
/-! The FB writes of a command's plan, read as a list of cells and values, whatever the block is doing: the column writes,
and the commands that write one value to many cells (41_framebuffer_write R110 to R120). -/

namespace Sys2Proof.Proofs

open Sys2Proof.Machine Sys2Proof.Laws

theorem exec_next_fb (i : Instr) (s : State) :
    ∃ t, exec i s = .next t ∧ t.fb = writeCells s.fb (fbPart (plan i s)) ∧ t.total = s.total :=
  ⟨_, exec_eq_perform i s, perform_fb s _, by simp only [State.total, State.deviceCount, perform_fixed]⟩

theorem mem_fbPart {c : Nat} {v : Byte} {as : List Action} : (c, v) ∈ fbPart as ↔ .fb c v ∈ as := by
  induction as with
  | nil => simp [fbPart]
  | cons a as ih => cases a <;> simp [fbPart, ih]

/-- Cells that all take one value, read anywhere: the order of the writes does not matter. -/
theorem read_writeCells_const (m : Memory) {l : List (Nat × Byte)} {v : Byte} (h : ∀ e ∈ l, e.2 = v) (c : Nat) :
    (writeCells m l).read c = if (c, v) ∈ l then some v else m.read c := by
  induction l generalizing m with
  | nil => simp [writeCells]
  | cons e l ih =>
    obtain ⟨b, w⟩ := e
    obtain ⟨rfl, hl⟩ := List.forall_mem_cons.1 h
    have firstWrite : writeCells m ((b, w) :: l) = writeCells (m.write b w) l := rfl
    rw [firstWrite, ih _ hl, read_write]
    by_cases hb : c = b
    · simp [hb]
    · simp [hb]

/-- A command whose one FB write is FB[c] <- v. -/
theorem exec_of_fbPart_singleton {i : Instr} {s : State} {c : Nat} {v : Byte} (h : fbPart (plan i s) = [(c, v)]) :
    ∃ t, exec i s = .next t ∧ t.total = s.total ∧ t.fbRead c = v ∧ ∀ c', c' ≠ c → t.fb.read c' = s.fb.read c' := by
  obtain ⟨t, he, hfb, htotal⟩ := exec_next_fb i s
  rw [h] at hfb
  have cells : ∀ c', t.fb.read c' = if c' = c then some v else s.fb.read c' := fun c' => by
    rw [hfb]
    exact read_write ..
  exact ⟨t, he, htotal, fbRead_of_read ((cells c).trans (if_pos rfl)), fun c' hne => (cells c').trans (if_neg hne)⟩

theorem fbPart_stage {col : BitVec 12} {s : State} (h : col.toNat < s.total) (val : Byte) :
    fbPart (plan (.stage col val) s) = [(col.toNat, val)] := by
  simp [plan, planStage, State.inRange, h, fbPart]

theorem fbPart_wrcol {col : BitVec 12} {s : State} (h : col.toNat < s.total) (val : Byte) :
    fbPart (plan (.wrcol col val) s) = [(col.toNat, val)] := by
  simp [plan, planWrcol, State.inRange, h, State.writeCol, fbPart]

theorem fbPart_wrdot {col : BitVec 12} {row : BitVec 4} {s : State} (hc : col.toNat < s.total) (hr : row.toNat < 8)
    (v : Bool) :
    fbPart (plan (.wrdot col row v) s) = [(col.toNat, dotColumn (s.fbRead col.toNat) row.toNat v)] := by
  simp [plan, planWrdot, State.inRange, rowInRange, hc, hr, State.writeCol, fbPart]

theorem plan_wrall {lcol : BitVec 12} (h : lcol.toNat < 8) (val : Byte) (s : State) :
    plan (.wrall lcol val) s = s.writeAll lcol.toNat val := by
  simp [plan, planWrall, localInRange, h]

end Sys2Proof.Proofs
end

section
/-! WRDOT (41_framebuffer_write R113, R114): the new column value bit by bit. -/

namespace Sys2Proof.Proofs

open Sys2Proof.Machine Sys2Proof.Laws

theorem getLsbD_dotColumn (old : Byte) {r : Nat} (hr : r < 8) (v : Bool) (i : Nat) :
    (dotColumn old r v).getLsbD i = if i = r then v else old.getLsbD i := by
  by_cases hi : i < 8
  · obtain below | rfl | above := Nat.lt_trichotomy i r
    · simp [dotColumn, -BitVec.getLsbD_eq_getElem, hi, below, below.ne]
    · simp [dotColumn, -BitVec.getLsbD_eq_getElem, hi]
    · have apart : i - r ≠ 0 := by omega
      simp [dotColumn, -BitVec.getLsbD_eq_getElem, hi, above.ne', apart]
  · simp [BitVec.getLsbD_of_ge _ i (Nat.le_of_not_lt hi), show i ≠ r by omega]

/-- Settles O26: the one write goes to FB[c], and its value is the old one with bit r replaced. -/
theorem wrdotSetsExactlyOneBit : Obligations.WrdotSetsExactlyOneBit := by
  intro s col row v hc hr
  obtain ⟨t, he, -, written, others⟩ := exec_of_fbPart_singleton (fbPart_wrdot hc hr v)
  refine ⟨t, he, ?_, fun i hi => ?_, others⟩
  · rw [written, getLsbD_dotColumn _ hr, if_pos rfl]
  · rw [written, getLsbD_dotColumn _ hr, if_neg hi]

end Sys2Proof.Proofs
end

section
/-! WRALL and CLEAR (41_framebuffer_write R115, R116, R119, R120): one value to many cells. -/

namespace Sys2Proof.Proofs

open Sys2Proof.Machine Sys2Proof.Laws

theorem fbPart_writeAll (s : State) (lc : Nat) (val : Byte) :
    fbPart (s.writeAll lc val) = (List.range s.deviceCount).map fun k => (globalOf k lc, val) := by
  simp [State.writeAll, fbPart]

theorem txnPart_writeAll (s : State) (lc : Nat) (val : Byte) :
    txnPart (s.writeAll lc val) = [s.bcastFrames (s.colReg lc) val] := by
  simp [State.writeAll, txnPart]

/-- Settles O28: the plan is one broadcast and one write of VAL for each device, to its cell k*8+lc. -/
theorem wrallWritesEveryDevice : Obligations.WrallWritesEveryDevice := by
  intro s lcol val h hq hl
  obtain ⟨t, he, hframe, hfb, hdev, hsent⟩ := exec_outcome (i := .wrall lcol val) h hq nofun nofun
  rw [plan_wrall hl] at hfb hdev hsent
  rw [fbPart_writeAll] at hfb
  rw [txnPart_writeAll] at hdev hsent
  have cells : ∀ c, t.fb.read c =
      if ∃ k, k < s.deviceCount ∧ c = globalOf k lcol.toNat then some val else s.fb.read c := fun c => by
    rw [hfb, read_writeCells_const (v := val) _ (by simp)]
    simp [eq_comm]
  refine ⟨t, he, hframe, hsent, fun k hk => ?_, fun c hc => ?_, fun k a hk => ?_⟩
  · exact (cells _).trans (if_pos ⟨k, hk, rfl⟩)
  · exact (cells c).trans (if_neg fun ⟨k, hk, e⟩ => hc k hk e)
  · rw [devReg_broadcasts h.chain [(s.colReg lcol.toNat, val)] hdev hk]
    by_cases ha : a = s.colReg lcol.toNat <;> simp [lastValue, ha]

/-- Every FB write of CLEAR, in its first loop or with one of its broadcasts, is a zero. -/
theorem eq_zero_of_fb_mem_plan_clear {s : State} {c : Nat} {v : Byte} (h : .fb c v ∈ plan .clear s) : v = 0x00 := by
  obtain firstLoop | broadcasts := List.mem_append.1 h
  · obtain ⟨_, -, same⟩ := List.mem_map.1 firstLoop
    exact (Action.fb.inj same).2.symm
  · obtain ⟨lc, -, hlc⟩ := List.mem_flatMap.1 broadcasts
    obtain write | txn := List.mem_append.1 hlc
    · obtain ⟨_, -, same⟩ := List.mem_map.1 write
      exact (Action.fb.inj same).2.symm
    · cases List.mem_singleton.1 txn

/-- CLEAR's first loop writes every cell below TOTAL. -/
theorem mem_fbPart_clear {s : State} {c : Nat} (h : c < s.total) : (c, 0x00) ∈ fbPart (plan .clear s) :=
  mem_fbPart.2 (List.mem_append_left _ (List.mem_map_of_mem (List.mem_range.2 h)))

/-- Settles O30: every cell is written, and whatever is written is zero. -/
theorem clearZeroesFramebuffer : Obligations.ClearZeroesFramebuffer := by
  intro s
  obtain ⟨t, he, hfb, htotal⟩ := exec_next_fb .clear s
  refine ⟨t, he, fun c hc => ?_⟩
  have zeros : ∀ e ∈ fbPart (plan .clear s), e.2 = 0x00 := fun _ he => eq_zero_of_fb_mem_plan_clear (mem_fbPart.1 he)
  rw [hfb, read_writeCells_const _ zeros, if_pos (mem_fbPart_clear (htotal ▸ hc))]

end Sys2Proof.Proofs
end

section
/-! A column write and RDCOL of the same column (41_framebuffer_write R124, R125). -/

namespace Sys2Proof.Proofs

open Sys2Proof.Machine Sys2Proof.Laws

/-- RDCOL in range puts the cell into RSP and does nothing else. -/
theorem exec_rdcol {col : BitVec 12} {s : State} (h : col.toNat < s.total) :
    exec (.rdcol col) s = .next (s.setRsp (s.fbRead col.toNat)) := by
  simp [exec_eq_perform, plan, planRdcol, State.inRange, h, State.act]

/-- A command whose only FB write is FB[c] <- v, and then RDCOL c. -/
theorem run_write_rdcol {i : Instr} {s : State} {col : BitVec 12} {val : Byte}
    (hw : fbPart (plan i s) = [(col.toNat, val)]) (hc : col.toNat < s.total) :
    ∃ t, runCommands [i, .rdcol col] s = some t ∧ t.rsp = val ∧ ∀ c, c ≠ col.toNat → t.fb.read c = s.fb.read c := by
  obtain ⟨t, he, htotal, written, others⟩ := exec_of_fbPart_singleton hw
  refine ⟨t.setRsp (t.fbRead col.toNat), ?_, written, others⟩
  simp only [runCommands, he, exec_rdcol (htotal ▸ hc : col.toNat < t.total)]

/-- Settles O35: in range, WRCOL and STAGE both write FB[c] and no other cell. -/
theorem writeThenReadReturnsValue : Obligations.WriteThenReadReturnsValue := fun _ _ val hc =>
  ⟨run_write_rdcol (fbPart_wrcol hc val) hc, run_write_rdcol (fbPart_stage hc val) hc⟩

end Sys2Proof.Proofs
end

section
/-! What a transform leaves in FB, whatever the block is doing (42_transform R130): its contents as a function of the
column. -/

namespace Sys2Proof.Proofs

open Sys2Proof.Machine Sys2Proof.Laws

/-- FB is the n columns of the chain, with these values. -/
structure HoldsColumns (s : State) (n : Nat) (vals : Nat → Byte) : Prop where
  total : s.total = n
  fb : s.fb = Memory.ofFn n vals

/-- Two arrays of the cells 0..n-1 that read the same there are equal. -/
theorem eq_ofFn_of_read {m : Memory} {n : Nat} {f : Nat → Byte} (hm : m.addresses = List.range n)
    (hr : ∀ c, c < n → m.read c = some (f c)) : m = Memory.ofFn n f := by
  refine memory_ext (wf_of_addresses_range hm) (hm.trans (addresses_ofFn n f).symm) fun c => ?_
  by_cases hc : c < n
  · rw [hr c hc, read_ofFn, if_pos hc]
  · rw [read_ofFn, if_neg hc, read_eq_none_iff, hm]
    simpa using hc

theorem holdsColumns_of_sound {s : State} (h : s.Sound) : HoldsColumns s s.total s.fbRead :=
  ⟨rfl, eq_ofFn_of_read h.fbCells fun _ hc => read_of_cells h.fbCells hc⟩

section
variable {s : State} {n : Nat} {vals vals' : Nat → Byte}

theorem HoldsColumns.read (h : HoldsColumns s n vals) {c : Nat} (hc : c < n) : s.fb.read c = some (vals c) := by
  rw [h.fb, read_ofFn, if_pos hc]

theorem HoldsColumns.fbRead (h : HoldsColumns s n vals) {c : Nat} (hc : c < n) : s.fbRead c = vals c :=
  fbRead_of_read (h.read hc)

/-- Only the values below n count. -/
theorem HoldsColumns.congr (h : HoldsColumns s n vals) (hv : ∀ c, c < n → vals c = vals' c) : HoldsColumns s n vals' :=
  ⟨h.total, h.fb.trans (List.map_congr_left fun c hc => by rw [hv c (List.mem_range.1 hc)])⟩

theorem HoldsColumns.fb_eq {t : State} (hs : HoldsColumns s n vals) (ht : HoldsColumns t n vals) : t.fb = s.fb :=
  ht.fb.trans hs.fb.symm

/-- A command whose plan is a transform completes with every column at its new value. -/
theorem HoldsColumns.exec_transform (h : HoldsColumns s n vals) {i : Instr} (hp : plan i s = s.transform vals') :
    ∃ t, exec i s = .next t ∧ HoldsColumns t n vals' := by
  obtain ⟨t, he, hfb, htotal⟩ := exec_next_fb i s
  rw [hp, fbPart_transform, h.total] at hfb
  refine ⟨t, he, htotal.trans h.total, eq_ofFn_of_read ?_ fun c hc => ?_⟩
  · rw [hfb]
    exact addresses_writeCells (by rw [h.fb, addresses_ofFn]) (by simp)
  · rw [hfb, read_writeCells_fn, if_pos (List.mem_range.2 hc)]

end

theorem runCommands_cons {i : Instr} {s t : State} (h : exec i s = .next t) (is : List Instr) :
    runCommands (i :: is) s = runCommands is t := by
  rw [runCommands, h]

/-- A command that replaces every column value v by g v, performed k times. -/
theorem run_replicate_columnwise {i : Instr} {g : Byte → Byte}
    (hp : ∀ s, plan i s = s.transform fun c => g (s.fbRead c)) (k : Nat) {s : State} {n : Nat} {vals : Nat → Byte}
    (h : HoldsColumns s n vals) :
    ∃ t, runCommands (List.replicate k i) s = some t ∧ HoldsColumns t n fun c => g^[k] (vals c) := by
  induction k generalizing s vals with
  | zero => exact ⟨s, rfl, h⟩
  | succ k ih =>
    obtain ⟨t, he, ht⟩ := h.exec_transform (hp s)
    have replaced : HoldsColumns t n fun c => g (vals c) := ht.congr fun c hc => by rw [h.fbRead hc]
    rw [List.replicate_succ, runCommands_cons he]
    exact ih replaced

/-- Two transforms, the second of which gives every column its old value back. -/
theorem run_transforms_restore {i j : Instr} {s : State} {vals : Nat → Byte} {vals' : State → Nat → Byte}
    (h : s.Sound) (hi : plan i s = s.transform vals) (hj : ∀ t, plan j t = t.transform (vals' t))
    (hback : ∀ t, HoldsColumns t s.total vals → ∀ c, c < s.total → vals' t c = s.fbRead c) :
    ∃ t, runCommands [i, j] s = some t ∧ t.fb = s.fb := by
  have hs := holdsColumns_of_sound h
  obtain ⟨t, hit, ht⟩ := hs.exec_transform hi
  obtain ⟨u, hju, hu⟩ := ht.exec_transform (hj t)
  refine ⟨u, ?_, hs.fb_eq (hu.congr (hback t ht))⟩
  rw [runCommands_cons hit, runCommands_cons hju, runCommands]

end Sys2Proof.Proofs
end

section
/-! The laws of the transforms (42_transform R137 to R139): the rotations of one column's rows bit by bit, and what the
shifts of the columns leave. -/

namespace Sys2Proof.Proofs

open Sys2Proof.Machine Sys2Proof.Laws

/-- SHU's new column bit by bit: row i takes row i+1, the bottom row the evicted top pixel. -/
theorem getLsbD_columnUp (rot : Bool) (v : Byte) {i : Nat} (hi : i < 8) :
    (columnUp rot v).getLsbD i = if i = 7 then rot && v.getLsbD 0 else v.getLsbD (i + 1) := by
  by_cases bottom : i = 7
  · subst bottom
    cases rot <;> simp [columnUp, -BitVec.getLsbD_eq_getElem]
  · have above : i < 7 := by omega
    cases rot <;> simp [columnUp, -BitVec.getLsbD_eq_getElem, bottom, above, Nat.add_comm]

/-- SHD's new column bit by bit: row i takes row i-1, the top row the evicted bottom pixel. -/
theorem getLsbD_columnDown (rot : Bool) (v : Byte) {i : Nat} (hi : i < 8) :
    (columnDown rot v).getLsbD i = if i = 0 then rot && v.getLsbD 7 else v.getLsbD (i - 1) := by
  by_cases top : i = 0
  · subst top
    cases rot <;> simp [columnDown, -BitVec.getLsbD_eq_getElem]
  · cases rot <;> simp [columnDown, -BitVec.getLsbD_eq_getElem, top, hi, show ¬ i < 1 by omega]

/-- With ROT = 1 the rows go round: k rotations bring row i+k, counted modulo 8, to row i. -/
theorem getLsbD_iterate_columnUp (v : Byte) (k : Nat) {i : Nat} (hi : i < 8) :
    ((columnUp true)^[k] v).getLsbD i = v.getLsbD ((i + k) % 8) := by
  induction k generalizing i with
  | zero => rw [Function.iterate_zero_apply, Nat.add_zero, Nat.mod_eq_of_lt hi]
  | succ k ih =>
    rw [Function.iterate_succ_apply', getLsbD_columnUp true _ hi]
    split_ifs with bottom
    · rw [Bool.true_and, ih (by decide)]
      congr 1
      omega
    · rw [ih (by omega)]
      congr 1
      omega

theorem iterate_columnUp_eight (v : Byte) : (columnUp true)^[8] v = v :=
  BitVec.eq_of_getLsbD_eq fun i hi => by
    rw [getLsbD_iterate_columnUp v 8 hi, Nat.add_mod_right, Nat.mod_eq_of_lt hi]

theorem columnDown_leftInverse_columnUp : Function.LeftInverse (columnDown true) (columnUp true) := fun v =>
  BitVec.eq_of_getLsbD_eq fun i hi => by
    rw [getLsbD_columnDown true _ hi]
    split_ifs with top
    · rw [getLsbD_columnUp true v (by decide), if_pos rfl, top]
      rfl
    · rw [getLsbD_columnUp true v (by omega), if_neg (by omega), Nat.sub_add_cancel (Nat.pos_of_ne_zero top)]

/-- Eight rotations down undo eight rotations up, and those change nothing. -/
theorem iterate_columnDown_eight (v : Byte) : (columnDown true)^[8] v = v :=
  calc (columnDown true)^[8] v
    _ = (columnDown true)^[8] ((columnUp true)^[8] v) := by rw [iterate_columnUp_eight]
    _ = v := columnDown_leftInverse_columnUp.iterate 8 v

/-- Settles O43: SHU and SHD rotate every column's rows, and eight rotations of eight rows change nothing. -/
theorem cyclicRowShiftsRestore : Obligations.CyclicRowShiftsRestore := by
  intro s h
  have hs := holdsColumns_of_sound h
  obtain ⟨t, hrun, ht⟩ := run_replicate_columnwise (i := .shu true) (fun _ => rfl) 8 hs
  obtain ⟨u, hrun', hu⟩ := run_replicate_columnwise (i := .shd true) (fun _ => rfl) 8 hs
  exact ⟨⟨t, hrun, hs.fb_eq (ht.congr fun _ _ => iterate_columnUp_eight _)⟩,
    ⟨u, hrun', hs.fb_eq (hu.congr fun _ _ => iterate_columnDown_eight _)⟩⟩

/-- With ROT = 1, SHR brings back the columns that SHL moved: column c comes from slot c-1, column 0 from the last slot,
where SHL had put the column it evicted. -/
theorem columnsRight_of_columnsLeft {s t : State} {f : Bool} (ht : HoldsColumns t s.total (s.columnsLeft true f))
    (f' : Bool) {c : Nat} (hc : c < s.total) : t.columnsRight true f' c = s.fbRead c := by
  by_cases first : c = 0
  · subst first
    calc t.columnsRight true f' 0
      _ = t.fbRead (s.total - 1) := by rw [← ht.total]; rfl
      _ = s.columnsLeft true f (s.total - 1) := ht.fbRead (by omega)
      _ = s.fbRead 0 := if_neg (by omega)
  · calc t.columnsRight true f' c
      _ = t.fbRead (c - 1) := if_pos (Nat.pos_of_ne_zero first)
      _ = s.columnsLeft true f (c - 1) := ht.fbRead (by omega)
      _ = s.fbRead (c - 1 + 1) := if_pos (by omega)
      _ = s.fbRead c := by rw [Nat.sub_add_cancel (Nat.pos_of_ne_zero first)]

/-- Settles O44: the second command of each pair gives every column its old value back. -/
theorem oppositeShiftsCancel : Obligations.OppositeShiftsCancel := fun _ _ f' h =>
  ⟨run_transforms_restore h rfl (fun _ => rfl) fun _ ht _ hc => columnsRight_of_columnsLeft ht f' hc,
    run_transforms_restore h rfl (fun _ => rfl) fun _ ht _ hc =>
      (congrArg (columnDown true) (ht.fbRead hc)).trans (columnDown_leftInverse_columnUp _)⟩

/-- Settles O41: FB takes the columns of SHL, whose last one is the edge column, zero for ROT = 0 and FILL = 1. -/
theorem shlFillsLastColumnWithZero : Obligations.ShlFillsLastColumnWithZero := by
  intro s h
  have hs := holdsColumns_of_sound h
  have totalPos : 0 < s.total := by rw [total_eq]; have := h.countPos; omega
  obtain ⟨t, he, ht⟩ := hs.exec_transform (i := .shl false true) rfl
  refine ⟨t, he, ?_, fun i hi => ?_⟩
  · rw [ht.read (by omega), State.columnsLeft, if_neg (by omega)]
    rfl
  · rw [ht.read (by omega), State.columnsLeft, if_pos (by omega), hs.read (by omega)]

end Sys2Proof.Proofs
end

section
/-! The transactions of a list of commands, counted (70_reset_and_hazards R183), and those of a blit (43_sprite_blit
R144, R148). -/

namespace Sys2Proof.Proofs

open Sys2Proof.Machine Sys2Proof.Laws

/-! A list of commands, whatever the block is doing: BUSLOG grows by each command's own count. -/

theorem perform_busLog (s : State) (as : List Action) : (s.perform as).busLog = s.busLog ++ txnPart as := by
  induction as generalizing s with
  | nil => simp [txnPart]
  | cons a as ih =>
    rw [perform_cons, ih]
    cases a <;> simp [State.act, txnPart]

/-- A command's plan holds as many transactions as the table of R183 says. -/
theorem length_txnPart_plan (i : Instr) (s : State) : (txnPart (plan i s)).length = txnCount s i := by
  cases i with
  | nop | bcast _ _ | rdcol _ => rfl
  | init => simp [txnPart_init, initWrites, txnCount]
  | stage col val => simp only [plan, planStage, txnCount]; split <;> rfl
  | wrcol col val => simp only [plan, planWrcol, txnCount]; split <;> rfl
  | wrdot col row v => simp only [plan, planWrdot, txnCount]; split <;> rfl
  | wrall lcol val =>
    simp only [plan, planWrall, txnCount]
    split
    · rw [txnPart_writeAll]; rfl
    · rfl
  | stblk off data => simp [plan, planStblk, txnCount]
  | clear => simp [plan, planClear, State.fbAll, txnCount, List.range_succ, txnPart_writeAll]
  | flush => simp [plan, planFlush, State.flushFrom, txnCount]
  | shl _ _ | shr _ _ | shu _ | shd _ => simp [plan, planShl, planShr, planShu, planShd, txnCount]

/-- The count depends on the number of devices only. -/
theorem txnCount_congr {s t : State} (h : t.nEff = s.nEff) : txnCount t = txnCount s := by
  have sameRange : t.inRange = s.inRange := by
    unfold State.inRange State.total State.deviceCount
    rw [h]
  funext i
  cases i <;> simp only [txnCount, sameRange]

theorem run_busLog_length (is : List Instr) (s : State) :
    ∃ t, runCommands is s = some t ∧ t.busLog.length = s.busLog.length + (is.map (txnCount s)).sum := by
  induction is generalizing s with
  | nil => exact ⟨s, rfl, rfl⟩
  | cons i is ih =>
    obtain ⟨t, hrun, hlen⟩ := ih (s.perform (plan i s))
    have sameCount : txnCount (s.perform (plan i s)) = txnCount s := txnCount_congr (perform_fixed s _).2.1
    refine ⟨t, (runCommands_cons (exec_eq_perform i s) is).trans hrun, ?_⟩
    rw [hlen, sameCount, perform_busLog, List.length_append, length_txnPart_plan, List.map_cons, List.sum_cons,
      Nat.add_assoc]

/-- Commands that perform one transaction each. -/
theorem run_busLog_length_of_one_each {is : List Instr} {s : State} (h : ∀ i ∈ is, txnCount s i = 1) :
    ∃ t, runCommands is s = some t ∧ t.busLog.length = s.busLog.length + is.length := by
  obtain ⟨t, hrun, hlen⟩ := run_busLog_length is s
  refine ⟨t, hrun, hlen.trans ?_⟩
  rw [List.map_congr_left h]
  simp

/-! Clipping (43_sprite_blit R145), and what a blit expands to. -/

theorem clipTo_eq_some {bound n : Nat} {c : Int} :
    clipTo bound c = some n ↔ 0 ≤ c ∧ c < bound ∧ c.toNat = n := by
  simp [clipTo, and_assoc]

theorem isSome_clipTo (bound : Nat) (c : Int) : (clipTo bound c).isSome = decide (0 ≤ c ∧ c < bound) := by
  unfold clipTo
  split_ifs with h <;> simp [h]

theorem clipTo_lt {bound n : Nat} {c : Int} (h : clipTo bound c = some n) : n < bound := by
  obtain ⟨low, high, rfl⟩ := clipTo_eq_some.1 h
  omega

theorem mem_blitFast {total : Nat} {x : Int} {w : Nat} {asset : List Byte} {k : Instr} :
    k ∈ blitFast total x w asset ↔ ∃ i < w, ∃ c, clipTo total (x + (i : Int)) = some c ∧
      .wrcol (BitVec.ofNat 12 c) (spriteColumn asset i) = k := by
  simp [blitFast]

theorem mem_blitGeneral {total : Nat} {x y : Int} {w h : Nat} {asset : List Byte} {k : Instr} :
    k ∈ blitGeneral total x y w h asset ↔ ∃ i < w, ∃ j < h, ∃ c, clipTo total (x + (i : Int)) = some c ∧
      ∃ r, clipTo panelH (y + (j : Int)) = some r ∧
        .wrdot (BitVec.ofNat 12 c) (BitVec.ofNat 4 r) ((spriteColumn asset i).getLsbD j) = k := by
  simp [blitGeneral, Option.bind_eq_some_iff]

/-- A column of the chain keeps its number in the COL field. -/
theorem toNat_colField {total c : Nat} (ht : total ≤ 4096) (hc : c < total) : (BitVec.ofNat 12 c).toNat = c := by
  rw [BitVec.toNat_ofNat, Nat.mod_eq_of_lt (by omega)]

/-- A row keeps its number in the ROW field. -/
theorem toNat_rowField {r : Nat} (hr : r < 8) : (BitVec.ofNat 4 r).toNat = r := by
  rw [BitVec.toNat_ofNat, Nat.mod_eq_of_lt (by omega)]

/-- Every command of a blit is a WRCOL or WRDOT in range, and so performs one transaction. -/
theorem txnCount_of_mem_expandBlit {s : State} (ht : s.total ≤ 4096) {x y : Int} {w h : Nat} {asset : List Byte} :
    ∀ k ∈ expandBlit s.total x y w h asset, txnCount s k = 1 := by
  intro k hk
  unfold expandBlit at hk
  split_ifs at hk
  · obtain ⟨i, -, c, hc, rfl⟩ := mem_blitFast.1 hk
    have col := clipTo_lt hc
    simp only [txnCount, State.inRange, toNat_colField ht col, col, decide_true, if_true]
  · obtain ⟨i, -, j, -, c, hc, r, hr, rfl⟩ := mem_blitGeneral.1 hk
    have col := clipTo_lt hc
    have row : r < 8 := clipTo_lt hr
    simp only [txnCount, State.inRange, rowInRange, toNat_colField ht col, toNat_rowField row, col, row, decide_true,
      Bool.and_self, if_true]

/-! The number of commands of a blit: its in-range columns, times its in-range rows on the general path. -/

theorem length_blitFast (total : Nat) (x : Int) (w : Nat) (asset : List Byte) :
    (blitFast total x w asset).length =
      ((List.range w).filter fun i : Nat => decide (0 ≤ x + (i : Int) ∧ x + (i : Int) < total)).length := by
  simp only [blitFast, List.length_filterMap_eq_countP, List.countP_eq_length_filter, Option.isSome_map, isSome_clipTo]

/-- A list that gives n entries for each member of l with the property p, and none for the others. -/
theorem length_flatMap_of_length_eq_ite {α β : Type} {l : List α} {p : α → Bool} {f : α → List β} {n : Nat}
    (hf : ∀ a, (f a).length = if p a then n else 0) : (l.flatMap f).length = (l.filter p).length * n := by
  induction l with
  | nil => simp
  | cons a l ih =>
    rw [List.flatMap_cons, List.length_append, ih, hf, List.filter_cons]
    split_ifs <;> simp [Nat.add_mul, Nat.add_comm]

theorem length_blitGeneral (total : Nat) (x y : Int) (w h : Nat) (asset : List Byte) :
    (blitGeneral total x y w h asset).length =
      ((List.range w).filter fun i : Nat => decide (0 ≤ x + (i : Int) ∧ x + (i : Int) < total)).length *
      ((List.range h).filter fun j : Nat => decide (0 ≤ y + (j : Int) ∧ y + (j : Int) < 8)).length := by
  refine length_flatMap_of_length_eq_ite fun i => ?_
  rw [← isSome_clipTo]
  cases clipTo total (x + (i : Int)) with
  | none => simp
  | some c => simp [List.length_filterMap_eq_countP, List.countP_eq_length_filter, isSome_clipTo]

/-- The COL field reaches every column of a sound machine (00_scope R6, R9). -/
theorem total_le_of_sound {s : State} (h : s.Sound) : s.total ≤ 4096 := by
  have := h.countMax
  have := h.params.2
  rw [total_eq]
  omega

/-- Settles O10: each command of the expansion performs one transaction, so the count is the length of the expansion. -/
theorem blitTransactionCount : Obligations.BlitTransactionCount := by
  intro s x y w h asset sound _
  obtain ⟨t, hrun, hlen⟩ := run_busLog_length_of_one_each (txnCount_of_mem_expandBlit (total_le_of_sound sound))
  refine ⟨t, hrun, hlen.trans ?_⟩
  rw [expandBlit, apply_ite List.length, length_blitFast, length_blitGeneral]

/-- Settles O7: the check and the expansion of BLITA both read w and h in the asset's first two bytes, and are otherwise
BLIT's own. -/
theorem blitaIsBlitWithHeader : Obligations.BlitaIsBlitWithHeader := fun _ _ _ _ _ _ _ => rfl

end Sys2Proof.Proofs
end

section
/-! The edges at the pins of a command (70_reset_and_hazards R183): each transaction's wave form has one CLOCK rising
edge a bit and one LOAD rising edge (40_bus_transport R90), and nothing else a command does makes an edge. -/

namespace Sys2Proof.Proofs

open Sys2Proof.Machine Sys2Proof.Laws

/-- One CLOCK rising edge a bit, and CLOCK is high again after it. -/
theorem clockEdges_bitCells_append (bs : List Bool) (es : List PinEvent) :
    clockEdges true (bs.flatMap bitCell ++ es) = bs.length + clockEdges true es := by
  induction bs with
  | nil => simp
  | cons b bs ih =>
    have oneEdge : clockEdges true ((b :: bs).flatMap bitCell ++ es) =
        1 + clockEdges true (bs.flatMap bitCell ++ es) := by simp [bitCell, clockEdges]
    rw [oneEdge, ih, List.length_cons]
    omega

/-- The bits of a transaction leave LOAD alone. -/
theorem loadEdges_bitCells_append (level : Bool) (bs : List Bool) (es : List PinEvent) :
    loadEdges level (bs.flatMap bitCell ++ es) = loadEdges level es := by
  induction bs with
  | nil => rfl
  | cons b bs ih =>
    have noEdge : loadEdges level ((b :: bs).flatMap bitCell ++ es) = loadEdges level (bs.flatMap bitCell ++ es) := by
      simp [bitCell, loadEdges]
    rw [noEdge, ih]

theorem waveform_append (F : List Frame) (es : List PinEvent) :
    waveform F ++ es = .write .load false :: ((stream F).flatMap bitCell ++ .write .load true :: es) := by
  simp [waveform]

theorem clockEdges_waveform_append (F : List Frame) (es : List PinEvent) :
    clockEdges true (waveform F ++ es) = 16 * F.length + clockEdges true es := by
  rw [waveform_append, clockEdges, clockEdges_bitCells_append, clockEdges, length_stream] <;> simp

theorem loadEdges_waveform_append (F : List Frame) (es : List PinEvent) :
    loadEdges true (waveform F ++ es) = 1 + loadEdges true es := by
  simp [waveform_append, loadEdges, loadEdges_bitCells_append]

/-- The CLOCK edges of actions that fit the machine: 16 for each frame of their transactions, one frame a device. -/
theorem clockEdges_pinPart {s : State} {as : List Action} (hf : ∀ a ∈ as, s.actionFits a) :
    clockEdges true (pinPart as) = 16 * s.deviceCount * (txnPart as).length := by
  induction as with
  | nil => rfl
  | cons a as ih =>
    obtain ⟨first, rest⟩ := List.forall_mem_cons.1 hf
    cases a with
    | txn F =>
      have oneFrameEach : F.length = s.deviceCount := first
      rw [pinPart, txnPart, clockEdges_waveform_append, ih rest, oneFrameEach, List.length_cons, Nat.mul_succ,
        Nat.add_comm]
    | fb _ _ | rsp _ | clockHigh | badCmd => simpa [pinPart, txnPart, clockEdges] using ih rest

theorem loadEdges_pinPart (as : List Action) : loadEdges true (pinPart as) = (txnPart as).length := by
  induction as with
  | nil => rfl
  | cons a as ih =>
    cases a with
    | txn F => rw [pinPart, txnPart, loadEdges_waveform_append, ih, List.length_cons, Nat.add_comm]
    | fb _ _ | rsp _ | clockHigh | badCmd => simpa [pinPart, txnPart, loadEdges] using ih

/-- Settles O46: the plan of a command holds the table's number of transactions, and what it shows at the pins are their
wave forms, besides INIT's CLOCK write at a level that CLOCK has already. -/
theorem transactionCounts : Obligations.TransactionCounts := by
  intro s h hq
  obtain ⟨hc, hl⟩ := h.idlePins hq
  refine ⟨fun i => ⟨s.perform (plan i s), pinPart (plan i s), exec_eq_perform i s, ?_, ?_, ?_, ?_⟩, rfl, rfl⟩
  · rw [perform_busLog, List.length_append, length_txnPart_plan]
  · rw [perform_eq s _ hc hl]
  · rw [clockEdges_pinPart (plan_fits i s), length_txnPart_plan]
  · rw [loadEdges_pinPart, length_txnPart_plan]

end Sys2Proof.Proofs
end

section
/-! The sync relation after a command (10_state R35, 70_reset_and_hazards R184): what the command leaves in one column's
FB cell and in the register that mirrors it. -/

namespace Sys2Proof.Proofs

open Sys2Proof.Machine Sys2Proof.Laws

/-- The column register that mirrors column c. -/
def mirror (s : State) (c : Nat) : Option Byte := s.devReg (deviceOf c) (s.colReg (localOf c))

theorem inSync_iff_mirror {s : State} {c : Nat} : s.inSync c ↔ mirror s c = some (s.fbRead c) := inSync_iff

/-- The row of R184's table for a command, at one column. -/
def FollowsSyncTable (s : State) (i : Instr) (c : Nat) : Prop :=
  ∃ t, exec i s = .next t ∧ (bringsIntoSync s i c = true → t.inSync c) ∧
    (mayBreakSync s i c = false → s.inSync c → t.inSync c)

/-- What any command, RDCOL included, leaves in FB and in the devices of a sound block with no command executing. -/
theorem exec_fb_dev (i : Instr) {s : State} (h : s.Sound) (hq : s.seq = none) :
    ∃ t, exec i s = .next t ∧ t.params = s.params ∧ t.fb = writeCells s.fb (fbPart (plan i s)) ∧
      t.dev = takeChains s.params.regmap.noop (txnPart (plan i s)) s.dev := by
  obtain ⟨hc, hl⟩ := h.idlePins hq
  refine ⟨_, exec_eq_perform i s, ?_⟩
  rw [perform_eq s _ hc hl]
  exact ⟨rfl, rfl, rfl⟩

theorem total_of_exec {i : Instr} {s t : State} (he : exec i s = .next t) : t.total = s.total := by
  obtain ⟨u, hu, -, htotal⟩ := exec_next_fb i s
  cases he.symm.trans hu
  exact htotal

theorem mirror_eq {s t : State} (hp : t.params = s.params) (c : Nat) :
    mirror t c = t.devReg (deviceOf c) (s.colReg (localOf c)) := by
  rw [mirror, State.colReg, hp, State.colReg]

theorem localOf_lt (c : Nat) : localOf c < 8 := Nat.mod_lt c (by decide)

/-- Where the column registers are apart, a column is known by its device and its register. -/
theorem eq_of_same_register {s : State} (columns : s.params.regmap.ColumnsDistinct) {c c' : Nat}
    (hdev : deviceOf c = deviceOf c') (hreg : s.colReg (localOf c) = s.colReg (localOf c')) : c = c' := by
  have hlocal : localOf c = localOf c' :=
    col_injective columns (localOf_lt c) (localOf_lt c') hreg
  rw [← globalOf_deviceOf_localOf c, hdev, hlocal, globalOf_deviceOf_localOf]

theorem colReg_ne_noop {s : State} (columns : s.params.regmap.ColumnsDistinct) (c : Nat) :
    s.colReg (localOf c) ≠ s.params.regmap.noop :=
  col_ne_noop (List.nodup_cons.1 columns).1 (localOf_lt c)

section
variable {s t : State} {c : Nat} {i : Instr}

theorem inSync_of_written {v : Byte} (hfb : t.fb.read c = some v) (hm : mirror t c = some v) : t.inSync c :=
  inSync_iff_mirror.2 (by rw [hm, fbRead_of_read hfb])

theorem inSync_of_kept (h : s.Sound) (hc : c < s.total) (hfb : t.fb.read c = s.fb.read c) (hm : mirror t c = mirror s c)
    (hs : s.inSync c) : t.inSync c :=
  inSync_of_written (hfb.trans (read_of_cells h.fbCells hc)) (hm.trans (inSync_iff_mirror.1 hs))

theorem followsSyncTable_of_inSync (he : exec i s = .next t) (ht : t.inSync c) : FollowsSyncTable s i c :=
  ⟨t, he, fun _ => ht, fun _ _ => ht⟩

/-! Commands that perform no transaction: NOP, RDCOL, STAGE, STBLK, and every clipped form. -/

theorem read_writeCells_other (m : Memory) {l : List (Nat × Byte)} (h : ∀ e ∈ l, e.1 ≠ c) :
    (writeCells m l).read c = m.read c := by
  induction l generalizing m with
  | nil => rfl
  | cons e l ih =>
    obtain ⟨first, rest⟩ := List.forall_mem_cons.1 h
    exact (ih (m.write e.1 e.2) rest).trans (read_write_other m e.2 first.symm)

theorem not_bringsIntoSync_of_no_txn (hn : txnCount s i = 0) : bringsIntoSync s i c = false := by
  cases i with
  | nop | stage _ _ | stblk _ _ | rdcol _ => rfl
  | init | bcast _ _ | clear | flush | shl _ _ | shr _ _ | shu _ | shd _ => cases hn
  | wrcol _ _ | wrdot _ _ _ | wrall _ _ =>
    simp only [txnCount, ite_eq_right_iff, Nat.one_ne_zero, imp_false, Bool.not_eq_true] at hn
    simp [bringsIntoSync, hn]

/-- Without a transaction, a command writes only cells that the table names. -/
theorem fbPart_avoids_of_no_txn (hn : txnCount s i = 0) (hb : mayBreakSync s i c = false) :
    ∀ e ∈ fbPart (plan i s), e.1 ≠ c := by
  cases i with
  | nop | rdcol _ => exact nofun
  | init | bcast _ _ | clear | flush | shl _ _ | shr _ _ | shu _ | shd _ => cases hn
  | stage col val =>
    have apart : c ≠ col.toNat := by simpa [mayBreakSync] using hb
    simp only [plan, planStage]
    split
    · simpa [fbPart] using apart.symm
    · exact nofun
  | stblk off data =>
    intro e he
    rw [plan, planStblk, fbPart_map_fb] at he
    obtain ⟨k, hk, rfl⟩ := List.mem_map.1 he
    have inBlock : k < 8 := List.mem_range.1 (List.mem_of_mem_filter hk)
    have outside : off.toNat ≤ c → off.toNat + 8 ≤ c := by simpa [mayBreakSync] using hb
    dsimp only
    omega
  | wrcol _ _ | wrdot _ _ _ | wrall _ _ =>
    simp only [txnCount, ite_eq_right_iff, Nat.one_ne_zero, imp_false, Bool.not_eq_true] at hn
    simp [plan, planWrcol, planWrdot, planWrall, hn, fbPart]

theorem followsSyncTable_of_no_txn (h : s.Sound) (hq : s.seq = none) (hc : c < s.total) (hn : txnCount s i = 0) :
    FollowsSyncTable s i c := by
  obtain ⟨t, he, hp, hfb, hdev⟩ := exec_fb_dev i h hq
  have noTxn : txnPart (plan i s) = [] := List.length_eq_zero_iff.1 ((length_txnPart_plan i s).trans hn)
  have sameDev : t.dev = s.dev := by rw [hdev, noTxn, takeChains_nil]
  have sameMirror : mirror t c = mirror s c := by rw [mirror_eq hp, mirror, State.devReg, sameDev, State.devReg]
  refine ⟨t, he, ?_, fun hb => inSync_of_kept h hc ?_ sameMirror⟩
  · simp [not_bringsIntoSync_of_no_txn hn]
  · rw [hfb, read_writeCells_other _ (fbPart_avoids_of_no_txn hn hb)]

/-! WRCOL, WRDOT, WRALL and BCAST in range: one transaction. -/

/-- WRCOL and WRDOT: the cell and its mirror both take the value, and no other column is touched. -/
theorem followsSyncTable_of_writeCol (h : s.Sound) (hq : s.seq = none) (columns : s.params.regmap.ColumnsDistinct)
    (hc : c < s.total) {col : Nat} {v : Byte} (hcol : col < s.total) (hplan : plan i s = s.writeCol col v)
    (hb : bringsIntoSync s i c = true → c = col) : FollowsSyncTable s i c := by
  obtain ⟨t, he, hp, hfb, hdev⟩ := exec_fb_dev i h hq
  rw [hplan] at hfb hdev
  have cell : t.fb.read c = if c = col then some v else s.fb.read c := hfb ▸ read_write ..
  have register := devReg_targeted h.chain (deviceOf_lt hcol) _ v hdev (deviceOf c) (s.colReg (localOf c))
  rw [← mirror_eq hp] at register
  by_cases same : c = col
  · subst same
    rw [if_pos rfl] at cell
    rw [if_pos ⟨rfl, rfl, colReg_ne_noop columns c⟩] at register
    exact followsSyncTable_of_inSync he (inSync_of_written cell register)
  · rw [if_neg same] at cell
    rw [if_neg fun ⟨hd, hr, _⟩ => same (eq_of_same_register columns hd hr)] at register
    exact ⟨t, he, fun brings => absurd (hb brings) same, fun _ => inSync_of_kept h hc cell register⟩

theorem followsSyncTable_wrall (h : s.Sound) (hq : s.seq = none) (columns : s.params.regmap.ColumnsDistinct)
    (hc : c < s.total) {lcol : BitVec 12} (hl : lcol.toNat < 8) (val : Byte) :
    FollowsSyncTable s (.wrall lcol val) c := by
  obtain ⟨t, he, hframe, -, cells, others, registers⟩ := wrallWritesEveryDevice s lcol val h hq hl
  have hp : t.params = s.params := by rw [hframe]
  have register := registers _ (s.colReg (localOf c)) (deviceOf_lt hc)
  rw [← mirror_eq hp] at register
  by_cases same : localOf c = lcol.toNat
  · rw [if_pos ⟨by rw [same], colReg_ne_noop columns c⟩] at register
    have cell := cells _ (deviceOf_lt hc)
    rw [← same, ← globalOf_def, globalOf_deviceOf_localOf] at cell
    exact followsSyncTable_of_inSync he (inSync_of_written cell register)
  · have apart : s.colReg (localOf c) ≠ s.colReg lcol.toNat := fun e =>
      same (col_injective columns (localOf_lt c) hl e)
    rw [if_neg fun hr => apart hr.1] at register
    have cell := others c fun k _ e => same (by rw [e, ← globalOf_def, localOf_globalOf hl])
    exact ⟨t, he, by simp [bringsIntoSync, same], fun _ => inSync_of_kept h hc cell register⟩

theorem followsSyncTable_bcast (h : s.Sound) (hq : s.seq = none) (columns : s.params.regmap.ColumnsDistinct)
    (hc : c < s.total) (reg val : Byte) : FollowsSyncTable s (.bcast reg val) c := by
  obtain ⟨t, he, hp, hfb, hdev⟩ := exec_fb_dev (.bcast reg val) h hq
  have sameCell : t.fb.read c = s.fb.read c := by rw [hfb]; rfl
  have register := devReg_broadcasts h.chain [(reg, val)] hdev (deviceOf_lt hc) (s.colReg (localOf c))
  rw [← mirror_eq hp] at register
  simp only [List.map_cons, List.map_nil, lastValue, frameAddress_frame, frameValue_frame] at register
  by_cases named : s.colReg (localOf c) = reg
  · rw [if_pos ⟨named, named ▸ colReg_ne_noop columns c⟩] at register
    have agree (hv : s.fbRead c = val) : t.inSync c :=
      inSync_of_written (sameCell.trans ((read_of_cells h.fbCells hc).trans (congrArg some hv))) register
    exact ⟨t, he, fun hb => agree (by simpa [bringsIntoSync, named] using hb),
      fun hb _ => agree (by simpa [mayBreakSync, named] using hb)⟩
  · rw [if_neg fun hr => named hr.1] at register
    exact ⟨t, he, by simp [bringsIntoSync, Ne.symm named], fun _ => inSync_of_kept h hc sameCell register⟩

/-! CLEAR, FLUSH and the shifts: every column register takes the FB value of its column. -/

theorem followsSyncTable_of_flush (h : s.Sound) (hq : s.seq = none) (columns : s.params.regmap.ColumnsDistinct)
    (hc : c < s.total) (vals : Nat → Byte)
    (htxn : txnPart (plan i s) = (List.range 8).map fun lc => s.multiFrames (s.colReg lc) fun k => vals (globalOf k lc))
    (hfb : (writeCells s.fb (fbPart (plan i s))).read c = some (vals c)) : FollowsSyncTable s i c := by
  obtain ⟨t, he, hp, hfb', hdev⟩ := exec_fb_dev i h hq
  rw [htxn] at hdev
  have register : mirror t c = some (vals c) := by
    rw [mirror_eq hp, devReg_flush h.chain vals hdev (deviceOf_lt hc), State.colReg,
      lastValue_cols columns (fun l => vals (globalOf (deviceOf c) l)) (localOf_lt c),
      globalOf_deviceOf_localOf]
  exact followsSyncTable_of_inSync he (inSync_of_written (hfb' ▸ hfb) register)

theorem followsSyncTable_of_transform (h : s.Sound) (hq : s.seq = none) (columns : s.params.regmap.ColumnsDistinct)
    (hc : c < s.total) {vals : Nat → Byte} (hplan : plan i s = s.transform vals) : FollowsSyncTable s i c :=
  followsSyncTable_of_flush h hq columns hc vals (by rw [hplan, txnPart_transform])
    (by rw [hplan, fbPart_transform, read_writeCells_fn, if_pos (List.mem_range.2 hc)])

/-- CLEAR's broadcasts are the transactions of a flush of zeros. -/
theorem txnPart_clear (s : State) :
    txnPart (plan .clear s) = (List.range 8).map fun lc => s.multiFrames (s.colReg lc) fun _ => 0x00 := by
  simp [plan, planClear, State.fbAll, List.range_succ, txnPart_writeAll, State.bcastFrames, State.multiFrames]

end

/-- Settles O45: row by row. A command brings a column into sync by giving its cell and its mirror one value, and leaves
it in sync by leaving both alone; only STAGE, STBLK and BCAST touch one of the two without the other. -/
theorem syncTable : Obligations.SyncTable := by
  intro s h hq distinct c hc
  have columns := distinct_columns distinct
  have badWord : s.inSync c → s.raiseBadCmd.inSync c := id
  suffices rows : ∀ i, FollowsSyncTable s i c from ⟨rows, badWord⟩
  intro i
  cases i with
  | nop | stage _ _ | stblk _ _ | rdcol _ => exact followsSyncTable_of_no_txn h hq hc rfl
  | bcast reg val => exact followsSyncTable_bcast h hq columns hc reg val
  | init =>
    obtain ⟨t, he, -, -, -, synced⟩ := initConfiguresEveryDevice s h hq distinct
    exact followsSyncTable_of_inSync he (synced c (total_of_exec he ▸ hc))
  | wrcol col val =>
    by_cases hcol : col.toNat < s.total
    · exact followsSyncTable_of_writeCol h hq columns hc (v := val) hcol
        (by simp [plan, planWrcol, State.inRange, hcol]) fun hb => beq_iff_eq.1 (Bool.and_eq_true_iff.1 hb).2
    · exact followsSyncTable_of_no_txn h hq hc (by simp [txnCount, State.inRange, hcol])
  | wrdot col row v =>
    by_cases inside : col.toNat < s.total ∧ row.toNat < 8
    · exact followsSyncTable_of_writeCol h hq columns hc inside.1 (v := dotColumn (s.fbRead col.toNat) row.toNat v)
        (by simp [plan, planWrdot, State.inRange, rowInRange, inside])
        fun hb => beq_iff_eq.1 (Bool.and_eq_true_iff.1 hb).2
    · exact followsSyncTable_of_no_txn h hq hc (by simpa [txnCount, State.inRange, rowInRange] using inside)
  | wrall lcol val =>
    by_cases hl : lcol.toNat < 8
    · exact followsSyncTable_wrall h hq columns hc hl val
    · exact followsSyncTable_of_no_txn h hq hc (by simp [txnCount, localInRange, hl])
  | clear =>
    have zeroCell : (writeCells s.fb (fbPart (plan .clear s))).read c = some 0x00 := by
      rw [read_writeCells_const _ fun _ he => eq_zero_of_fb_mem_plan_clear (mem_fbPart.1 he),
        if_pos (mem_fbPart_clear hc)]
    exact followsSyncTable_of_flush h hq columns hc (fun _ => 0x00) (txnPart_clear s) zeroCell
  | flush =>
    have noWrite : fbPart (plan .flush s) = [] := fbPart_map_txn _ _
    exact followsSyncTable_of_flush h hq columns hc s.fbRead (txnPart_map_txn _ _)
      (by rw [noWrite]; exact read_of_cells h.fbCells hc)
  | shl _ _ | shr _ _ | shu _ | shd _ => exact followsSyncTable_of_transform h hq columns hc rfl

end Sys2Proof.Proofs
end

section
/-! The round trip of the encoding (30_encoding R72 to R78), both ways: a command's word matches the command's row and
carries its fields, and a word that matches a row is the row's pattern with the fields it reads. -/

namespace Sys2Proof.Proofs

open Sys2Proof.Laws

theorem encode_matches_row : ∀ i : Instr, RowMatch.Statement i
  | .nop => RowMatch.nop
  | .init => RowMatch.init
  | .bcast reg val => RowMatch.bcast reg val
  | .stage col val => RowMatch.stage col val
  | .wrcol col val => RowMatch.wrcol col val
  | .wrdot col row v => RowMatch.wrdot col row v
  | .wrall lcol val => RowMatch.wrall lcol val
  | .stblk off data => RowMatch.stblk off data
  | .clear => RowMatch.clear
  | .flush => RowMatch.flush
  | .shl rot fill => RowMatch.shl rot fill
  | .shr rot fill => RowMatch.shr rot fill
  | .shu rot => RowMatch.shu rot
  | .shd rot => RowMatch.shd rot
  | .rdcol col => RowMatch.rdcol col

/-- A command's row reads the operands back from the command's word, and STBLK's block from `cmd_data`. -/
theorem read_encode {i : Instr} {d : Block} (hblock : ∀ off data, i = .stblk off data → d = data) {r : OpRow}
    (hrow : opTable[rowIndex i]? = some r) : r.read (encode i) d = i := by
  cases i with
  | nop | init | clear | flush => cases hrow; rfl
  | bcast reg val => cases hrow; simp only [encode, fields_formatB]
  | stage _ _ | wrcol _ _ | wrall _ _ | rdcol _ => cases hrow; simp only [encode, fields_formatC]
  | stblk off data => cases hrow; simp only [encode, fields_formatC, hblock off data rfl]
  | wrdot col row v => cases hrow; simp only [encode, fields_formatD]
  | shl _ _ | shr _ _ | shu _ | shd _ => cases hrow; simp only [encode, fields_formatS]

/-- Settles O2: the word matches the command's own row, and that row reads the operands back. -/
theorem decodeOfEncode : Obligations.DecodeOfEncode := by
  intro i d hblock
  obtain ⟨r, hrow, hmatch⟩ := encode_matches_row i
  rw [decode_of_row (List.mem_of_getElem? hrow) hmatch, read_encode hblock hrow]

/-! A format put together from a word's own fields: the word's bits outside the format's mask, and the opcode. -/

theorem formatB_of_fields (op : BitVec 4) (w : Word) :
    formatB op (fieldReg w) (fieldVal w) = (op ++ 0#28) ||| (w &&& ~~~0xFFFF0000) := by
  apply BitVec.eq_of_getLsbD_eq
  intro i hi
  simp only [formatB, fieldReg, fieldVal, BitVec.getLsbD_append, BitVec.getLsbD_or, BitVec.getLsbD_and,
    BitVec.getLsbD_extractLsb']
  interval_cases i <;> simp

theorem formatC_of_fields (op : BitVec 4) (w : Word) :
    formatC op (fieldCol w) (fieldVal w) = (op ++ 0#28) ||| (w &&& ~~~0xFF000F00) := by
  apply BitVec.eq_of_getLsbD_eq
  intro i hi
  simp only [formatC, fieldCol, fieldVal, BitVec.getLsbD_append, BitVec.getLsbD_or, BitVec.getLsbD_and,
    BitVec.getLsbD_extractLsb']
  interval_cases i <;> simp

theorem formatC_zero_of_fields (op : BitVec 4) (w : Word) :
    formatC op (fieldCol w) 0 = (op ++ 0#28) ||| (w &&& ~~~0xFF000FFF) := by
  apply BitVec.eq_of_getLsbD_eq
  intro i hi
  simp only [formatC, fieldCol, BitVec.getLsbD_append, BitVec.getLsbD_or, BitVec.getLsbD_and,
    BitVec.getLsbD_extractLsb']
  interval_cases i <;> simp

theorem formatD_of_fields (op : BitVec 4) (w : Word) :
    formatD op (fieldF1 w) (fieldCol w) (fieldRow w) = (op ++ 0#28) ||| (w &&& ~~~0xF70000FF) := by
  apply BitVec.eq_of_getLsbD_eq
  intro i hi
  simp only [formatD, fieldF1, fieldCol, fieldRow, BitVec.getLsbD_append, BitVec.getLsbD_or, BitVec.getLsbD_and,
    BitVec.getLsbD_extractLsb']
  interval_cases i <;> simp

theorem formatS_of_fields (op : BitVec 4) (w : Word) :
    formatS op (fieldF1 w) (fieldF0 w) = (op ++ 0#28) ||| (w &&& ~~~0xF3FFFFFF) := by
  apply BitVec.eq_of_getLsbD_eq
  intro i hi
  simp only [formatS, fieldF1, fieldF0, BitVec.getLsbD_append, BitVec.getLsbD_or, BitVec.getLsbD_and]
  interval_cases i <;> simp

theorem formatS_false_of_fields (op : BitVec 4) (w : Word) :
    formatS op (fieldF1 w) false = (op ++ 0#28) ||| (w &&& ~~~0xF7FFFFFF) := by
  apply BitVec.eq_of_getLsbD_eq
  intro i hi
  simp only [formatS, fieldF1, BitVec.getLsbD_append, BitVec.getLsbD_or, BitVec.getLsbD_and]
  interval_cases i <;> simp

/-- What a row reads from a word, encoded again: the row's pattern, and the word outside the row's mask. -/
theorem encode_read {r : OpRow} (hr : r ∈ opTable) (w : Word) (d : Block) :
    encode (r.read w d) = r.pattern ||| (w &&& ~~~r.mask) := by
  simp only [opTable, List.mem_cons, List.not_mem_nil, or_false] at hr
  obtain rfl | rfl | rfl | rfl | rfl | rfl | rfl | rfl | rfl | rfl | rfl | rfl | rfl | rfl | rfl := hr
  · simp [encode, formatN]
  · simp [encode, formatN]
  · exact formatB_of_fields 0x2 w
  · exact formatC_of_fields 0x3 w
  · exact formatC_of_fields 0x4 w
  · exact formatD_of_fields 0x5 w
  · exact formatC_of_fields 0x6 w
  · exact formatC_zero_of_fields 0x7 w
  · simp [encode, formatN]
  · simp [encode, formatN]
  · exact formatS_of_fields 0xA w
  · exact formatS_of_fields 0xB w
  · exact formatS_false_of_fields 0xC w
  · exact formatS_false_of_fields 0xD w
  · exact formatC_zero_of_fields 0xE w

/-- A matching row has read all of the word: its pattern is the word inside the mask. -/
theorem encode_read_of_matches {r : OpRow} (hr : r ∈ opTable) {w : Word} (hw : r.matchesWord w = true) (d : Block) :
    encode (r.read w d) = w := by
  have inside : w &&& r.mask = r.pattern := beq_iff_eq.1 hw
  rw [encode_read hr, ← inside, ← BitVec.and_or_distrib_left, BitVec.or_not_self, BitVec.and_allOnes]

/-- Only STBLK's row reads `cmd_data`, and it reads all of it. -/
theorem block_of_read {r : OpRow} (hr : r ∈ opTable) {w : Word} {d : Block} {off : BitVec 12} {data : Block}
    (h : r.read w d = .stblk off data) : data = d := by
  simp only [opTable, List.mem_cons, List.not_mem_nil, or_false] at hr
  obtain rfl | rfl | rfl | rfl | rfl | rfl | rfl | rfl | rfl | rfl | rfl | rfl | rfl | rfl | rfl := hr <;> cases h
  rfl

/-- What the decoder says of a word: what a matching row reads, or, where no row matches, BAD with its cause
(30_encoding R78, R80). -/
theorem decode_cases (w : Word) (d : Block) :
    (∃ r ∈ opTable, r.matchesWord w = true ∧ decode w d = .command (r.read w d)) ∨
    ((∀ r ∈ opTable, ¬ r.matchesWord w = true) ∧
      decode w d = .bad (if fieldOp w = 0xF then .reservedOpcode else .mustBeZero)) := by
  cases hfind : opTable.find? (fun r => r.matchesWord w) with
  | some r =>
    have hmatch : r.matchesWord w = true := List.find?_some (p := fun r : OpRow => r.matchesWord w) hfind
    exact .inl ⟨r, List.mem_of_find?_eq_some hfind, hmatch, by rw [decode, hfind]⟩
  | none => exact .inr ⟨List.find?_eq_none.1 hfind, by rw [decode, hfind]⟩

/-- Settles O3: some row of the map matches the word and read the command, and it read the whole word. -/
theorem encodeOfDecode : Obligations.EncodeOfDecode := by
  intro w d i h
  obtain ⟨r, hr, hmatch, hd⟩ | ⟨-, hd⟩ := decode_cases w d
  · obtain rfl : r.read w d = i := Decoded.command.inj (hd.symm.trans h)
    exact ⟨encode_read_of_matches hr hmatch d, fun _ _ => block_of_read hr⟩
  · cases hd.symm.trans h

end Sys2Proof.Proofs
end

section
/-! What one micro-step of a command in progress can do (10_state R32, 40_bus_transport R90): a pin write or another
action happens, and then the command goes on or has completed. The registers no action reaches are kept. -/

namespace Sys2Proof.Proofs

open Sys2Proof.Machine Sys2Proof.Laws

/-- The ports, the parameters, the host's lists, N_EFF, BUSY and CLAMPED: what no action of a command reaches. -/
structure KeepsControl (s t : State) : Prop where
  params : t.params = s.params
  rst : t.rst = s.rst
  cmdValid : t.cmdValid = s.cmdValid
  cmd : t.cmd = s.cmd
  cmdData : t.cmdData = s.cmdData
  nEff : t.nEff = s.nEff
  busy : t.status.busy = s.status.busy
  clamped : t.status.clamped = s.status.clamped
  host : t.host = s.host
  resets : t.resets = s.resets

theorem KeepsControl.refl (s : State) : KeepsControl s s := ⟨rfl, rfl, rfl, rfl, rfl, rfl, rfl, rfl, rfl, rfl⟩

theorem KeepsControl.trans {s t u : State} (h : KeepsControl s t) (h' : KeepsControl t u) : KeepsControl s u where
  params := h'.params.trans h.params
  rst := h'.rst.trans h.rst
  cmdValid := h'.cmdValid.trans h.cmdValid
  cmd := h'.cmd.trans h.cmd
  cmdData := h'.cmdData.trans h.cmdData
  nEff := h'.nEff.trans h.nEff
  busy := h'.busy.trans h.busy
  clamped := h'.clamped.trans h.clamped
  host := h'.host.trans h.host
  resets := h'.resets.trans h.resets

theorem drivePin_keepsControl (s : State) (p : Pin) (b : Bool) : KeepsControl s (s.drivePin p b) := by
  constructor <;> simp

theorem act_keepsControl (s : State) (a : Action) : KeepsControl s (s.act a) := by
  cases a with
  | clockHigh => exact drivePin_keepsControl s .clock true
  | txn _ | fb _ _ | rsp _ | badCmd => exact ⟨rfl, rfl, rfl, rfl, rfl, rfl, rfl, rfl, rfl, rfl⟩

theorem perform_keepsControl (s : State) (as : List Action) : KeepsControl s (s.perform as) := by
  induction as generalizing s with
  | nil => exact .refl s
  | cons a as ih => exact (act_keepsControl s a).trans (ih (s.act a))

/-- How a micro-step ends after its effect `u`: the same command goes on, or it has completed. -/
def GoesOnOrEnds (u : State) (q : Sequencer) (t : State) : Prop :=
  (∃ q', q'.command = q.command ∧ t = { u with seq := some q' }) ∨ t = u.endCommand

theorem proceed_goesOnOrEnds (u : State) {q q' : Sequencer} (h : q'.command = q.command) :
    GoesOnOrEnds u q (u.proceed q') := by
  obtain ⟨-, e⟩ | ⟨-, e⟩ := proceed_cases u q'
  · exact .inl ⟨q', h, e⟩
  · exact .inr e

/-- A pin write, whatever SO holds and wherever the sequencer goes on after it. -/
theorem pinWrite_outcome (s : State) {q q' : Sequencer} (h : q'.command = q.command) (p : Pin) (b : Bool)
    (so : List Bool) :
    ∃ u, KeepsControl s u ∧ u.rsp = s.rsp ∧ GoesOnOrEnds u q { s.drivePin p b with so := so, seq := some q' } :=
  ⟨{ s.drivePin p b with so := so },
    (drivePin_keepsControl s p b).trans ⟨rfl, rfl, rfl, rfl, rfl, rfl, rfl, rfl, rfl, rfl⟩, drivePin_rsp s p b,
    .inl ⟨q', h, rfl⟩⟩

theorem txnStep_outcome (s : State) (q : Sequencer) (F : List Frame) (rest : List Action) :
    ∃ u, KeepsControl s u ∧ u.rsp = s.rsp ∧ GoesOnOrEnds u q (s.txnStep q F rest) := by
  unfold State.txnStep
  split
  case h_1 => exact pinWrite_outcome s (by rfl) .load false _
  case h_2 =>
    split
    · exact pinWrite_outcome s (by rfl) .clock false _
    · exact ⟨{ s.drivePin .load true with busLog := s.busLog ++ [F] },
        (drivePin_keepsControl s .load true).trans ⟨rfl, rfl, rfl, rfl, rfl, rfl, rfl, rfl, rfl, rfl⟩,
        drivePin_rsp s .load true, proceed_goesOnOrEnds _ rfl⟩
  case h_3 => exact pinWrite_outcome s (by rfl) .data _ _
  case h_4 => exact pinWrite_outcome s (by rfl) .clock true _

/-- Only the action that writes RSP changes it. -/
theorem act_rsp {s : State} {a : Action} (h : ∀ v, a ≠ .rsp v) : (s.act a).rsp = s.rsp := by
  cases a with
  | rsp v => exact absurd rfl (h v)
  | txn _ | fb _ _ | badCmd => rfl
  | clockHigh => exact drivePin_rsp s .clock true

theorem seqStep_outcome (s : State) (q : Sequencer) :
    ∃ u, KeepsControl s u ∧ (u.rsp ≠ s.rsp → ∃ v rest, q.todo = .rsp v :: rest) ∧ GoesOnOrEnds u q (s.seqStep q) := by
  unfold State.seqStep
  split
  case h_1 => exact ⟨s, .refl s, fun h => absurd rfl h, .inr rfl⟩
  case h_2 F rest _ =>
    obtain ⟨u, hk, hrsp, ht⟩ := txnStep_outcome s q F rest
    exact ⟨u, hk, fun h => absurd hrsp h, ht⟩
  case h_3 a rest _ htodo =>
    refine ⟨s.act a, act_keepsControl s a, fun h => ?_, proceed_goesOnOrEnds _ rfl⟩
    by_contra hno
    exact h (act_rsp fun v hv => hno ⟨v, rest, by rw [htodo, hv]⟩)

end Sys2Proof.Proofs
end

section
/-! What a step leaves of the configuration, of RSP, of a waiting offer and of the timed resets (10_state R21, R26, R36,
20_memory R55, 60_exceptions R164). -/

namespace Sys2Proof.Proofs

open Sys2Proof.Machine Sys2Proof.Laws

/-- The parameters, N_EFF, CLAMPED and the timed resets: what even the host's turn does not reach. -/
structure KeepsConfig (s t : State) : Prop where
  params : t.params = s.params
  nEff : t.nEff = s.nEff
  clamped : t.status.clamped = s.status.clamped
  resets : t.resets = s.resets

theorem KeepsConfig.trans {s t u : State} (h : KeepsConfig s t) (h' : KeepsConfig t u) : KeepsConfig s u :=
  ⟨h'.params.trans h.params, h'.nEff.trans h.nEff, h'.clamped.trans h.clamped, h'.resets.trans h.resets⟩

theorem KeepsControl.config {s t : State} (h : KeepsControl s t) : KeepsConfig s t :=
  ⟨h.params, h.nEff, h.clamped, h.resets⟩

theorem endCommand_keepsConfig (s : State) : KeepsConfig s s.endCommand := by constructor <;> simp

theorem completed_keepsConfig (s : State) : KeepsConfig s s.completed := by constructor <;> simp [State.completed]

theorem start_keepsConfig (s : State) (command : Option Instr) (todo : List Action) :
    KeepsConfig s (s.start command todo) := ⟨rfl, rfl, rfl, rfl⟩

theorem accept_keepsConfig (s : State) : KeepsConfig s s.accept := by
  unfold State.accept
  split <;> exact start_keepsConfig ..

theorem GoesOnOrEnds.keepsConfig {u t : State} {q : Sequencer} (h : GoesOnOrEnds u q t) : KeepsConfig u t := by
  obtain ⟨q', -, rfl⟩ | rfl := h
  · exact ⟨rfl, rfl, rfl, rfl⟩
  · exact endCommand_keepsConfig u

theorem seqStep_keepsConfig (s : State) (q : Sequencer) : KeepsConfig s (s.seqStep q) := by
  obtain ⟨u, hk, -, ht⟩ := seqStep_outcome s q
  exact hk.config.trans ht.keepsConfig

theorem microStep_keepsConfig (s : State) : KeepsConfig s s.microStep := by
  unfold State.microStep
  split
  · exact seqStep_keepsConfig s _
  · split
    · exact accept_keepsConfig s
    · exact endCommand_keepsConfig s

theorem pinStep_of_reset {s : State} (h : s.rst = true) : s.pinStep = s.applyReset.releaseReset := if_pos h

theorem pinStep_of_not_reset {s : State} (h : s.rst = false) : s.pinStep = s.microStep.resetClock := by
  simp [State.pinStep, h]

theorem pinStep_params (s : State) : s.pinStep.params = s.params := by
  cases h : s.rst with
  | true => rw [pinStep_of_reset h]; rfl
  | false => rw [pinStep_of_not_reset h, resetClock_params, (microStep_keepsConfig s).params]

theorem pinStep_counts {s : State} (h : s.rst = false) :
    s.pinStep.nEff = s.nEff ∧ s.pinStep.status.clamped = s.status.clamped := by
  rw [pinStep_of_not_reset h, resetClock_nEff, resetClock_status]
  exact ⟨(microStep_keepsConfig s).nEff, (microStep_keepsConfig s).clamped⟩

/-- Settles O48: no action, no end of a command and no host's turn reaches the configuration; only reset sets N_EFF and
CLAMPED. -/
theorem configurationFixed : Obligations.ConfigurationFixed := by
  intro s
  refine ⟨pinStep_params s, pinStep_counts, ?_⟩
  obtain ⟨i, -, -, hs⟩ | ⟨why, -, -, hs⟩ | ⟨-, hs⟩ := step_cases s
  · have kept := (perform_keepsControl s (plan i s)).config.trans (completed_keepsConfig _)
    exact ⟨_, hs, kept.params, fun _ => ⟨kept.nEff, kept.clamped⟩⟩
  · have kept := (act_keepsControl s .badCmd).config.trans (completed_keepsConfig _)
    exact ⟨_, hs, kept.params, fun _ => ⟨kept.nEff, kept.clamped⟩⟩
  · exact ⟨_, hs, pinStep_params s, pinStep_counts⟩

theorem perform_rsp {s : State} {as : List Action} (h : ∀ v, Action.rsp v ∉ as) : (s.perform as).rsp = s.rsp := by
  induction as generalizing s with
  | nil => rfl
  | cons a as ih =>
    have notFirst : ∀ v, a ≠ .rsp v := fun v e => h v (e ▸ List.mem_cons_self)
    rw [perform_cons, ih fun v hv => h v (List.mem_cons_of_mem _ hv), act_rsp notFirst]

theorem GoesOnOrEnds.rsp {u t : State} {q : Sequencer} (h : GoesOnOrEnds u q t) : t.rsp = u.rsp := by
  obtain ⟨q', -, rfl⟩ | rfl := h
  · rfl
  · exact endCommand_rsp u

/-- With no command in progress a micro-step leaves RSP alone. -/
theorem microStep_rsp_of_idle {s : State} (h : s.seq = none) : s.microStep.rsp = s.rsp := by
  simp only [State.microStep, h]
  split
  · unfold State.accept
    split <;> rfl
  · exact endCommand_rsp s

/-- Settles O47: among the actions only the RSP write changes RSP, and only RDCOL's plan has one. -/
theorem onlyRdcolWritesRsp : Obligations.OnlyRdcolWritesRsp := by
  refine ⟨fun i s => ⟨_, exec_eq_perform i s, fun hne => ?_⟩, fun s hne hr => ?_, fun _ => rfl⟩
  · by_contra hno
    exact hne (perform_rsp fun v => plan_no_rsp (fun col e => hno ⟨col, e⟩) s v)
  · rw [pinStep_of_not_reset hr, resetClock_rsp] at hne
    cases hq : s.seq with
    | none => exact absurd (microStep_rsp_of_idle hq) hne
    | some q =>
      obtain ⟨u, -, hrsp, ht⟩ := seqStep_outcome s q
      simp only [State.microStep, hq, ht.rsp] at hne
      obtain ⟨v, rest, htodo⟩ := hrsp hne
      exact ⟨q, v, rest, rfl, htodo⟩

/-- A step of a busy block is a micro-step. -/
theorem step_of_busy {s : State} (h : s.status.busy = true) : step s = .next s.pinStep := by
  simp [step, State.cmdReady, State.busy, h]

/-- A step with a reset timed is a micro-step. -/
theorem step_of_resets {s : State} (h : s.resets ≠ []) : step s = .next s.pinStep := by
  simp [step, h]

/-- A step under reset is a micro-step. -/
theorem step_of_reset {s : State} (h : s.rst = true) : step s = .next s.applyReset.releaseReset := by
  simp [step, State.cmdReady, h, pinStep_of_reset h]

/-- A waiting offer stays on the port when a command goes on, and when it completes, since the host's turn keeps it. -/
theorem GoesOnOrEnds.keepsOffer {u t : State} {q : Sequencer} (h : GoesOnOrEnds u q t) (hv : u.cmdValid = true) :
    t.cmdValid = true ∧ t.cmd = u.cmd ∧ t.cmdData = u.cmdData := by
  obtain ⟨q', -, rfl⟩ | rfl := h
  · exact ⟨hv, rfl, rfl⟩
  · have offered : ({ u.setBusy false with seq := none } : State).cmdValid = true := hv
    rw [endCommand_eq, hostTurn_of_valid offered]
    exact ⟨hv, rfl, rfl⟩

theorem GoesOnOrEnds.command {u t : State} {q : Sequencer} (h : GoesOnOrEnds u q t) :
    ∀ q', t.seq = some q' → q'.command = q.command := by
  obtain ⟨q', hc, rfl⟩ | rfl := h
  · rintro _ ⟨⟩
    exact hc
  · simp

/-- Settles O53: the step is one micro-step of the command in progress, which takes no offer. -/
theorem commandsDoNotInterleave : Obligations.CommandsDoNotInterleave := by
  intro s q hq hbusy hr
  obtain ⟨u, hk, -, ht⟩ := seqStep_outcome s q
  have micro : s.pinStep = (s.seqStep q).resetClock := by
    rw [pinStep_of_not_reset hr, State.microStep, hq]
  refine ⟨s.pinStep, step_of_busy hbusy, ?_, fun hv => ?_⟩
  · rw [micro, resetClock_seq]
    exact ht.command
  · obtain ⟨valid, cmd, cmdData⟩ := ht.keepsOffer (hk.cmdValid.trans hv)
    rw [micro, resetClock_cmdValid, resetClock_cmd, resetClock_cmdData]
    exact ⟨valid, cmd.trans hk.cmd, cmdData.trans hk.cmdData⟩

/-- Settles O60: no micro-step reaches the list of timed resets, so after it the next one is asserted or has come
nearer; under reset a step is the reset, and the block is not ready. -/
theorem hostResetsAtAnyTime : Obligations.HostResetsAtAnyTime := by
  intro s hr
  have resets := (microStep_keepsConfig s).resets
  constructor
  · intro ndev rest h
    have asserted : s.pinStep = { s.microStep.assertReset ndev with resets := rest } := by
      rw [pinStep_of_not_reset hr, resetClock_of_due (resets.trans h)]
    have inReset : s.pinStep.rst = true := by rw [asserted]; rfl
    refine ⟨s.pinStep, step_of_resets (by simp [h]), inReset, ?_, ?_, step_of_reset inReset, ?_⟩
    · rw [asserted]; rfl
    · rw [asserted]
    · simp [State.outputs, State.cmdReady, inReset]
  · intro k ndev rest h
    have nearer : s.pinStep = { s.microStep with resets := ⟨k, ndev⟩ :: rest } := by
      rw [pinStep_of_not_reset hr, resetClock_of_later (resets.trans h)]
    exact ⟨s.pinStep, step_of_resets (by simp [h]), by rw [nearer]⟩

/-- Settles O50: every command performs its plan, and each of the three kinds of step answers a next state. -/
theorem nothingFaults : Obligations.NothingFaults := by
  refine ⟨fun i s => ⟨_, exec_eq_perform i s⟩, fun s => ?_⟩
  obtain ⟨i, -, -, hs⟩ | ⟨why, -, -, hs⟩ | ⟨-, hs⟩ := step_cases s
  all_goals exact ⟨_, hs⟩

section
variable {s : State} (hr : s.rst = false) (hb : s.status.busy = false) (hv : s.cmdValid = true)
include hr hb hv

/-- A ready block with a command offered and no reset timed by the host runs the command whole. -/
theorem step_of_command (hn : s.resets = []) {i : Instr} (hd : decode s.cmd s.cmdData = .command i) :
    step s = .next (s.perform (plan i s)).completed := by
  simp [step, State.cmdReady, State.busy, hr, hb, hv, hn, hd, exec_eq_perform]

/-- A ready block with a BAD word offered and no reset timed by the host rejects it. -/
theorem step_of_bad (hn : s.resets = []) {why : BadCause} (hd : decode s.cmd s.cmdData = .bad why) :
    step s = .next s.raiseBadCmd.completed := by
  simp [step, State.cmdReady, State.busy, hr, hb, hv, hn, hd]

theorem pinStep_of_offer (hq : s.seq = none) : s.pinStep = s.accept.resetClock := by
  simp [pinStep_of_not_reset hr, State.microStep, State.cmdReady, State.busy, hr, hb, hq, hv]

end

/-- Settles O51: with no reset timed the step is `exec`; with one, it is the acceptance. -/
theorem stepRunsDecodedCommand : Obligations.StepRunsDecodedCommand := by
  refine ⟨?whole, ?placed, ?accepted⟩
  case whole =>
    intro s t i hr hb hv hn hd he
    obtain rfl : s.perform (plan i s) = t := Host.Outcome.next.inj ((exec_eq_perform i s).symm.trans he)
    exact step_of_command hr hb hv hn hd
  case placed =>
    intro s t i nbits w hd he
    obtain rfl : _ = t := Host.Outcome.next.inj ((exec_eq_perform i _).symm.trans he)
    refine step_of_command (s := s.withFetchWord nbits w) rfl rfl rfl rfl ?_
    unfold decodeTableWord Decoded.toOption at hd
    split at hd
    case h_1 hword => rw [← Option.some.inj hd]; exact hword
    case h_2 => cases hd
  case accepted =>
    intro s i hr hb hq hv hn hd
    have accepted : s.pinStep = (s.start (some i) (plan i s)).resetClock := by
      simp only [pinStep_of_offer hr hb hv hq, State.accept, hd]
    exact ⟨_, step_of_resets hn, by rw [accepted, resetClock_seq]; rfl, by rw [accepted, resetClock_status]; rfl,
      by rw [accepted, resetClock_cmdValid]; rfl⟩

/-- Settles O52: with no reset timed the step raises BADCMD and completes; with one, it is the acceptance. -/
theorem badWordSetsOnlyBadCmd : Obligations.BadWordSetsOnlyBadCmd := by
  intro s why hr hb hv hd
  refine ⟨fun hn => step_of_bad hr hb hv hn hd, fun hn hq => ?_⟩
  have accepted : s.pinStep = (s.start none [.badCmd]).resetClock := by
    simp only [pinStep_of_offer hr hb hv hq, State.accept, hd]
  exact ⟨_, step_of_resets hn, by rw [accepted, resetClock_seq]; rfl, by rw [accepted, resetClock_status]; rfl⟩

end Sys2Proof.Proofs
end

section
/-! The machine's invariant through every step (10_state sections 1 to 6, 40_bus_transport R90): each effect of a
command keeps the cells of FB and of the chain, and each pin write puts the pins where the sequencer goes on. -/

namespace Sys2Proof.Proofs

open Sys2Proof.Machine Sys2Proof.Laws

/-! The pin writes of a transaction, one equation for each phase (40_bus_transport R90). -/

section
variable {s : State} {q : Sequencer} (F : List Frame) (rest : List Action)

theorem txnStep_ready (h : q.phase = .ready) :
    s.txnStep q F rest =
      { s.drivePin .load false with so := stream F, seq := some { q with bitIndex := 0, phase := .clockLow } } := by
  simp only [State.txnStep, h]

theorem txnStep_clockLow (h : q.phase = .clockLow) (hi : q.bitIndex < s.so.length) :
    s.txnStep q F rest = { s.drivePin .clock false with seq := some { q with phase := .data } } := by
  simp only [State.txnStep, h, if_pos hi]

/-- Every bit is out: LOAD rises. -/
theorem txnStep_commit (h : q.phase = .clockLow) (hi : ¬ q.bitIndex < s.so.length) :
    s.txnStep q F rest = ({ s.drivePin .load true with busLog := s.busLog ++ [F] } : State).proceed
      { q with todo := rest, txnIndex := q.txnIndex + 1, bitIndex := 0, phase := .ready } := by
  simp only [State.txnStep, h, if_neg hi]

theorem txnStep_data (h : q.phase = .data) :
    s.txnStep q F rest =
      { s.drivePin .data ((s.so[q.bitIndex]?).getD s.dataO) with seq := some { q with phase := .clockHigh } } := by
  simp only [State.txnStep, h]

theorem txnStep_clockHigh (h : q.phase = .clockHigh) :
    s.txnStep q F rest =
      { s.drivePin .clock true with seq := some { q with bitIndex := q.bitIndex + 1, phase := .clockLow } } := by
  simp only [State.txnStep, h]

end

/-- FB has exactly the cells below TOTAL, and the chain has N_EFF devices of 256 registers. -/
structure CellsFit (s : State) : Prop where
  fb : s.fb.addresses = List.range s.total
  chain : s.dev.length = s.deviceCount
  regs : ∀ d ∈ s.dev, d.reg.addresses = List.range 256

theorem cellsFit_of_sound {s : State} (h : s.Sound) : CellsFit s := ⟨h.fbCells, h.chain, h.devCells⟩

/-- What the cells fit in depends on FB, the chain and N_EFF only. -/
theorem CellsFit.congr {s t : State} (h : CellsFit s) (hn : t.nEff = s.nEff) (hfb : t.fb = s.fb) (hd : t.dev = s.dev) :
    CellsFit t := by
  obtain ⟨h1, h2, h3⟩ := h
  constructor
  · simpa only [State.total, State.deviceCount, hn, hfb] using h1
  · simpa only [State.deviceCount, hn, hd] using h2
  · rwa [hd]

/-- Devices with the same registers. -/
theorem regs_of_map_reg_eq {ds ds' : List Device} (e : ds'.map Device.reg = ds.map Device.reg)
    (h : ∀ d ∈ ds, d.reg.addresses = List.range 256) : ∀ d ∈ ds', d.reg.addresses = List.range 256 := by
  intro d hd
  obtain ⟨d0, hd0, hreg⟩ := List.mem_map.1 (e ▸ List.mem_map_of_mem (f := Device.reg) hd)
  rw [← hreg]
  exact h d0 hd0

theorem CellsFit.havocDev {s : State} (h : CellsFit s) : CellsFit s.havocDev := by
  refine ⟨h.fb, length_drawChain _ _, fun d hd => ?_⟩
  obtain ⟨k, -, rfl⟩ := List.mem_map.1 hd
  exact addresses_ofFn _ _

theorem CellsFit.clockEdge {s : State} (h : CellsFit s) : CellsFit s.clockEdge := by
  unfold State.clockEdge
  split
  · exact h.havocDev
  · exact ⟨h.fb, (length_shiftChain _ _).trans h.chain, regs_of_map_reg_eq (shiftChain_regs _ _) h.regs⟩

theorem CellsFit.loadEdge {s : State} (h : CellsFit s) : CellsFit s.loadEdge := by
  refine ⟨h.fb, (length_latchChain _ _).trans h.chain, fun d hd => ?_⟩
  obtain ⟨d0, hd0, rfl⟩ := List.mem_map.1 hd
  exact addresses_commit _ _ (h.regs d0 hd0)

theorem CellsFit.drivePin {s : State} (h : CellsFit s) (p : Pin) (b : Bool) : CellsFit (s.drivePin p b) := by
  have logged : CellsFit { s with pinLog := s.pinLog ++ [.write p b] } := h.congr rfl rfl rfl
  unfold State.drivePin
  cases p with
  | data => exact h.congr rfl rfl rfl
  | clock =>
    dsimp only
    split
    · exact logged.clockEdge.congr rfl rfl rfl
    · exact h.congr rfl rfl rfl
  | load =>
    dsimp only
    split
    · exact logged.loadEdge.congr rfl rfl rfl
    · exact h.congr rfl rfl rfl

theorem CellsFit.act {s : State} (h : CellsFit s) {a : Action} (ha : s.actionFits a) : CellsFit (s.act a) := by
  cases a with
  | txn F => exact ⟨h.fb, (length_takeChain _ _ _).trans h.chain, addresses_takeChain _ _ h.regs⟩
  | fb c v => exact ⟨addresses_write_range h.fb ha v, h.chain, h.regs⟩
  | rsp v => exact h.congr rfl rfl rfl
  | clockHigh => exact h.drivePin .clock true
  | badCmd => exact h.congr rfl rfl rfl

/-- A sound block with a command in progress after an effect of the command, with the sequencer at `q`. -/
theorem sound_after_effect {s t : State} {q : Sequencer} (h : s.Sound) (hbusy : s.status.busy = true)
    (hk : KeepsControl s t) (hc : CellsFit t) (hq : ({ t with seq := some q } : State).seqFits q) :
    ({ t with seq := some q } : State).Sound := by
  have count : t.deviceCount = s.deviceCount := by rw [State.deviceCount, hk.nEff, State.deviceCount]
  constructor
  · exact hk.params ▸ h.params
  · exact count ▸ h.countPos
  · exact (count.trans_le h.countMax).trans_eq (congrArg Params.maxDevices hk.params.symm)
  · exact hc.fb
  · exact hc.chain
  · exact hc.regs
  · exact hk.busy.trans hbusy
  · exact nofun
  · rintro _ ⟨⟩
    exact hq

theorem busy_of_seq {s : State} {q : Sequencer} (h : s.Sound) (hq : s.seq = some q) : s.status.busy = true :=
  h.busySeq.trans (by rw [hq]; rfl)

/-- A pin write inside a transaction: the actions to do are the same, so what is left to say is where the pins are. -/
theorem sound_pinWrite {s : State} {q q' : Sequencer} (h : s.Sound) (hq : s.seq = some q) (htodo : q'.todo = q.todo)
    (p : Pin) (b : Bool) (so : List Bool)
    (hpins : (∀ a ∈ q'.todo, ({ s.drivePin p b with so := so, seq := some q' } : State).actionFits a) →
      ({ s.drivePin p b with so := so, seq := some q' } : State).seqFits q') :
    ({ s.drivePin p b with so := so, seq := some q' } : State).Sound :=
  sound_after_effect (t := { s.drivePin p b with so := so }) h (busy_of_seq h hq)
    ((drivePin_keepsControl s p b).trans ⟨rfl, rfl, rfl, rfl, rfl, rfl, rfl, rfl, rfl, rfl⟩)
    (((cellsFit_of_sound h).drivePin p b).congr rfl rfl rfl) (hpins fun a ha =>
      (actionFits_congr (s := s) (drivePin_nEff s p b) a).2 ((h.seqFits q hq).1 a (htodo ▸ ha)))

/-- The pins and SO inside a transaction, phase by phase. -/
theorem seqFits_clockLow {s : State} {q : Sequencer} (h : s.seqFits q) (hp : q.phase = .clockLow) :
    s.clkO = true ∧ s.loadO = false ∧ (∃ F rest, q.todo = .txn F :: rest ∧ s.so = stream F) ∧
      q.bitIndex ≤ 16 * s.deviceCount := by
  simpa only [hp] using h.2

theorem seqFits_data {s : State} {q : Sequencer} (h : s.seqFits q) (hp : q.phase = .data) :
    s.clkO = false ∧ s.loadO = false ∧ (∃ F rest, q.todo = .txn F :: rest ∧ s.so = stream F) ∧
      q.bitIndex < 16 * s.deviceCount := by
  simpa only [hp] using h.2

theorem seqFits_clockHigh {s : State} {q : Sequencer} (h : s.seqFits q) (hp : q.phase = .clockHigh) :
    s.clkO = false ∧ s.loadO = false ∧ (∃ F rest, q.todo = .txn F :: rest ∧ s.so = stream F) ∧
      q.bitIndex < 16 * s.deviceCount := by
  simpa only [hp] using h.2

theorem seqFits_ready {s : State} {q : Sequencer} (h : s.seqFits q) (hp : q.phase = .ready) :
    s.clkO = true ∧ s.loadO = true := by
  simpa only [hp] using h.2

/-- Only a transaction has pin writes of its own: any other action begins and ends between two of them. -/
theorem phase_ready_of_not_txn {s : State} {q : Sequencer} (h : s.seqFits q)
    (ht : ∀ F rest, q.todo ≠ .txn F :: rest) : q.phase = .ready := by
  cases hp : q.phase with
  | ready => rfl
  | clockLow =>
    obtain ⟨-, -, ⟨F, rest, e, -⟩, -⟩ := seqFits_clockLow h hp
    exact absurd e (ht F rest)
  | data =>
    obtain ⟨-, -, ⟨F, rest, e, -⟩, -⟩ := seqFits_data h hp
    exact absurd e (ht F rest)
  | clockHigh =>
    obtain ⟨-, -, ⟨F, rest, e, -⟩, -⟩ := seqFits_clockHigh h hp
    exact absurd e (ht F rest)

/-- After the last pin write of a transaction, or after another action, the pins are at rest and the block goes on. -/
theorem sound_proceed_after {s u : State} {q q' : Sequencer} (h : s.Sound) (hq : s.seq = some q)
    (hk : KeepsControl s u) (hc : CellsFit u) (hfit : ∀ a ∈ q'.todo, s.actionFits a) (hp : q'.phase = .ready)
    (hpins : u.clkO = true ∧ u.loadO = true) : (u.proceed q').Sound := by
  refine sound_proceed (sound_after_effect h (busy_of_seq h hq) hk hc ⟨fun a ha => ?_, ?_⟩) hp
  · exact (actionFits_congr (s := s) hk.nEff a).2 (hfit a ha)
  · simpa only [hp] using hpins

theorem sound_txnStep {s : State} {q : Sequencer} {F : List Frame} {rest : List Action} (h : s.Sound)
    (hq : s.seq = some q) (htodo : q.todo = .txn F :: rest) : (s.txnStep q F rest).Sound := by
  have fits := h.seqFits q hq
  have oneFrameEach : F.length = s.deviceCount := fits.1 (.txn F) (htodo ▸ List.mem_cons_self)
  cases hp : q.phase with
  | ready =>
    obtain ⟨hc, -⟩ := seqFits_ready fits hp
    rw [txnStep_ready F rest hp]
    refine sound_pinWrite h hq (by rfl) .load false _ fun hfit => ⟨hfit, ?_⟩
    exact ⟨by simpa using hc, by simp, ⟨F, rest, htodo, rfl⟩, Nat.zero_le _⟩
  | clockLow =>
    obtain ⟨hc, hl, ⟨F', rest', e, hso⟩, hi⟩ := seqFits_clockLow fits hp
    obtain ⟨rfl, rfl⟩ : F = F' ∧ rest = rest' := by simpa [htodo] using e
    by_cases hbit : q.bitIndex < s.so.length
    · rw [txnStep_clockLow F rest hp hbit]
      refine sound_pinWrite h hq (by rfl) .clock false _ fun hfit => ⟨hfit, ?_⟩
      rw [hso, length_stream, oneFrameEach] at hbit
      exact ⟨by simp, by simpa using hl, ⟨F, rest, htodo, by simpa using hso⟩, by simpa [State.deviceCount] using hbit⟩
    · rw [txnStep_commit F rest hp hbit]
      refine sound_proceed_after h hq ?_ ?_ (fun a ha => fits.1 a (htodo ▸ List.mem_cons_of_mem _ ha)) rfl ?_
      · exact (drivePin_keepsControl s .load true).trans ⟨rfl, rfl, rfl, rfl, rfl, rfl, rfl, rfl, rfl, rfl⟩
      · exact ((cellsFit_of_sound h).drivePin .load true).congr rfl rfl rfl
      · exact ⟨by simpa using hc, by simp⟩
  | data =>
    obtain ⟨hc, hl, hso, hi⟩ := seqFits_data fits hp
    rw [txnStep_data F rest hp]
    refine sound_pinWrite h hq (by rfl) .data _ _ fun hfit => ⟨hfit, ?_⟩
    exact ⟨by simpa using hc, by simpa using hl, by simpa using hso, by simpa [State.deviceCount] using hi⟩
  | clockHigh =>
    obtain ⟨hc, hl, hso, hi⟩ := seqFits_clockHigh fits hp
    rw [txnStep_clockHigh F rest hp]
    refine sound_pinWrite h hq (by rfl) .clock true _ fun hfit => ⟨hfit, ?_⟩
    exact ⟨by simp, by simpa using hl, by simpa using hso, by simpa [State.deviceCount] using hi⟩

theorem seqStep_of_nil {s : State} {q : Sequencer} (h : q.todo = []) : s.seqStep q = s.endCommand := by
  simp only [State.seqStep, h]

theorem seqStep_of_txn {s : State} {q : Sequencer} {F : List Frame} {rest : List Action}
    (h : q.todo = .txn F :: rest) : s.seqStep q = s.txnStep q F rest := by
  simp only [State.seqStep, h]

theorem seqStep_of_action {s : State} {q : Sequencer} {a : Action} {rest : List Action} (h : q.todo = a :: rest)
    (ha : ∀ F, a ≠ .txn F) : s.seqStep q = (s.act a).proceed { q with todo := rest } := by
  cases a with
  | txn F => exact absurd rfl (ha F)
  | fb _ _ | rsp _ | clockHigh | badCmd => simp only [State.seqStep, h]

/-- The sequencer has nothing left to do, its current action is a transaction, or it is another action. -/
theorem todo_cases (q : Sequencer) :
    q.todo = [] ∨ (∃ F rest, q.todo = .txn F :: rest) ∨ ∃ a rest, q.todo = a :: rest ∧ ∀ F, a ≠ .txn F := by
  cases h : q.todo with
  | nil => exact .inl rfl
  | cons a rest =>
    cases a with
    | txn F => exact .inr (.inl ⟨F, rest, rfl⟩)
    | fb _ _ | rsp _ | clockHigh | badCmd => exact .inr (.inr ⟨_, rest, rfl, nofun⟩)

theorem sound_endCommand {s : State} (h : s.Sound) (hpins : s.clkO = true ∧ s.loadO = true) : s.endCommand.Sound :=
  sound_hostTurn ⟨h.1, h.2, h.3, h.4, h.5, h.6, rfl, fun _ => hpins, nofun⟩

/-- No action but a transaction moves CLOCK or LOAD of a block at rest. -/
theorem act_pins {s : State} (hpins : s.clkO = true ∧ s.loadO = true) (a : Action) :
    (s.act a).clkO = true ∧ (s.act a).loadO = true := by
  cases a with
  | txn F => exact ⟨rfl, rfl⟩
  | fb _ _ | rsp _ | badCmd => exact hpins
  | clockHigh => simpa [State.act] using hpins.2

theorem sound_seqStep {s : State} {q : Sequencer} (h : s.Sound) (hq : s.seq = some q) : (s.seqStep q).Sound := by
  have fits := h.seqFits q hq
  obtain htodo | ⟨F, rest, htodo⟩ | ⟨a, rest, htodo, ha⟩ := todo_cases q
  · rw [seqStep_of_nil htodo]
    exact sound_endCommand h (seqFits_ready fits (phase_ready_of_not_txn fits (by simp [htodo])))
  · rw [seqStep_of_txn htodo]
    exact sound_txnStep h hq htodo
  · have ready : q.phase = .ready := phase_ready_of_not_txn fits (by simp [htodo, ha])
    have actionsFit := fits.1
    rw [htodo, List.forall_mem_cons] at actionsFit
    obtain ⟨first, others⟩ := actionsFit
    rw [seqStep_of_action htodo ha]
    exact sound_proceed_after h hq (act_keepsControl s a) ((cellsFit_of_sound h).act first) others ready
      (act_pins (seqFits_ready fits ready) a)

/-- The acceptance of a word: the sequencer holds actions that fit, and the pins are at rest as before. -/
theorem sound_start {s : State} (h : s.Sound) (hq : s.seq = none) (command : Option Instr) {todo : List Action}
    (hfit : ∀ a ∈ todo, s.actionFits a) : (s.start command todo).Sound := by
  refine ⟨h.1, h.2, h.3, h.4, h.5, h.6, rfl, nofun, ?_⟩
  rintro _ ⟨⟩
  exact ⟨fun a ha => (actionFits_congr (s := s) rfl a).2 (hfit a ha), h.idlePins hq⟩

theorem sound_accept {s : State} (h : s.Sound) (hq : s.seq = none) : s.accept.Sound := by
  unfold State.accept
  split
  · exact sound_start h hq _ (plan_fits _ s)
  · exact sound_start h hq _ (by simp [State.actionFits])

theorem sound_microStep {s : State} (h : s.Sound) : s.microStep.Sound := by
  unfold State.microStep
  split
  · exact sound_seqStep h ‹_›
  · split
    · exact sound_accept h ‹_›
    · exact sound_endCommand h (h.idlePins ‹_›)

theorem sound_pinStep {s : State} (h : s.Sound) : s.pinStep.Sound := by
  cases hr : s.rst with
  | true => exact pinStep_of_reset hr ▸ sound_releaseReset (sound_applyReset h)
  | false => exact pinStep_of_not_reset hr ▸ sound_resetClock (sound_microStep h)

theorem sound_completed {s : State} (h : s.Sound) : s.completed.Sound := sound_hostTurn (sound_takeOffer h)

/-- A sound block that is ready has no command executing. -/
theorem seq_none_of_ready {s : State} (h : s.Sound) (hr : s.cmdReady = true) : s.seq = none := by
  have notBusy : s.busy = false := by
    simp only [State.cmdReady, Bool.and_eq_true, Bool.not_eq_true'] at hr
    exact hr.1
  simpa [notBusy] using h.busySeq.symm

/-- Settles O58: a step is a micro-step, or the actions of a whole command done by a block at rest and the host's
turn. -/
theorem stepKeepsSound : Obligations.StepKeepsSound := by
  intro s h
  have idle (hg : (s.cmdValid && s.cmdReady && s.resets.isEmpty) = true) : s.seq = none := by
    simp only [Bool.and_eq_true] at hg
    exact seq_none_of_ready h hg.1.2
  refine ⟨sound_pinStep h, ?_⟩
  obtain ⟨i, -, hg, hs⟩ | ⟨why, -, hg, hs⟩ | ⟨-, hs⟩ := step_cases s
  · exact ⟨_, hs, sound_completed (sound_perform h (idle hg) (plan_fits i s))⟩
  · exact ⟨_, hs, sound_completed (sound_perform (as := [.badCmd]) h (idle hg) (by simp [State.actionFits]))⟩
  · exact ⟨_, hs, sound_pinStep h⟩

/-- Settles O57: a reset machine has no command executing, its parameters are those of `Config`, in range by type, and
its cells are drawn at their full number. -/
theorem resetIsSound : Obligations.ResetIsSound := by
  have paramsWf : Config.params.Wf := ⟨Nat.succ_pos _, Config.maxDevicesLessOne.isLt⟩
  obtain ⟨countPos, countMax, noLoss⟩ := effectiveCount_range paramsWf Config.cfgNdev
  have count : State.reset.deviceCount = effectiveCount Config.params.maxDevices Config.cfgNdev := noLoss
  constructor
  · exact paramsWf
  · exact count ▸ countPos
  · exact count.trans_le countMax
  · exact (addresses_ofFn _ _).trans (by rw [State.total, count])
  · exact (length_drawChain _ _).trans count.symm
  · intro d hd
    obtain ⟨k, -, rfl⟩ := List.mem_map.1 hd
    exact addresses_ofFn _ _
  · rfl
  · exact fun _ => ⟨rfl, rfl⟩
  · exact nofun

end Sys2Proof.Proofs
end

section
/-! What a pin write does to the chain (40_bus_transport R92, R94), and that the registers of a device change at a LOAD
rising edge only (20_memory R54). -/

namespace Sys2Proof.Proofs

open Sys2Proof.Machine Sys2Proof.Laws

theorem drivePin_clock_high_dev {s : State} (h : s.clkO = true) : (s.drivePin .clock true).dev = s.dev := by
  simp [State.drivePin, h]

/-- A rising edge of CLOCK while LOAD is low reaches the chain: it shifts DATA in. -/
theorem drivePin_clock_rising_dev {s : State} (hc : s.clkO = false) (hl : s.loadO = false) :
    (s.drivePin .clock true).dev = shiftChain s.dataO s.dev := by
  simp [State.drivePin, State.clockEdge, hc, hl]

/-- The registers of every device stay, or LOAD rises. -/
def RegsStayOrLoadRises (s t : State) : Prop :=
  t.dev.map Device.reg = s.dev.map Device.reg ∨ (s.loadO = false ∧ t.loadO = true)

theorem txnStep_regs {s : State} {q : Sequencer} {F : List Frame} {rest : List Action} (fits : s.seqFits q) :
    RegsStayOrLoadRises s (s.txnStep q F rest) := by
  cases hp : q.phase with
  | ready => exact .inl (by rw [txnStep_ready F rest hp]; rfl)
  | clockLow =>
    obtain ⟨-, hl, -⟩ := seqFits_clockLow fits hp
    by_cases hbit : q.bitIndex < s.so.length
    · exact .inl (by rw [txnStep_clockLow F rest hp hbit]; rfl)
    · exact .inr ⟨hl, by simp [txnStep_commit F rest hp hbit]⟩
  | data => exact .inl (by rw [txnStep_data F rest hp]; rfl)
  | clockHigh =>
    obtain ⟨hc, hl, -⟩ := seqFits_clockHigh fits hp
    exact .inl (by rw [txnStep_clockHigh F rest hp, drivePin_clock_rising_dev hc hl, shiftChain_regs])

/-- An action other than a transaction leaves the chain of a block at rest alone. -/
theorem act_dev {s : State} (hc : s.clkO = true) {a : Action} (ha : ∀ F, a ≠ .txn F) : (s.act a).dev = s.dev := by
  cases a with
  | txn F => exact absurd rfl (ha F)
  | fb _ _ | rsp _ | badCmd => rfl
  | clockHigh => exact drivePin_clock_high_dev hc

theorem seqStep_regs {s : State} {q : Sequencer} (fits : s.seqFits q) : RegsStayOrLoadRises s (s.seqStep q) := by
  obtain htodo | ⟨F, rest, htodo⟩ | ⟨a, rest, htodo, ha⟩ := todo_cases q
  · exact .inl (by rw [seqStep_of_nil htodo, endCommand_dev])
  · rw [seqStep_of_txn htodo]
    exact txnStep_regs fits
  · obtain ⟨hc, -⟩ := seqFits_ready fits (phase_ready_of_not_txn fits (by simp [htodo, ha]))
    exact .inl (by rw [seqStep_of_action htodo ha, proceed_dev, act_dev hc ha])

theorem microStep_regs {s : State} (h : s.Sound) : RegsStayOrLoadRises s s.microStep := by
  cases hq : s.seq with
  | some q =>
    simp only [State.microStep, hq]
    exact seqStep_regs (h.seqFits q hq)
  | none =>
    refine .inl ?_
    simp only [State.microStep, hq]
    split
    · unfold State.accept
      split <;> rfl
    · rw [endCommand_dev]

/-- Settles O19: inside a transaction CLOCK rises only while LOAD is low, which shifts and commits nothing; only the
transaction's last pin write commits. -/
theorem deviceRegistersChangeOnlyAtLoadEdge : Obligations.DeviceRegistersChangeOnlyAtLoadEdge := by
  intro s h hr hne
  rw [pinStep_of_not_reset hr, resetClock_dev] at hne
  rw [pinStep_of_not_reset hr, resetClock_loadO]
  exact (microStep_regs h).resolve_left hne

end Sys2Proof.Proofs
end

section
/-! The output ports (10_state R20, R27 to R30). -/

namespace Sys2Proof.Proofs

open Sys2Proof.Machine Sys2Proof.Laws

theorem getLsbD_word_busy (st : Status) : st.word.getLsbD 0 = st.busy := by
  simp only [Status.word, BitVec.getLsbD_append]
  simp

theorem getLsbD_word_clamped (st : Status) : st.word.getLsbD 1 = st.clamped := by
  simp only [Status.word, BitVec.getLsbD_append]
  simp

theorem getLsbD_word_badCmd (st : Status) : st.word.getLsbD 2 = st.badCmd := by
  simp only [Status.word, BitVec.getLsbD_append]
  simp

/-- Bits 15:3 of STATUS read as zero. -/
theorem getLsbD_word_high (st : Status) {i : Nat} (hi : 3 ≤ i) : st.word.getLsbD i = false := by
  simp only [Status.word, BitVec.getLsbD_append]
  simp [show i ≠ 0 by omega, show i - 1 ≠ 0 by omega, show i - 1 - 1 ≠ 0 by omega]

theorem extractLsb'_word_high (st : Status) : st.word.extractLsb' 3 13 = 0 :=
  BitVec.eq_of_getLsbD_eq fun i hi => by
    rw [BitVec.getLsbD_extractLsb', getLsbD_word_high st (by omega)]
    simp

/-- Settles O11: the ports show their registers by definition; `cmd_ready` is NOT BUSY and not `rst`, and BUSY is bit
0 of STATUS. -/
theorem outputPortsShowRegisters : Obligations.OutputPortsShowRegisters := by
  refine ⟨fun st => ⟨getLsbD_word_busy st, getLsbD_word_clamped st, getLsbD_word_badCmd st,
    fun _ => getLsbD_word_high st⟩, fun s => ⟨rfl, rfl, rfl, rfl, rfl, rfl, fun hr => ?_, fun hr => ?_⟩⟩
  · have busyBit : s.outputs.status.getLsbD 0 = s.busy := getLsbD_word_busy s.status
    rw [busyBit]
    simp [State.outputs, State.cmdReady, hr]
  · simp [State.outputs, State.cmdReady, hr]

end Sys2Proof.Proofs
end

section
/-! Reset (10_state R37, 70_reset_and_hazards R170 to R174): the step under `rst`, and the free draws it leaves. -/

namespace Sys2Proof.Proofs

open Sys2Proof.Machine Sys2Proof.Laws

/-- A drawn device register. -/
theorem devReg_of_drawChain {t : State} {epoch n k : Nat} (ht : t.dev = drawChain epoch n) (hk : k < n) (a : Byte) :
    t.devReg k a = some (Config.regDraw epoch k a.toNat) := by
  simp [State.devReg, ht, drawChain, hk, Device.draw, a.isLt]

section
variable {s : State}

/-- N_EFF after a reset. -/
theorem applyReset_deviceCount (h : s.params.Wf) :
    s.applyReset.deviceCount = effectiveCount s.params.maxDevices s.cfgNdev :=
  (effectiveCount_range h s.cfgNdev).2.2

theorem applyReset_devReg (h : s.params.Wf) {k : Nat} (hk : k < s.applyReset.deviceCount) (a : Byte) :
    s.applyReset.devReg k a = some (Config.regDraw s.draws k a.toNat) :=
  devReg_of_drawChain (n := effectiveCount s.params.maxDevices s.cfgNdev) rfl (applyReset_deviceCount h ▸ hk) a

theorem applyReset_fb (h : s.params.Wf) : s.applyReset.fb = drawFb s.draws s.applyReset.total := by
  rw [State.total, applyReset_deviceCount h]
  rfl

theorem applyReset_cell (h : s.params.Wf) {c : Nat} (hc : c < s.applyReset.total) :
    s.applyReset.fb.read c = some (Config.fbDraw s.draws c) := by
  rw [applyReset_fb h, drawFb, read_ofFn, if_pos hc]

end

/-- Settles O55: the step is the reset, whose device count is the clamped `cfg_ndev` and fits N_EFF. -/
theorem resetState : Obligations.ResetState := by
  intro s h hr
  have count := applyReset_deviceCount h
  refine ⟨_, step_of_reset hr, count, rfl, ?clamped, rfl, extractLsb'_word_high _, rfl, ?cells,
    fun c => applyReset_cell h, rfl, rfl, rfl, rfl, ?so, ?chain, fun k a hk => applyReset_devReg h hk a, rfl, rfl⟩
  case clamped => exact congrArg (fun n => decide (n ≠ s.cfgNdev.toNat)) count.symm
  case cells => exact (congrArg Memory.addresses (applyReset_fb h)).trans (addresses_ofFn _ _)
  case so => exact (by simp [drawSo] : (drawSo s.draws (16 * _)).length = _).trans (congrArg (16 * ·) count.symm)
  case chain => exact (length_drawChain _ _).trans count.symm

/-- Settles O56: a reset is the same wherever it falls; it raises LOAD, aborts the command, and draws FB and the
chain. -/
theorem resetCutsTransaction : Obligations.ResetCutsTransaction := fun _ h hr _ =>
  ⟨_, step_of_reset hr, rfl, rfl, rfl, fun _ a hk => applyReset_devReg h hk a, fun _ => applyReset_cell h, rfl⟩

end Sys2Proof.Proofs
end

section
/-! The two levels of 40_bus_transport R91 agree: the micro-steps of a command do its actions one after another, a
transaction's pin writes amount to the transaction, and BUSY falls with the last effect (10_state R28). -/

namespace Sys2Proof.Proofs

open Sys2Proof.Machine Sys2Proof.Laws

/-! Runs of micro-steps with BUSY = 1. -/

/-- Some micro-steps, BUSY being 1 before each. -/
def BusyPath : State → State → Prop := Relation.ReflTransGen fun u v => u.status.busy = true ∧ u.pinStep = v

theorem BusyPath.head {u w : State} (hb : u.status.busy = true) (h : BusyPath u.pinStep w) : BusyPath u w :=
  Relation.ReflTransGen.head ⟨hb, rfl⟩ h

theorem BusyPath.tail {u w : State} (h : BusyPath u w) (hb : w.status.busy = true) : BusyPath u w.pinStep :=
  Relation.ReflTransGen.tail h ⟨hb, rfl⟩

/-- The number of micro-steps of such a run. -/
theorem BusyPath.pinSteps {u w : State} (h : BusyPath u w) :
    ∃ n, State.pinSteps n u = w ∧ ∀ m, m < n → (State.pinSteps m u).status.busy = true := by
  induction h using Relation.ReflTransGen.head_induction_on with
  | refl => exact ⟨0, rfl, nofun⟩
  | @head u v step _ ih =>
    obtain ⟨hb, rfl⟩ := step
    obtain ⟨n, hn, busy⟩ := ih
    refine ⟨n + 1, hn, fun m hm => ?_⟩
    cases m with
    | zero => exact hb
    | succ m => exact busy m (Nat.lt_of_succ_lt_succ hm)

theorem pinSteps_succ (n : Nat) (s : State) : State.pinSteps (n + 1) s = (State.pinSteps n s).pinStep := by
  induction n generalizing s with
  | zero => rfl
  | succ n ih => exact ih s.pinStep

/-- The last micro-step is a LOAD rising edge, and FB, RSP and BADCMD have their final values before it. -/
structure EndsWithLoadEdge (w t : State) : Prop where
  loadLow : w.loadO = false
  loadHigh : t.loadO = true
  fb : w.fb = t.fb
  rsp : w.rsp = t.rsp
  badCmd : w.status.badCmd = t.status.badCmd

/-- A run with BUSY = 1 until its last micro-step, which is a LOAD rising edge if `edge`. -/
def BusyUntil (u t : State) (edge : Prop) : Prop :=
  ∃ w, BusyPath u w ∧ w.status.busy = true ∧ w.pinStep = t ∧ (edge → EndsWithLoadEdge w t)

/-! A block that executes a command, by what it would be with no command in progress. -/

/-- The state with BUSY = 1 and the sequencer at `q`. -/
def executing (s : State) (q : Sequencer) : State := { s.setBusy true with seq := some q }

theorem executing_so (s : State) (q : Sequencer) : (executing s q).so = s.so := rfl

/-- A pin write does not look at BUSY or the sequencer. -/
theorem drivePin_executing (s : State) (q : Sequencer) (p : Pin) (b : Bool) :
    (executing s q).drivePin p b = executing (s.drivePin p b) q := by
  cases p with
  | data => rfl
  | clock =>
    cases hc : s.clkO <;> cases hl : s.loadO <;> cases b <;>
      simp [State.drivePin, executing, State.setBusy, State.clockEdge, State.havocDev, State.deviceCount, hc, hl]
  | load =>
    cases hl : s.loadO <;> cases b <;> simp [State.drivePin, executing, State.setBusy, State.loadEdge, hl]

theorem act_executing (s : State) (q : Sequencer) (a : Action) : (executing s q).act a = executing (s.act a) q := by
  cases a with
  | clockHigh => exact drivePin_executing s q .clock true
  | txn _ | fb _ _ | rsp _ | badCmd => rfl

theorem endCommand_executing {s : State} (hq : s.seq = none) (hb : s.status.busy = false) (q : Sequencer) :
    (executing s q).endCommand = s.hostTurn := by
  have same : ({ (executing s q).setBusy false with seq := none } : State) = s := by
    rw [← hq]
    have sameStatus : ({ s.status with busy := false } : Status) = s.status := by rw [← hb]
    simp [executing, State.setBusy, sameStatus]
  rw [endCommand_eq, same]

theorem pinStep_executing {s : State} (hr : s.rst = false) (hn : s.resets = []) (q : Sequencer) :
    (executing s q).pinStep = (executing s q).seqStep q := by
  rw [pinStep_of_not_reset (s := executing s q) hr]
  exact resetClock_of_nil ((seqStep_keepsConfig (executing s q) q).resets.trans hn)

/-! One transaction, bit by bit (40_bus_transport R90, R92). -/

/-- The state with the first i bits of F's stream shifted out and LOAD low. -/
def midTransaction (s : State) (F : List Frame) (i : Nat) : State :=
  { s with
    so := stream F
    loadO := false
    dataO := ((stream F).take i).getLast?.getD s.dataO
    dev := shiftChainBits ((stream F).take i) s.dev
    pinLog := s.pinLog ++ .write .load false :: ((stream F).take i).flatMap bitCell }

theorem midTransaction_so (s : State) (F : List Frame) (i : Nat) : (midTransaction s F i).so = stream F := rfl

theorem shiftChainBits_concat (bs : List Bool) (b : Bool) (devs : List Device) :
    shiftChainBits (bs ++ [b]) devs = shiftChain b (shiftChainBits bs devs) := List.foldl_concat ..

/-- LOAD falls: no bit is out yet. -/
theorem midTransaction_zero (s : State) (F : List Frame) :
    { s.drivePin .load false with so := stream F } = midTransaction s F 0 := by
  simp [State.drivePin, midTransaction, shiftChainBits]

/-- The three pin writes of a bit cell put one bit more out. -/
theorem midTransaction_succ {s : State} (hc : s.clkO = true) {F : List Frame} {i : Nat} {b : Bool}
    (hb : (stream F)[i]? = some b) :
    (((midTransaction s F i).drivePin .clock false).drivePin .data b).drivePin .clock true =
      midTransaction s F (i + 1) := by
  have oneMore : (stream F).take (i + 1) = (stream F).take i ++ [b] := by rw [List.take_add_one, hb]; rfl
  simp [State.drivePin, State.clockEdge, midTransaction, oneMore, shiftChainBits_concat, bitCell, hc]

/-- What a transaction does to the chain, as the LOAD edge does it: each device takes its own frame. -/
theorem takeChain_eq_zipWith (noop : Byte) {F : List Frame} {devs : List Device} (h : F.length = devs.length) :
    takeChain noop F devs = List.zipWith (fun f d => d.take noop f) F devs := by
  apply List.ext_getElem?
  intro k
  rw [getElem?_takeChain, List.getElem?_zipWith]
  by_cases hk : k < devs.length
  · rw [List.getElem?_eq_getElem hk, List.getElem?_eq_getElem (h ▸ hk)]
    rfl
  · rw [List.getElem?_eq_none (by omega), List.getElem?_eq_none (by omega)]
    rfl

/-- The LOAD edge after the last bit commits the frames: the transaction as a whole. -/
theorem midTransaction_commit {s : State} (hc : s.clkO = true) {F : List Frame} (hF : F.length = s.dev.length) :
    { (midTransaction s F (stream F).length).drivePin .load true with busLog := s.busLog ++ [F] } = s.txn F := by
  have committed := (shiftedChainHoldsFrames s.params.regmap.noop F s.dev hF).2
  have latched : latchChain s.params.regmap.noop (shiftChainBits (stream F) s.dev) =
      takeChain s.params.regmap.noop F s.dev := committed.trans (takeChain_eq_zipWith _ hF).symm
  simp [State.drivePin, State.loadEdge, midTransaction, State.txn, waveform, latched, hc, -length_stream]

section
variable {s : State} {q : Sequencer} {F : List Frame} {rest : List Action}

/-- The sequencer at bit i of the current transaction, before this pin write of the bit. -/
def atBit (q : Sequencer) (i : Nat) (p : Phase) : Sequencer := { q with bitIndex := i, phase := p }

theorem pinStep_begin (hr : s.rst = false) (hn : s.resets = []) (htodo : q.todo = .txn F :: rest)
    (hp : q.phase = .ready) : (executing s q).pinStep = executing (midTransaction s F 0) (atBit q 0 .clockLow) := by
  rw [pinStep_executing hr hn, seqStep_of_txn htodo, txnStep_ready F rest hp, drivePin_executing,
    ← midTransaction_zero]
  rfl

theorem txnStep_data_of_bit (F : List Frame) (rest : List Action) {b : Bool} (h : q.phase = .data)
    (hb : s.so[q.bitIndex]? = some b) :
    s.txnStep q F rest = { s.drivePin .data b with seq := some { q with phase := .clockHigh } } := by
  rw [txnStep_data F rest h, hb, Option.getD_some]

/-- A micro-step that is a pin write, on the way to a state. -/
theorem busyPath_pinWrite {q' : Sequencer} {p : Pin} {b : Bool} {w : State} (hr : s.rst = false) (hn : s.resets = [])
    (hstep : (executing s q).seqStep q = { (executing s q).drivePin p b with seq := some q' })
    (h : BusyPath (executing (s.drivePin p b) q') w) : BusyPath (executing s q) w := by
  refine .head rfl ?_
  rw [pinStep_executing hr hn, hstep, drivePin_executing]
  exact h

/-- Three micro-steps for a bit. -/
theorem busyPath_bit (hr : s.rst = false) (hn : s.resets = []) (hc : s.clkO = true) (htodo : q.todo = .txn F :: rest)
    {i : Nat} (hi : i < (stream F).length) :
    BusyPath (executing (midTransaction s F i) (atBit q i .clockLow))
      (executing (midTransaction s F (i + 1)) (atBit q (i + 1) .clockLow)) := by
  have hb := List.getElem?_eq_getElem hi
  have onData : (executing ((midTransaction s F i).drivePin .clock false) (atBit q i .data)).so[i]? =
      some (stream F)[i] := by rw [executing_so, drivePin_so, midTransaction_so, hb]
  have atTxn (p : Phase) : (atBit q i p).todo = .txn F :: rest := htodo
  refine busyPath_pinWrite (q' := atBit q i .data) hr hn
    ((seqStep_of_txn (atTxn _)).trans (txnStep_clockLow F rest rfl hi)) ?_
  refine busyPath_pinWrite (q' := atBit q i .clockHigh) (by rwa [drivePin_rst]) (by rwa [drivePin_resets])
    ((seqStep_of_txn (atTxn _)).trans (txnStep_data_of_bit F rest rfl onData)) ?_
  refine busyPath_pinWrite (q' := atBit q (i + 1) .clockLow) (by rwa [drivePin_rst, drivePin_rst])
    (by rwa [drivePin_resets, drivePin_resets])
    ((seqStep_of_txn (atTxn _)).trans (txnStep_clockHigh F rest rfl)) ?_
  rw [midTransaction_succ hc hb]
  exact .refl

/-- All the bits of the stream. -/
theorem busyPath_bits (hr : s.rst = false) (hn : s.resets = []) (hc : s.clkO = true) (htodo : q.todo = .txn F :: rest)
    {i : Nat} (hi : i ≤ (stream F).length) :
    BusyPath (executing (midTransaction s F 0) (atBit q 0 .clockLow))
      (executing (midTransaction s F i) (atBit q i .clockLow)) := by
  induction i with
  | zero => exact .refl
  | succ i ih => exact (ih (Nat.le_of_succ_le hi)).trans (busyPath_bit hr hn hc htodo hi)

/-- LOAD rises: the block goes on as after the whole transaction. -/
theorem pinStep_commit (hr : s.rst = false) (hn : s.resets = []) (hc : s.clkO = true) (hF : F.length = s.dev.length)
    (htodo : q.todo = .txn F :: rest) :
    (executing (midTransaction s F (stream F).length) (atBit q (stream F).length .clockLow)).pinStep =
      (executing (s.txn F) (atBit q (stream F).length .clockLow)).proceed
        { q with todo := rest, txnIndex := q.txnIndex + 1, bitIndex := 0, phase := .ready } := by
  have atTxn : (atBit q (stream F).length .clockLow).todo = .txn F :: rest := htodo
  rw [pinStep_executing (s := midTransaction s F _) hr hn, seqStep_of_txn atTxn,
    txnStep_commit F rest rfl (Nat.lt_irrefl _), drivePin_executing, ← midTransaction_commit hc hF]
  rfl

end

/-! The actions of a command one after another. -/

/-- A sound block with no command executing, `rst` released and no reset timed. -/
structure Ready (s : State) : Prop where
  sound : s.Sound
  seq : s.seq = none
  rst : s.rst = false
  resets : s.resets = []

theorem Ready.busy {s : State} (h : Ready s) : s.status.busy = false :=
  h.sound.busySeq.trans (by rw [h.seq]; rfl)

theorem Ready.act {s : State} (h : Ready s) {a : Action} (ha : s.actionFits a) : Ready (s.act a) where
  sound := sound_perform (as := [a]) h.sound h.seq (by simpa using ha)
  seq := (perform_fixed s [a]).2.2.trans h.seq
  rst := (act_keepsControl s a).rst.trans h.rst
  resets := (act_keepsControl s a).resets.trans h.resets

/-- One action of the command in progress, with at least one more micro-step to it: the block goes on, or completes, as
after the action done whole. -/
theorem busyUntil_action {s : State} (h : Ready s) {q : Sequencer} {a : Action} {rest : List Action}
    (ha : s.actionFits a) (htodo : q.todo = a :: rest) (hp : q.phase = .ready) :
    ∃ q₁ q₂ : Sequencer, q₂.todo = rest ∧ q₂.phase = .ready ∧
      BusyUntil (executing s q) ((executing (s.act a) q₁).proceed q₂) (∃ F, a = .txn F) := by
  obtain ⟨hc, -⟩ := h.sound.idlePins h.seq
  by_cases txn : ∃ F, a = .txn F
  · obtain ⟨F, rfl⟩ := txn
    have begun := pinStep_begin h.rst h.resets htodo hp
    have commit := pinStep_commit h.rst h.resets hc (ha.trans h.sound.chain.symm) htodo
    have bits := busyPath_bits h.rst h.resets hc htodo le_rfl
    exact ⟨_, _, rfl, rfl, _, .head rfl (begun ▸ bits), rfl, commit,
      fun _ => ⟨rfl, proceed_loadO .., by rw [proceed_fb]; rfl, by rw [proceed_rsp]; rfl,
        by rw [proceed_status_badCmd]; rfl⟩⟩
  · refine ⟨q, { q with todo := rest }, rfl, hp, executing s q, .refl, rfl, ?_, fun e => absurd e txn⟩
    rw [pinStep_executing h.rst h.resets, seqStep_of_action htodo fun F e => txn ⟨F, e⟩, act_executing]

/-- The run of a list of actions ends, with BUSY falling, in the state that the actions done whole leave, at the host's
turn. -/
theorem busyUntil_perform {todo : List Action} {s : State} {q : Sequencer} (h : Ready s)
    (hfit : ∀ a ∈ todo, s.actionFits a) (htodo : q.todo = todo) (hp : q.phase = .ready) :
    BusyUntil (executing s q) (s.perform todo).hostTurn (∃ as F, todo = as ++ [.txn F]) := by
  induction todo generalizing s q with
  | nil =>
    refine ⟨executing s q, .refl, rfl, ?_, by simp⟩
    rw [pinStep_executing h.rst h.resets, seqStep_of_nil htodo, endCommand_executing h.seq h.busy, perform_nil]
  | cons a rest ih =>
    obtain ⟨first, others⟩ := List.forall_mem_cons.1 hfit
    obtain ⟨q₁, q₂, htodo₂, hp₂, w, path, hb, hw, hedge⟩ := busyUntil_action h first htodo hp
    have next := h.act first
    rw [perform_cons]
    by_cases last : rest = []
    · subst last
      rw [proceed_of_nil _ htodo₂, endCommand_executing next.seq next.busy] at hw hedge
      refine ⟨w, path, hb, hw, fun ⟨as, F, e⟩ => hedge ?_⟩
      cases as with
      | nil => exact ⟨F, (List.cons.inj e).1⟩
      | cons b bs => simp at e
    · rw [proceed_of_ne_nil _ (by rwa [htodo₂])] at hw
      have fits : ∀ b ∈ rest, (s.act a).actionFits b := fun b hb =>
        (actionFits_congr (act_keepsControl s a).nEff b).2 (others b hb)
      obtain ⟨w', path', hb', hw', hedge'⟩ := ih next fits htodo₂ hp₂
      refine ⟨w', (path.tail hb).trans (hw ▸ path'), hb', hw', fun ⟨as, F, e⟩ => hedge' ?_⟩
      cases as with
      | nil => exact absurd (List.cons.inj e).2 last
      | cons b bs => exact ⟨bs, F, (List.cons.inj e).2⟩

/-! The acceptance of a word, and the command's run after it. -/

/-- What an accepted word has the block do, at both levels. -/
theorem accept_and_step {s : State} (hr : s.rst = false) (hb : s.status.busy = false) (hv : s.cmdValid = true)
    (hn : s.resets = []) :
    ∃ command todo, s.accept = s.start command todo ∧ step s = .next (s.perform todo).completed ∧
      (∀ a ∈ todo, s.actionFits a) ∧ (txnPart todo ≠ [] → ∃ as F, todo = as ++ [.txn F]) := by
  cases hd : decode s.cmd s.cmdData with
  | command i =>
    exact ⟨some i, plan i s, by simp only [State.accept, hd], step_of_command hr hb hv hn hd, plan_fits i s,
      plan_ends_in_txn i s⟩
  | bad why =>
    exact ⟨none, [.badCmd], by simp only [State.accept, hd], step_of_bad hr hb hv hn hd,
      by simp [State.actionFits], by simp [txnPart]⟩

/-- The actions of a block at rest do not look at the offer. -/
theorem perform_takeOffer {s : State} (hpins : s.clkO = true ∧ s.loadO = true) (as : List Action) :
    s.takeOffer.perform as = (s.perform as).takeOffer := by
  rw [perform_eq s as hpins.1 hpins.2, perform_eq s.takeOffer as hpins.1 hpins.2]
  rfl

/-- Settles O54: the acceptance is one micro-step; after it every action is done by micro-steps with BUSY = 1, the
last of which ends the command. -/
theorem pinLevelRefinesCommand : Obligations.PinLevelRefinesCommand := by
  intro s h hq hr hv hn
  have hb : s.status.busy = false := Ready.busy ⟨h, hq, hr, hn⟩
  obtain ⟨command, todo, hacc, hstep, hfit, hlast⟩ := accept_and_step hr hb hv hn
  have accepted : s.pinStep = executing s.takeOffer ⟨command, todo, 0, 0, .ready⟩ := by
    rw [pinStep_of_offer hr hb hv hq, hacc]
    exact resetClock_of_nil hn
  obtain ⟨w, path, hwb, hw, hedge⟩ := busyUntil_perform (q := ⟨command, todo, 0, 0, .ready⟩)
    (⟨sound_takeOffer h, hq, hr, hn⟩ : Ready s.takeOffer) hfit rfl rfl
  rw [perform_takeOffer (h.idlePins hq)] at hw hedge
  rw [← accepted] at path
  obtain ⟨n, hpath, hbusy⟩ := path.pinSteps
  have before : State.pinSteps (n + 1) s = w := hpath
  refine ⟨_, n + 2, hstep, by omega, ?run, ?idle, ?fallen, ?busy, fun hbus => ?edge⟩
  case run => rw [pinSteps_succ, before, hw, State.completed]
  case idle => simpa [State.completed, perform_fixed] using hq
  case fallen => rw [completed_status, (perform_keepsControl s todo).busy, hb]
  case busy =>
    intro m hpos hm
    obtain ⟨m, rfl⟩ := Nat.exists_eq_succ_of_ne_zero hpos.ne'
    obtain hlt | rfl := Nat.lt_or_eq_of_le (Nat.lt_succ_iff.1 (Nat.lt_of_succ_lt_succ hm))
    · exact hbusy m hlt
    · exact hpath ▸ hwb
  case edge =>
    have txns : txnPart todo ≠ [] := fun e => hbus (by simp [State.completed, perform_busLog, e])
    obtain ⟨low, high, fb, rsp, badCmd⟩ := hedge (hlast txns)
    rw [show n + 2 - 1 = n + 1 from rfl, before]
    exact ⟨low, high, fb, rsp, badCmd⟩

end Sys2Proof.Proofs
end

section
/-! The commands that reach FB or RSP only, from every state: NOP, STAGE, STBLK, RDCOL, and the clipped forms
(41_framebuffer_write R110, R117, R118, R124, 60_exceptions R152). -/

namespace Sys2Proof.Proofs

open Sys2Proof.Machine Sys2Proof.Laws

/-- A command with nothing to do completes in the state it started in. -/
theorem exec_of_plan_nil {i : Instr} {s : State} (h : plan i s = []) : exec i s = .next s := by
  rw [exec_eq_perform, h, perform_nil]

/-- Settles O20: NOP's plan is empty. -/
theorem nopChangesNothing : Obligations.NopChangesNothing := fun _ => exec_of_plan_nil rfl

/-- Settles O36: each clipped form's plan is empty. -/
theorem clippedCommandsDoNothing : Obligations.ClippedCommandsDoNothing := by
  intro s col row v val
  have outOfRange (h : s.total ≤ col.toNat) : s.inRange col.toNat = false := by simpa [State.inRange] using h
  refine ⟨fun h => ⟨exec_of_plan_nil ?_, exec_of_plan_nil ?_⟩, fun h => exec_of_plan_nil ?_,
    fun h => exec_of_plan_nil ?_⟩
  · simp [plan, planStage, outOfRange h]
  · simp [plan, planWrcol, outOfRange h]
  · obtain hcol | hrow := h
    · simp [plan, planWrdot, outOfRange hcol]
    · simp [plan, planWrdot, rowInRange, hrow]
  · simp [plan, planWrall, localInRange, h]

/-- FB writes alone change nothing but FB, whatever the block is doing. -/
theorem perform_map_fb (s : State) (l : List (Nat × Byte)) :
    s.perform (l.map fun e => .fb e.1 e.2) = { s with fb := writeCells s.fb l } := by
  induction l generalizing s with
  | nil => rfl
  | cons e l ih =>
    rw [List.map_cons, perform_cons, ih]
    rfl

theorem exec_of_fb_writes {i : Instr} {s : State} {l : List (Nat × Byte)}
    (h : plan i s = l.map fun e => .fb e.1 e.2) : exec i s = .next { s with fb := writeCells s.fb l } := by
  rw [exec_eq_perform, h, perform_map_fb]

/-- Settles O24: in range the plan is one FB write, out of range it is empty. -/
theorem stageWritesOneCell : Obligations.StageWritesOneCell := by
  intro s col val
  by_cases h : col.toNat < s.total
  · have oneWrite : plan (.stage col val) s = [(col.toNat, val)].map fun e => .fb e.1 e.2 := by
      simp [plan, planStage, State.inRange, h]
    refine ⟨_, exec_of_fb_writes oneWrite, rfl, fun c => ?_⟩
    exact (read_write s.fb col.toNat c val).trans (by simp [h])
  · exact ⟨s, ((clippedCommandsDoNothing s col 0 false val).1 (Nat.le_of_not_lt h)).1, rfl, fun c => by simp [h]⟩

/-- The cells below TOTAL that a block reaches from a column on. -/
def stblkCells (s : State) (off : Nat) : List Nat :=
  ((List.range 8).filter fun i => s.inRange (off + i)).map fun i => off + i

theorem mem_stblkCells {s : State} {off c : Nat} :
    c ∈ stblkCells s off ↔ off ≤ c ∧ c < off + 8 ∧ c < s.total := by
  simp only [stblkCells, List.mem_map, List.mem_filter, List.mem_range, State.inRange, decide_eq_true_eq]
  constructor
  · rintro ⟨i, ⟨hi, ht⟩, rfl⟩
    omega
  · rintro ⟨low, high, ht⟩
    exact ⟨c - off, by omega, by omega⟩

/-- STBLK's writes, by cell: cell c takes byte c - off. -/
theorem plan_stblk (off : BitVec 12) (data : Block) (s : State) :
    plan (.stblk off data) s =
      ((stblkCells s off.toNat).map fun c => (c, blockByte data (c - off.toNat))).map fun e => .fb e.1 e.2 := by
  simp [plan, planStblk, stblkCells, Function.comp_def]

/-- Settles O29: the plan writes each cell the block reaches with the block's byte for it. -/
theorem stblkStagesEightCells : Obligations.StblkStagesEightCells := by
  intro s off data
  refine ⟨_, exec_of_fb_writes (plan_stblk off data s), rfl, fun c => ?_⟩
  simp only [read_writeCells_fn, mem_stblkCells, blockByte]

/-- Settles O34: the plan is one RSP write, of the cell or of zero. -/
theorem rdcolReadsCell : Obligations.RdcolReadsCell := by
  intro s col h
  refine ⟨if s.inRange col.toNat then s.fbRead col.toNat else 0x00, exec_eq_perform _ s, fun hc => ?_, fun hc => ?_⟩
  · rw [State.inRange, if_pos (decide_eq_true hc), read_of_cells h.fbCells hc]
  · rw [State.inRange, if_neg (by simpa using hc)]

end Sys2Proof.Proofs
end

section
/-! WRCOL and WRDOT in range, and BCAST: one transaction (40_bus_transport R97, 41_framebuffer_write R111 to R113). -/

namespace Sys2Proof.Proofs

open Sys2Proof.Machine Sys2Proof.Laws

/-- What a command does whose plan is the write mux: one cell, one targeted transaction, one register. -/
theorem writeCol_outcome {s : State} (h : s.Sound) (hq : s.seq = none) {i : Instr} (hr : ∀ col, i ≠ .rdcol col)
    (hi : i ≠ .init) {c : Nat} {v : Byte} (hc : c < s.total) (hp : plan i s = s.writeCol c v) :
    ∃ t, exec i s = .next t ∧ s.fbAndBusOnly t ∧
      s.sent t [s.targetedFrames (deviceOf c) (s.colReg (localOf c)) v] ∧
      (∀ c', t.fb.read c' = if c' = c then some v else s.fb.read c') ∧
      ∀ k a, t.devReg k a =
        if k = deviceOf c ∧ a = s.colReg (localOf c) ∧ a ≠ s.params.regmap.noop then some v else s.devReg k a := by
  obtain ⟨t, he, hframe, hfb, hdev, hsent⟩ := exec_outcome h hq hr hi
  rw [hp] at hfb hdev hsent
  refine ⟨t, he, hframe, hsent, fun c' => ?_, devReg_targeted h.chain (deviceOf_lt hc) _ v hdev⟩
  rw [hfb]
  exact read_write s.fb c c' v

/-- Settles O25: in range the plan is the write mux. -/
theorem wrcolWritesColumnAndDevice : Obligations.WrcolWritesColumnAndDevice := fun s col val h hq hc =>
  writeCol_outcome h hq (i := .wrcol col val) nofun nofun hc (by simp [plan, planWrcol, State.inRange, hc])

/-- Settles O27: in range the plan is the write mux with the new value of the whole column. -/
theorem wrdotSendsWholeColumn : Obligations.WrdotSendsWholeColumn := by
  intro s col row v h hq hc hrow
  obtain ⟨t, he, hframe, hsent, hcells, hregs⟩ := writeCol_outcome h hq (i := .wrdot col row v) nofun nofun hc
    (v := dotColumn (s.fbRead col.toNat) row.toNat v) (by simp [plan, planWrdot, State.inRange, rowInRange, hc, hrow])
  have written : t.fbRead col.toNat = dotColumn (s.fbRead col.toNat) row.toNat v :=
    fbRead_of_read ((hcells _).trans (if_pos rfl))
  refine ⟨t, he, hframe, ?_⟩
  rw [written]
  exact ⟨hsent, fun c hne => (hcells c).trans (if_neg hne), hregs⟩

/-- The last bit of the stream is bit 0 of the nearest device's frame. -/
theorem getLast?_stream_cons (f : Frame) (F : List Frame) : (stream (f :: F)).getLast? = some (f.getLsbD 0) := by
  simp [frameBits, List.range_succ]

/-- Settles O21: the plan is one broadcast; the last bit out is bit 0 of VAL. -/
theorem bcastWritesEveryDevice : Obligations.BcastWritesEveryDevice := by
  intro s reg val h hq
  obtain ⟨hc, hl⟩ := h.idlePins hq
  have lastBit : (stream (s.bcastFrames reg val)).getLast?.getD s.dataO = val.getLsbD 0 := by
    obtain ⟨n, hn⟩ := Nat.exists_eq_succ_of_ne_zero (Nat.pos_iff_ne_zero.1 h.countPos)
    rw [State.bcastFrames, hn, List.replicate_succ, getLast?_stream_cons, getLsbD_frame]
    rfl
  refine ⟨_, exec_eq_parts (i := .bcast reg val) nofun hc hl, rfl, ⟨rfl, ?_⟩, rfl, lastBit, fun k a hk => ?_⟩
  · exact congrArg (s.pinLog ++ ·) (pinPart_eq (plan_no_clockHigh (i := .bcast reg val) nofun s))
  · rw [devReg_broadcasts h.chain [(reg, val)] rfl hk]
    by_cases ha : a = reg <;> simp [lastValue, ha]

end Sys2Proof.Proofs
end

section
/-! INIT, CLEAR and FLUSH: a broadcast or a transaction for each of their registers (40_bus_transport R98,
41_framebuffer_write R119 to R123). -/

namespace Sys2Proof.Proofs

open Sys2Proof.Machine Sys2Proof.Laws

/-- Broadcasts leave a register that none of them names as it was. -/
theorem devReg_broadcasts_other {s t : State} (hlen : s.dev.length = s.deviceCount) {l : List (Byte × Byte)}
    (ht : t.dev = takeChains s.params.regmap.noop (l.map fun e => s.bcastFrames e.1 e.2) s.dev) (k : Nat) {a : Byte}
    (ha : a ∉ l.map Prod.fst) : t.devReg k a = s.devReg k a := by
  by_cases hk : k < s.deviceCount
  · rw [devReg_broadcasts hlen l ht hk, lastValue_of_not_named]
    intro f hf
    obtain ⟨e, he, rfl⟩ := List.mem_map.1 hf
    rw [frameAddress_frame]
    rintro rfl
    exact ha (List.mem_map_of_mem he)
  · rw [devReg_none (s := s) (by omega), devReg_none (s := t) (by rw [ht, length_takeChains]; omega)]

/-- Settles O22: the plan's transactions are INIT's list of broadcasts, and its FB writes are all of FB. -/
theorem initSendsStartUpSequence : Obligations.InitSendsStartUpSequence := by
  intro s h hq
  obtain ⟨t, he, hframe, hfb, hdev, hbus⟩ := exec_effects (i := .init) h hq nofun
  rw [fbPart_init] at hfb
  rw [txnPart_init] at hdev hbus
  refine ⟨t, he, hframe, hbus, fun c => ?_, fun k a ha => ?_⟩
  · rw [hfb, read_writeCells_fn s.fb _ fun _ => 0x00]
    simp only [List.mem_range]
  · exact devReg_broadcasts_other h.chain hdev k fun hm => ha ((initWrites_perm s.params).subset hm)

/-- Where every frame that names a register carries one value, and one frame names it, it takes that value. -/
theorem lastValue_of_one_value {noop a v : Byte} (hnoop : a ≠ noop) {fs : List Frame}
    (hv : ∀ f ∈ fs, frameAddress f = a → frameValue f = v) (hm : ∃ f ∈ fs, frameAddress f = a) (old : Option Byte) :
    lastValue noop a fs old = some v := by
  induction fs generalizing old with
  | nil => simp at hm
  | cons f fs ih =>
    obtain ⟨first, others⟩ := List.forall_mem_cons.1 hv
    by_cases again : ∃ f ∈ fs, frameAddress f = a
    · exact ih others again _
    · have named : frameAddress f = a := by
        obtain ⟨g, hg, e⟩ := hm
        obtain rfl | hg := List.mem_cons.1 hg
        · exact e
        · exact absurd ⟨g, hg, e⟩ again
      rw [lastValue, lastValue_of_not_named fun g hg e => again ⟨g, hg, e⟩, if_pos ⟨named.symm, named ▸ hnoop⟩,
        first named]

/-- After a flush of one value every column register holds it, whichever addresses the map gives the columns. -/
theorem devReg_flush_const {s t : State} (hlen : s.dev.length = s.deviceCount)
    (hnoop : s.params.regmap.noop ∉ s.params.regmap.cols.toList) (v : Byte)
    (ht : t.dev = takeChains s.params.regmap.noop
      ((List.range 8).map fun lc => s.multiFrames (s.colReg lc) fun _ => v) s.dev)
    {k lc : Nat} (hk : k < s.deviceCount) (hl : lc < 8) : t.devReg k (s.colReg lc) = some v := by
  rw [devReg_flush hlen (fun _ => v) ht hk]
  refine lastValue_of_one_value (col_ne_noop hnoop hl) ?_ ?_ _
  · intro f hf _
    obtain ⟨l, -, rfl⟩ := List.mem_map.1 hf
    exact frameValue_frame _ _
  · exact ⟨_, List.mem_map_of_mem (List.mem_range.2 hl), frameAddress_frame _ _⟩

/-- Settles O31: CLEAR's broadcasts are the transactions of a flush of zeros, and its FB writes stay below TOTAL. -/
theorem clearZeroesDevices : Obligations.ClearZeroesDevices := by
  intro s h hq
  obtain ⟨t, he, hframe, hfb, hdev, hsent⟩ := exec_outcome (i := .clear) h hq nofun nofun
  rw [txnPart_clear] at hdev hsent
  have broadcast (a : Byte) : s.multiFrames a (fun _ => 0x00) = List.replicate s.deviceCount (frame a 0x00) := by
    simp [State.multiFrames]
  have below : ∀ e ∈ fbPart (plan .clear s), e.1 < s.total := fbPart_fits (plan_fits .clear s)
  refine ⟨t, he, hframe, ?_, fun c hc => ?_, fun k a => devReg_flush_other h.chain (fun _ => 0x00) hdev k,
    fun hnoop k lc => devReg_flush_const h.chain hnoop 0x00 hdev⟩
  · simpa only [broadcast] using hsent
  · rw [hfb, read_writeCells_other _ fun e he => (Nat.lt_of_lt_of_le (below e he) hc).ne]

theorem fbPart_flush (s : State) : fbPart (plan .flush s) = [] := fbPart_map_txn _ _

theorem txnPart_flush (s : State) :
    txnPart (plan .flush s) =
      (List.range 8).map fun lc => s.multiFrames (s.colReg lc) fun k => s.fbRead (globalOf k lc) := txnPart_map_txn _ _

/-- A command that leaves FB as it was reaches the devices and the bus only. -/
theorem busOnly_of_fb_eq {s t : State} (hframe : s.fbAndBusOnly t) (hfb : t.fb = s.fb) : s.busOnly t := by
  rwa [State.fbAndBusOnly, hfb] at hframe

/-- Settles O32: the plan is the flush of FB's own contents and writes no cell. -/
theorem flushSendsFramebuffer : Obligations.FlushSendsFramebuffer := by
  intro s h hq
  obtain ⟨t, he, hframe, hfb, hdev, hsent⟩ := exec_outcome (i := .flush) h hq nofun nofun
  rw [fbPart_flush] at hfb
  rw [txnPart_flush] at hdev hsent
  exact ⟨t, he, busOnly_of_fb_eq hframe hfb, hsent, fun k a => devReg_flush_other h.chain s.fbRead hdev k⟩

/-- A command that follows the sync table brings the columns of its row into sync. -/
theorem FollowsSyncTable.inSync {s t : State} {i : Instr} {c : Nat} (h : FollowsSyncTable s i c)
    (he : exec i s = .next t) (hb : bringsIntoSync s i c = true) : t.inSync c := by
  obtain ⟨u, hu, brings, -⟩ := h
  cases he.symm.trans hu
  exact brings hb

theorem chainInSync_of_flush {s t : State} (h : s.Sound) (hq : s.seq = none)
    (columns : s.params.regmap.ColumnsDistinct) (he : exec .flush s = .next t) : t.chainInSync := by
  intro c hc
  have hc : c < s.total := total_of_exec he ▸ hc
  refine (followsSyncTable_of_flush h hq columns hc s.fbRead (txnPart_flush s) ?_).inSync he rfl
  rw [fbPart_flush]
  exact read_of_cells h.fbCells hc

/-- Settles O33: FLUSH leaves the chain in sync, which is the statement read through `globalOf`. -/
theorem flushResynchronises : Obligations.FlushResynchronises := by
  intro s h hq columns
  obtain ⟨t, he⟩ := nothingFaults.1 .flush s
  refine ⟨t, he, fun k lc hk hl => ?_⟩
  have synced := inSync_iff.1 (chainInSync_of_flush h hq columns he _ (global_lt_total hk hl))
  rwa [deviceOf_globalOf hl, localOf_globalOf hl] at synced

end Sys2Proof.Proofs
end

section
/-! The shifts (42_transform R130 to R136): new columns, then one flush of them. -/

namespace Sys2Proof.Proofs

open Sys2Proof.Machine Sys2Proof.Laws

/-- A transform's transactions are one flush of the FB it leaves. -/
theorem flushVectors_eq {s t : State} {vals : Nat → Byte} (hframe : s.fbAndBusOnly t)
    (hv : ∀ c, c < s.total → t.fbRead c = vals c) :
    t.flushVectors = (List.range 8).map fun lc => s.multiFrames (s.colReg lc) fun k => vals (globalOf k lc) := by
  have params : t.params = s.params := by rw [hframe]
  have count : t.deviceCount = s.deviceCount := by rw [hframe]; rfl
  refine List.map_congr_left fun lc hl => ?_
  rw [count]
  refine List.map_congr_left fun k hk => ?_
  rw [State.colReg, params]
  exact congrArg (frame (s.colReg lc)) (hv _ (global_lt_total (List.mem_range.1 hk) (List.mem_range.1 hl)))

/-- What a shift does to a sound block with no command executing, by the columns it computes. -/
theorem shift_outcome {s : State} (h : s.Sound) (hq : s.seq = none) {i : Instr} (hr : ∀ col, i ≠ .rdcol col)
    (hi : i ≠ .init) {vals : Nat → Byte} (hp : plan i s = s.transform vals) :
    ∃ t, exec i s = .next t ∧ s.fbAndBusOnly t ∧ t.fb.addresses = s.fb.addresses ∧
      (∀ c, c < s.total → t.fbRead c = vals c) ∧ s.sent t t.flushVectors ∧
      ∀ k a, a ∉ s.params.regmap.cols.toList → t.devReg k a = s.devReg k a := by
  obtain ⟨t, he, hframe, haddr, hread, hdev, hsent⟩ := transform_outcome h hq hr hi vals hp
  have columns : ∀ c, c < s.total → t.fbRead c = vals c := fun c hc => fbRead_of_read (hread c hc)
  rw [← flushVectors_eq hframe columns] at hsent
  exact ⟨t, he, hframe, haddr, columns, hsent, fun k a => devReg_flush_other h.chain vals hdev k⟩

theorem total_pos {s : State} (h : s.Sound) : 0 < s.total := Nat.mul_pos (by decide) h.countPos

/-- Settles O37: the columns of the plan are those of the statement. -/
theorem shlMovesColumnsLeft : Obligations.ShlMovesColumnsLeft := by
  intro s rot fill h hq
  have pos := total_pos h
  obtain ⟨t, he, hframe, haddr, columns, rest⟩ := shift_outcome h hq (i := .shl rot fill) nofun nofun rfl
  refine ⟨t, he, hframe, haddr, fun i hi => ?_, ?_, rest⟩
  · rw [columns i (by omega), State.columnsLeft, if_pos hi]
  · rw [columns _ (by omega), State.columnsLeft, if_neg (by omega)]
    rfl

/-- Settles O38: the columns of the plan are those of the statement. -/
theorem shrMovesColumnsRight : Obligations.ShrMovesColumnsRight := by
  intro s rot fill h hq
  obtain ⟨t, he, hframe, haddr, columns, rest⟩ := shift_outcome h hq (i := .shr rot fill) nofun nofun rfl
  refine ⟨t, he, hframe, haddr, fun i hi => ?_, ?_, rest⟩
  · rw [columns _ hi, State.columnsRight, if_pos (Nat.succ_pos i)]
    rfl
  · rw [columns 0 (total_pos h)]
    rfl

/-- Settles O39: every column is moved up as a whole, bit by bit as `getLsbD_columnUp` says. -/
theorem shuMovesRowsUp : Obligations.ShuMovesRowsUp := by
  intro s rot h hq
  obtain ⟨t, he, hframe, haddr, columns, rest⟩ := shift_outcome h hq (i := .shu rot) nofun nofun rfl
  refine ⟨t, he, hframe, haddr, fun c hc => ⟨fun i hi => ?_, ?_⟩, rest⟩
  · rw [columns c hc, getLsbD_columnUp rot _ (by omega), if_neg (by omega)]
  · rw [columns c hc, getLsbD_columnUp rot _ (by decide), if_pos rfl]

/-- Settles O40: every column is moved down as a whole, bit by bit as `getLsbD_columnDown` says. -/
theorem shdMovesRowsDown : Obligations.ShdMovesRowsDown := by
  intro s rot h hq
  obtain ⟨t, he, hframe, haddr, columns, rest⟩ := shift_outcome h hq (i := .shd rot) nofun nofun rfl
  refine ⟨t, he, hframe, haddr, fun c hc => ⟨fun i hi => ?_, ?_⟩, rest⟩
  · rw [columns c hc, getLsbD_columnDown rot _ (by omega), if_neg (by omega)]
    rfl
  · rw [columns c hc, getLsbD_columnDown rot _ (by decide), if_pos rfl]

/-! TOTAL rotations of the columns (42_transform R136). -/

/-- A command leaves a sound block sound, with no command executing and the same parameters. -/
theorem sound_of_exec {s t : State} (h : s.Sound) (hq : s.seq = none) {i : Instr} (he : exec i s = .next t) :
    t.Sound ∧ t.seq = none ∧ t.params = s.params := by
  obtain rfl : s.perform (plan i s) = t := Host.Outcome.next.inj ((exec_eq_perform i s).symm.trans he)
  obtain ⟨params, -, seq⟩ := perform_fixed s (plan i s)
  exact ⟨sound_perform h hq (plan_fits i s), seq.trans hq, params⟩

/-- A command that rotates the columns by d slots, performed k times, rotates them by k * d slots, and the last of its
flushes leaves the chain in sync. -/
theorem run_replicate_rotation {i : Instr} {vals : State → Nat → Byte} {n d : Nat}
    (hp : ∀ s, plan i s = s.transform (vals s)) (hb : ∀ s c, bringsIntoSync s i c = true)
    (hrot : ∀ s c, s.total = n → c < n → vals s c = s.fbRead ((c + d) % n)) (k : Nat) {s : State} {old : Nat → Byte}
    (h : s.Sound) (hq : s.seq = none) (hs : HoldsColumns s n old) :
    ∃ t, runCommands (List.replicate k i) s = some t ∧ HoldsColumns t n (fun c => old ((c + k * d) % n)) ∧
      (s.params.regmap.ColumnsDistinct → 0 < k ∨ s.chainInSync → t.chainInSync) := by
  induction k generalizing s old with
  | zero =>
    exact ⟨s, rfl, hs.congr fun c hc => by rw [Nat.zero_mul, Nat.add_zero, Nat.mod_eq_of_lt hc], by simp⟩
  | succ k ih =>
    obtain ⟨t, he, ht⟩ := hs.exec_transform (hp s)
    obtain ⟨soundT, seqT, paramsT⟩ := sound_of_exec h hq he
    have rotated : HoldsColumns t n fun c => old ((c + d) % n) := ht.congr fun c hc => by
      rw [hrot s c hs.total hc, hs.fbRead (Nat.mod_lt _ (Nat.zero_lt_of_lt hc))]
    obtain ⟨u, hrun, hu, synced⟩ := ih soundT seqT rotated
    refine ⟨u, ?_, hu.congr fun c _ => ?_, fun columns _ => synced (paramsT ▸ columns) (.inr fun c hc => ?_)⟩
    · rw [List.replicate_succ, runCommands_cons he, hrun]
    · rw [Nat.mod_add_mod, Nat.add_assoc, Nat.succ_mul]
    · have hc : c < s.total := total_of_exec he ▸ hc
      exact (followsSyncTable_of_transform h hq columns hc (hp s)).inSync he (hb s c)

/-- TOTAL rotations bring every column back to its slot. -/
theorem run_total_rotations {i : Instr} {vals : State → Nat → Byte} {d : Nat} {s : State} (h : s.Sound)
    (hq : s.seq = none) (hp : ∀ s, plan i s = s.transform (vals s)) (hb : ∀ s c, bringsIntoSync s i c = true)
    (hrot : ∀ t c, t.total = s.total → c < s.total → vals t c = t.fbRead ((c + d) % s.total)) :
    ∃ t, runCommands (List.replicate s.total i) s = some t ∧ t.fb = s.fb ∧
      (s.params.regmap.ColumnsDistinct → t.chainInSync) := by
  have hs := holdsColumns_of_sound h
  obtain ⟨t, hrun, ht, synced⟩ := run_replicate_rotation hp hb hrot s.total h hq hs
  refine ⟨t, hrun, hs.fb_eq (ht.congr fun c hc => ?_), fun columns => synced columns (.inl (total_pos h))⟩
  rw [Nat.add_mul_mod_self_left, Nat.mod_eq_of_lt hc]

theorem columnsLeft_rotates (t : State) (f : Bool) {c : Nat} (hc : c < t.total) :
    t.columnsLeft true f c = t.fbRead ((c + 1) % t.total) := by
  by_cases last : c + 1 < t.total
  · rw [State.columnsLeft, if_pos last, Nat.mod_eq_of_lt last]
  · rw [State.columnsLeft, if_neg last, show c + 1 = t.total by omega, Nat.mod_self]
    rfl

theorem columnsRight_rotates (t : State) (f : Bool) {c : Nat} (hc : c < t.total) :
    t.columnsRight true f c = t.fbRead ((c + (t.total - 1)) % t.total) := by
  by_cases first : 0 < c
  · rw [State.columnsRight, if_pos first, show c + (t.total - 1) = c - 1 + t.total by omega, Nat.add_mod_right,
      Nat.mod_eq_of_lt (by omega)]
  · rw [State.columnsRight, if_neg first, show c + (t.total - 1) = t.total - 1 by omega, Nat.mod_eq_of_lt (by omega)]
    rfl

/-- Settles O42: SHL rotates the columns by one slot, SHR by TOTAL - 1. -/
theorem cyclicColumnShiftsRestore : Obligations.CyclicColumnShiftsRestore := fun _ f h hq =>
  ⟨run_total_rotations h hq (i := .shl true f) (fun _ => rfl) (fun _ _ => rfl) fun t _ ht hc =>
      ht ▸ columnsLeft_rotates t f (ht.symm ▸ hc),
    run_total_rotations h hq (i := .shr true f) (fun _ => rfl) (fun _ _ => rfl) fun t _ ht hc =>
      ht ▸ columnsRight_rotates t f (ht.symm ▸ hc)⟩

end Sys2Proof.Proofs
end

section
/-! The reserved opcode (30_encoding R80), and the sample words of 95_test_vectors. -/

namespace Sys2Proof.Proofs

open Sys2Proof.Laws

/-- Settles O1: the eleven words, evaluated. -/
theorem tableWordsDecode : Obligations.TableWordsDecode := by
  unfold Obligations.TableWordsDecode
  decide

/-- Every row looks at all of OP, and none has the reserved opcode. -/
theorem opTable_op : ∀ r ∈ opTable, fieldOp r.mask = 0xF ∧ fieldOp r.pattern ≠ 0xF := by decide

theorem fieldOp_and (w m : Word) : fieldOp (w &&& m) = fieldOp w &&& fieldOp m := BitVec.extractLsb'_and

/-- A word with the reserved opcode matches no row, since every row asks for its own OP. -/
theorem fieldOp_ne_of_matches {r : OpRow} (hr : r ∈ opTable) {w : Word} (hw : r.matchesWord w = true) :
    fieldOp w ≠ 0xF := by
  intro hop
  obtain ⟨mask, pattern⟩ := opTable_op r hr
  have inside : w &&& r.mask = r.pattern := beq_iff_eq.1 hw
  exact pattern (by rw [← inside, fieldOp_and, hop, mask]; rfl)

/-- Settles O5: OP = 0xF matches no row, and where no row matches the cause is read from OP. -/
theorem reservedOpcodeIsBad : Obligations.ReservedOpcodeIsBad := by
  intro w d
  show _ ↔ fieldOp w = 0xF
  obtain ⟨r, hr, hmatch, hd⟩ | ⟨-, hd⟩ := decode_cases w d
  · exact iff_of_false (by simp [hd]) (fieldOp_ne_of_matches hr hmatch)
  · by_cases hop : fieldOp w = 0xF <;> simp [hd, hop]

end Sys2Proof.Proofs
end

section
/-! The wave form of a transaction (40_bus_transport R90): its bits, between LOAD falling and LOAD rising. -/

namespace Sys2Proof.Proofs

open Sys2Proof.Machine Sys2Proof.Laws

theorem dataOnlyWhileClockLow_bitCells_append (bs : List Bool) (es : List PinEvent) :
    dataOnlyWhileClockLow true (bs.flatMap bitCell ++ es) = dataOnlyWhileClockLow true es := by
  induction bs with
  | nil => rfl
  | cons b bs ih => simpa [bitCell, dataOnlyWhileClockLow] using ih

theorem clockOnlyWhileLoadLow_bitCells_append (bs : List Bool) (es : List PinEvent) :
    clockOnlyWhileLoadLow true false (bs.flatMap bitCell ++ es) = clockOnlyWhileLoadLow true false es := by
  induction bs with
  | nil => rfl
  | cons b bs ih => simpa [bitCell, clockOnlyWhileLoadLow] using ih

theorem levelAfter_clock_bitCells_append (bs : List Bool) (es : List PinEvent) :
    levelAfter .clock true (bs.flatMap bitCell ++ es) = levelAfter .clock true es := by
  induction bs with
  | nil => rfl
  | cons b bs ih => simpa [bitCell, levelAfter] using ih

theorem levelAfter_append (p : Pin) (level : Bool) (es es' : List PinEvent) :
    levelAfter p level (es ++ es') = levelAfter p (levelAfter p level es) es' := by
  induction es generalizing level with
  | nil => rfl
  | cons e es ih => cases e <;> exact ih _

/-- Settles O15: the bits make the CLOCK edges, write DATA with CLOCK low and leave CLOCK high; LOAD falls before them
and rises after them. -/
theorem waveformProperties : Obligations.WaveformProperties := by
  intro F
  have edges := clockEdges_waveform_append F []
  have loads := loadEdges_waveform_append F []
  have shape := waveform_append F []
  rw [List.append_nil] at edges loads shape
  refine ⟨edges, loads, ?_, ?_, ?_, ?_, ?_, ?_⟩
  · rw [shape, dataOnlyWhileClockLow, dataOnlyWhileClockLow_bitCells_append]
    rfl
  · rw [shape, clockOnlyWhileLoadLow, clockOnlyWhileLoadLow_bitCells_append]
    rfl
  · rw [shape, List.head?_cons]
  · rw [waveform, List.getLast?_concat]
  · rw [shape, levelAfter, if_neg nofun, levelAfter_clock_bitCells_append]
    rfl
  · rw [waveform, levelAfter_append]
    rfl

end Sys2Proof.Proofs
end

section
/-! A transaction done twice (20_memory R54). -/

namespace Sys2Proof.Proofs

open Sys2Proof.Machine Sys2Proof.Laws

theorem write_write (m : Memory) (a : Nat) (v : Byte) : (m.write a v).write a v = m.write a v := by
  induction m with
  | nil => simp [Memory.write]
  | cons e m ih =>
    obtain ⟨b, w⟩ := e
    obtain below | rfl | above := Nat.lt_trichotomy a b
    · simp [Memory.write, below]
    · simp [Memory.write]
    · simp [Memory.write, above.not_gt, above.ne', ih]

theorem take_take (noop : Byte) (f : Frame) (d : Device) : (d.take noop f).take noop f = d.take noop f := by
  unfold Device.take Device.commit
  split
  · rfl
  · simp only [write_write]

/-- Settles O18: a device that has taken a frame takes it again with no effect. -/
theorem transactionIdempotent : Obligations.TransactionIdempotent := by
  intro s F
  rw [txn_dev, txn_dev, txn_params]
  apply List.ext_getElem?
  intro k
  rw [getElem?_takeChain, getElem?_takeChain, Option.map_map]
  congr 1
  funext d
  cases F[k]? with
  | none => rfl
  | some f => exact take_take _ f d

end Sys2Proof.Proofs
end

section
/-! The sprite blits (43_sprite_blit R141 to R147): what a blit expands to, the pixels it paints, and the state it
leaves. -/

namespace Sys2Proof.Proofs

open Sys2Proof.Machine Sys2Proof.Laws

section
variable {total : Nat} {x y : Int} {w h : Nat} {asset : List Byte}

/-- A command of a blit: a column of the sprite on the fast path, or a pixel of it, in range of the chain. -/
theorem mem_expandBlit {k : Instr} : k ∈ expandBlit total x y w h asset →
    (∃ i < w, ∃ c, (h = 8 ∧ y = 0) ∧ clipTo total (x + (i : Int)) = some c ∧
      k = .wrcol (BitVec.ofNat 12 c) (spriteColumn asset i)) ∨
    ∃ i < w, ∃ j < h, ∃ c r, clipTo total (x + (i : Int)) = some c ∧ clipTo 8 (y + (j : Int)) = some r ∧
      k = .wrdot (BitVec.ofNat 12 c) (BitVec.ofNat 4 r) ((spriteColumn asset i).getLsbD j) := by
  intro hk
  unfold expandBlit at hk
  split at hk
  case isTrue fast =>
    obtain ⟨i, hi, c, hc, rfl⟩ := mem_blitFast.1 hk
    exact .inl ⟨i, hi, c, fast, hc, rfl⟩
  case isFalse =>
    obtain ⟨i, hi, j, hj, c, hc, r, hr, rfl⟩ := mem_blitGeneral.1 hk
    exact .inr ⟨i, hi, j, hj, c, r, hc, hr, rfl⟩

end

/-- A WRCOL or WRDOT whose column and row exist in a chain of `total` columns (43_sprite_blit R145). -/
def WritesInRange (total : Nat) (k : Instr) : Prop :=
  (∃ col val, k = .wrcol col val ∧ col.toNat < total) ∨
  ∃ col row v, k = .wrdot col row v ∧ col.toNat < total ∧ row.toNat < 8

theorem writesInRange_of_mem_expandBlit {total : Nat} (ht : total ≤ 4096) {x y : Int} {w h : Nat} {asset : List Byte} :
    ∀ k ∈ expandBlit total x y w h asset, WritesInRange total k := by
  intro k hk
  obtain ⟨i, -, c, -, hc, rfl⟩ | ⟨i, -, j, -, c, r, hc, hr, rfl⟩ := mem_expandBlit hk
  · exact .inl ⟨_, _, rfl, by rw [toNat_colField ht (clipTo_lt hc)]; exact clipTo_lt hc⟩
  · exact .inr ⟨_, _, _, rfl, by rw [toNat_colField ht (clipTo_lt hc)]; exact clipTo_lt hc,
      by rw [toNat_rowField (clipTo_lt hr)]; exact clipTo_lt hr⟩

/-- Settles O8: both paths clip each column, and the general path each row. -/
theorem blitEmitsOnlyInRange : Obligations.BlitEmitsOnlyInRange := by
  intro total x y w h asset ht
  refine ⟨writesInRange_of_mem_expandBlit ht, fun hx => List.eq_nil_iff_forall_not_mem.2 fun k hk => ?_⟩
  obtain ⟨i, -, c, -, hc, -⟩ | ⟨i, -, j, -, c, r, hc, -, -⟩ := mem_expandBlit hk
  all_goals
    obtain ⟨-, high, -⟩ := clipTo_eq_some.1 hc
    omega

/-! The assembler's side of a blit, and the pseudo-instructions (30_encoding R84, 43_sprite_blit R147). -/

theorem kind_of_mem_expandBlit {total : Nat} {x y : Int} {w h : Nat} {asset : List Byte} :
    ∀ k ∈ expandBlit total x y w h asset, (∃ col val, k = .wrcol col val) ∨ ∃ col row v, k = .wrdot col row v := by
  intro k hk
  obtain ⟨i, -, c, -, -, rfl⟩ | ⟨i, -, j, -, c, r, -, -, rfl⟩ := mem_expandBlit hk
  · exact .inl ⟨_, _, rfl⟩
  · exact .inr ⟨_, _, _, rfl⟩

theorem blitOk_eq_true {w h : Nat} {asset : List Byte} :
    blitOk w h asset = true ↔ w ≤ 255 ∧ h ≤ 8 ∧ 2 + w ≤ asset.length := by
  simp [blitOk, and_assoc]

theorem assemble_blit (m : Regmap) (total : Nat) (x y : Int) {w h : Nat} {asset : List Byte}
    (hok : blitOk w h asset = true) :
    ∃ is, assemble m total (.blit x y w h asset) = some is ∧
      ∀ k ∈ is, (∃ col val, k = .wrcol col val) ∨ ∃ col row v, k = .wrdot col row v :=
  ⟨_, assemble_of_wellFormed m total hok, kind_of_mem_expandBlit⟩

theorem assemble_blit_refused (m : Regmap) (total : Nat) (x y : Int) {w h : Nat} {asset : List Byte}
    (hbad : asset.length < 2 + w ∨ 8 < h) : assemble m total (.blit x y w h asset) = none := by
  refine assemble_of_not_wellFormed m total (.blit x y w h asset) (Bool.eq_false_iff.2 fun hok => ?_)
  obtain ⟨-, hh, hlen⟩ := blitOk_eq_true.1 hok
  omega

/-- Settles O59: a pseudo-instruction passes the check of its core line and expands to the same command; a blit is
taken by `blitOk`, and BLITA is BLIT with its header. -/
theorem pseudoInstructionsAndBlitRefusals : Obligations.PseudoInstructionsAndBlitRefusals := by
  intro m total
  refine ⟨?defaults, ?defaultsTaken, fun _ _ => rfl, ?setregTaken, ?intensity, ?intensityTaken, ?blit, ?blita, ?noBlit,
    ?noBlita, ?noHeader⟩
  case defaults =>
    intro rot
    simp [assemble, AsmLine.wellFormed, expandLine, fitsFlag]
  case defaultsTaken =>
    intro rot hr
    have fits : fitsFlag rot = true := fitsFlag_eq_true.2 hr
    exact ⟨assemble_of_wellFormed m total fits, assemble_of_wellFormed m total fits⟩
  case setregTaken =>
    intro reg val hr hv
    exact assemble_of_wellFormed m total (by simp [AsmLine.wellFormed, hr, hv])
  case intensity =>
    intro val
    have fits : fitsByte m.intensity.toNat = true := fitsByte_eq_true.2 (Nat.le_of_lt_succ m.intensity.isLt)
    simp [assemble, AsmLine.wellFormed, expandLine, fits]
  case intensityTaken =>
    intro val hv
    exact assemble_of_wellFormed m total (fitsByte_eq_true.2 hv)
  case blit =>
    intro x y w h asset hw hh hlen
    exact assemble_blit m total x y (blitOk_eq_true.2 ⟨hw, hh, hlen⟩)
  case blita =>
    intro x y w h rest hh hlen
    rw [blitaIsBlitWithHeader]
    exact assemble_blit m total x y (blitOk_eq_true.2 ⟨Nat.le_of_lt_succ w.isLt, hh, by simp; omega⟩)
  case noBlit =>
    intro x y w h asset hbad
    exact assemble_blit_refused m total x y hbad
  case noBlita =>
    intro x y w h rest hbad
    rw [blitaIsBlitWithHeader]
    exact assemble_blit_refused m total x y (hbad.imp_left fun hlen => by simp; omega)
  case noHeader =>
    intro x y asset hlen
    obtain _ | ⟨w, _ | ⟨h, rest⟩⟩ := asset
    · rfl
    · rfl
    · simp at hlen

end Sys2Proof.Proofs
end

section
/-! The state after a blit (43_sprite_blit R146): each command paints the pixels it names and brings its column into
sync, and a list of such commands leaves a pixel at the last value painted there. -/

namespace Sys2Proof.Proofs

open Sys2Proof.Machine Sys2Proof.Laws

/-- The value a WRCOL or WRDOT gives to a pixel, if it names the pixel. -/
def paints (k : Instr) (c r : Nat) : Option Bool :=
  match k with
  | .wrcol col val => if c = col.toNat then some (val.getLsbD r) else none
  | .wrdot col row v => if c = col.toNat ∧ r = row.toNat then some v else none
  | _ => none

/-- A pixel after a list of commands. -/
def paintAll (is : List Instr) (c r : Nat) (old : Bool) : Bool := is.foldl (fun old k => (paints k c r).getD old) old

/-- What commands in range leave: only FB, the devices and the bus differ, every pixel is as painted, and every column
with a painted pixel, or in sync before, is in sync. -/
structure Painted (is : List Instr) (s t : State) : Prop where
  frame : s.fbAndBusOnly t
  pixels : ∀ c r, c < s.total → r < 8 → (t.fbRead c).getLsbD r = paintAll is c r ((s.fbRead c).getLsbD r)
  synced : s.params.regmap.ColumnsDistinct → ∀ c, c < s.total →
    (∃ k ∈ is, ∃ r, (paints k c r).isSome = true) ∨ s.inSync c → t.inSync c

theorem fbAndBusOnly_trans {s t u : State} (h : s.fbAndBusOnly t) (h' : t.fbAndBusOnly u) : s.fbAndBusOnly u := by
  unfold State.fbAndBusOnly at *
  rw [h] at h'
  exact h'

theorem total_of_frame {s t : State} (h : s.fbAndBusOnly t) : t.total = s.total := by
  rw [h]
  rfl

/-- A command that gives column `col` the value v by the write mux, as FB, the pixels and the sync table see it. -/
structure WritesColumn (s : State) (k : Instr) (col : Nat) (v : Byte) : Prop where
  inRange : col < s.total
  plan : plan k s = s.writeCol col v
  brings : ∀ c, bringsIntoSync s k c = true ↔ c = col
  keeps : ∀ c, mayBreakSync s k c = false
  pixels : ∀ c r, (paints k c r).getD ((s.fbRead c).getLsbD r) = if c = col then v.getLsbD r else (s.fbRead c).getLsbD r
  touches : ∀ c r, (paints k c r).isSome = true → c = col

theorem writesColumn_wrcol {s : State} {col : BitVec 12} (hcol : col.toNat < s.total) (val : Byte) :
    WritesColumn s (.wrcol col val) col.toNat val where
  inRange := hcol
  plan := by simp [plan, planWrcol, State.inRange, hcol]
  brings c := by simp [bringsIntoSync, State.inRange, hcol]
  keeps _ := rfl
  pixels c r := by by_cases same : c = col.toNat <;> simp [paints, same]
  touches c r := by simp [paints]

theorem writesColumn_wrdot {s : State} {col : BitVec 12} {row : BitVec 4} (hcol : col.toNat < s.total)
    (hrow : row.toNat < 8) (v : Bool) :
    WritesColumn s (.wrdot col row v) col.toNat (dotColumn (s.fbRead col.toNat) row.toNat v) where
  inRange := hcol
  plan := by simp [plan, planWrdot, State.inRange, rowInRange, hcol, hrow]
  brings c := by simp [bringsIntoSync, State.inRange, rowInRange, hcol, hrow]
  keeps _ := rfl
  pixels c r := by
    rw [getLsbD_dotColumn _ hrow]
    by_cases same : c = col.toNat
    · by_cases sameRow : r = row.toNat <;> simp [paints, same, sameRow]
    · simp [paints, same]
  touches c r := by simp +contextual [paints]

theorem painted_of_writesColumn {s : State} (h : s.Sound) (hq : s.seq = none) {k : Instr} {col : Nat} {v : Byte}
    (hw : WritesColumn s k col v) : ∃ t, exec k s = .next t ∧ Painted [k] s t := by
  have notRdcol : ∀ c, k ≠ .rdcol c := by
    rintro c rfl
    cases hw.plan
  have notInit : k ≠ .init := by
    rintro rfl
    cases hw.plan
  obtain ⟨t, he, hframe, -, cells, -⟩ := writeCol_outcome h hq notRdcol notInit hw.inRange hw.plan
  refine ⟨t, he, hframe, fun c r hc _ => Eq.trans ?_ (hw.pixels c r).symm, fun columns c hc hsync => ?_⟩
  · by_cases same : c = col
    · rw [if_pos same, fbRead_of_read ((cells c).trans (if_pos same))]
    · rw [if_neg same, fbRead_of_read (((cells c).trans (if_neg same)).trans (read_of_cells h.fbCells hc))]
  · obtain ⟨u, hu, brings, keeps⟩ :=
      followsSyncTable_of_writeCol h hq columns hc hw.inRange hw.plan (hw.brings c).1
    cases he.symm.trans hu
    obtain ⟨k', hk', r, painted⟩ | before := hsync
    · obtain rfl := List.mem_singleton.1 hk'
      exact brings ((hw.brings c).2 (hw.touches c r painted))
    · exact keeps (hw.keeps c) before

theorem painted_of_writesInRange {s : State} (h : s.Sound) (hq : s.seq = none) {k : Instr}
    (hk : WritesInRange s.total k) : ∃ t, exec k s = .next t ∧ Painted [k] s t := by
  obtain ⟨col, val, rfl, hcol⟩ | ⟨col, row, v, rfl, hcol, hrow⟩ := hk
  · exact painted_of_writesColumn h hq (writesColumn_wrcol hcol val)
  · exact painted_of_writesColumn h hq (writesColumn_wrdot hcol hrow v)

theorem Painted.cons {k : Instr} {is : List Instr} {s t u : State} (h : Painted [k] s t) (h' : Painted is t u) :
    Painted (k :: is) s u := by
  have total := total_of_frame h.frame
  have params : t.params = s.params := by rw [h.frame]
  refine ⟨fbAndBusOnly_trans h.frame h'.frame, fun c r hc hr => ?_, fun columns c hc hsync => ?_⟩
  · rw [h'.pixels c r (total ▸ hc) hr, h.pixels c r hc hr]
    rfl
  · refine h'.synced (params ▸ columns) c (total ▸ hc) ?_
    obtain ⟨k', hk', r, painted⟩ | before := hsync
    · obtain rfl | hk' := List.mem_cons.1 hk'
      · exact .inr (h.synced columns c hc (.inl ⟨k', List.mem_singleton_self k', r, painted⟩))
      · exact .inl ⟨k', hk', r, painted⟩
    · exact .inr (h.synced columns c hc (.inr before))

theorem run_painted {is : List Instr} {s : State} (h : s.Sound) (hq : s.seq = none)
    (his : ∀ k ∈ is, WritesInRange s.total k) : ∃ t, runCommands is s = some t ∧ Painted is s t := by
  induction is generalizing s with
  | nil => exact ⟨s, rfl, rfl, fun _ _ _ _ => rfl, by simp⟩
  | cons k is ih =>
    obtain ⟨first, others⟩ := List.forall_mem_cons.1 his
    obtain ⟨t, he, painted⟩ := painted_of_writesInRange h hq first
    obtain ⟨soundT, seqT, -⟩ := sound_of_exec h hq he
    obtain ⟨u, hrun, rest⟩ := ih soundT seqT (total_of_frame painted.frame ▸ others)
    exact ⟨u, (runCommands_cons he is).trans hrun, painted.cons rest⟩

/-! Lists that paint a pixel with one value only, or not at all. -/

theorem paintAll_of_none {is : List Instr} {c r : Nat} (h : ∀ k ∈ is, paints k c r = none) (old : Bool) :
    paintAll is c r old = old := by
  induction is with
  | nil => rfl
  | cons k is ih =>
    obtain ⟨first, others⟩ := List.forall_mem_cons.1 h
    rw [paintAll, List.foldl_cons, first]
    exact ih others

theorem paintAll_of_one_value {is : List Instr} {c r : Nat} {v : Bool}
    (hv : ∀ k ∈ is, ∀ b, paints k c r = some b → b = v) (hm : ∃ k ∈ is, (paints k c r).isSome = true) (old : Bool) :
    paintAll is c r old = v := by
  induction is generalizing old with
  | nil => simp at hm
  | cons k is ih =>
    obtain ⟨first, others⟩ := List.forall_mem_cons.1 hv
    rw [paintAll, List.foldl_cons]
    by_cases again : ∃ k ∈ is, (paints k c r).isSome = true
    · exact ih others again _
    · have noneLater : ∀ k ∈ is, paints k c r = none := fun k hk => by
        by_contra hne
        exact again ⟨k, hk, Option.isSome_iff_ne_none.2 hne⟩
      obtain ⟨k', hk', painted⟩ := hm
      obtain rfl | hk' := List.mem_cons.1 hk'
      · obtain ⟨b, hb⟩ := Option.isSome_iff_exists.1 painted
        rw [hb, Option.getD_some, first b hb]
        exact paintAll_of_none noneLater v
      · exact absurd ⟨k', hk', painted⟩ again

/-! The pixels a blit paints: those in the sprite's window, each with the sprite's bit. -/

/-- A pixel lies in the window of a sprite of w columns and h rows at (x, y). -/
def InWindow (x y : Int) (w h c r : Nat) : Prop :=
  x ≤ (c : Int) ∧ (c : Int) < x + w ∧ y ≤ (r : Int) ∧ (r : Int) < y + h

/-- The sprite's bit for a pixel in its window. -/
def spritePixel (x y : Int) (asset : List Byte) (c r : Nat) : Bool :=
  (asset.getD (2 + ((c : Int) - x).toNat) 0).getLsbD ((r : Int) - y).toNat

section
variable {total : Nat} {x y : Int} {w h : Nat} {asset : List Byte} {c r : Nat}

theorem paints_expandBlit (ht : total ≤ 4096) (hr : r < 8) {k : Instr} (hk : k ∈ expandBlit total x y w h asset)
    {b : Bool} (hb : paints k c r = some b) : InWindow x y w h c r ∧ b = spritePixel x y asset c r := by
  obtain ⟨i, hi, c', ⟨rfl, rfl⟩, hc, rfl⟩ | ⟨i, hi, j, hj, c', r', hc, hr', rfl⟩ := mem_expandBlit hk
  · rw [paints, toNat_colField ht (clipTo_lt hc)] at hb
    obtain ⟨low, -, hcol⟩ := clipTo_eq_some.1 hc
    obtain ⟨same, value⟩ := Option.ite_none_right_eq_some.1 hb
    obtain rfl := Option.some.inj value
    refine ⟨by unfold InWindow; omega, ?_⟩
    rw [spritePixel, spriteColumn, show ((c : Int) - x).toNat = i by omega, show ((r : Int) - 0).toNat = r by omega]
  · rw [paints, toNat_colField ht (clipTo_lt hc), toNat_rowField (clipTo_lt hr')] at hb
    obtain ⟨low, -, hcol⟩ := clipTo_eq_some.1 hc
    obtain ⟨low', -, hrow⟩ := clipTo_eq_some.1 hr'
    obtain ⟨⟨same, sameRow⟩, value⟩ := Option.ite_none_right_eq_some.1 hb
    obtain rfl := Option.some.inj value
    refine ⟨by unfold InWindow; omega, ?_⟩
    rw [spritePixel, spriteColumn, show ((c : Int) - x).toNat = i by omega, show ((r : Int) - y).toNat = j by omega]

theorem exists_paints_expandBlit (ht : total ≤ 4096) (hc : c < total) (hr : r < 8) (hin : InWindow x y w h c r) :
    ∃ k ∈ expandBlit total x y w h asset, (paints k c r).isSome = true := by
  obtain ⟨left, right, top, bottom⟩ := hin
  have column : clipTo total (x + (((c : Int) - x).toNat : Int)) = some c :=
    clipTo_eq_some.2 ⟨by omega, by omega, by omega⟩
  have row : clipTo 8 (y + (((r : Int) - y).toNat : Int)) = some r := clipTo_eq_some.2 ⟨by omega, by omega, by omega⟩
  unfold expandBlit
  split
  · exact ⟨_, mem_blitFast.2 ⟨((c : Int) - x).toNat, by omega, c, column, rfl⟩, by simp [paints, toNat_colField ht hc]⟩
  · exact ⟨_, mem_blitGeneral.2
      ⟨((c : Int) - x).toNat, by omega, ((r : Int) - y).toNat, by omega, c, column, r, row, rfl⟩,
      by simp [paints, toNat_colField ht hc, toNat_rowField hr]⟩

end

/-- Settles O9: the expansion paints the pixels of the window, each with the sprite's bit, and no others. -/
theorem blitEndState : Obligations.BlitEndState := by
  intro s x y w h asset sound hq _
  have ht := total_le_of_sound sound
  obtain ⟨t, hrun, painted⟩ := run_painted sound hq
    (writesInRange_of_mem_expandBlit ht (x := x) (y := y) (w := w) (h := h) (asset := asset))
  refine ⟨t, hrun, painted.frame, fun c r hc hr => (painted.pixels c r hc hr).trans ?_,
    fun columns c r hc hr hin => painted.synced columns c hc (.inl ?_)⟩
  · split
    case isTrue hin =>
      exact paintAll_of_one_value (fun k hk b hb => (paints_expandBlit ht hr hk hb).2)
        (exists_paints_expandBlit ht hc hr hin) _
    case isFalse hout =>
      refine paintAll_of_none (fun k hk => ?_) _
      by_contra hne
      obtain ⟨b, hb⟩ := Option.ne_none_iff_exists'.1 hne
      exact hout (paints_expandBlit ht hr hk hb).1
  · obtain ⟨k, hk, some⟩ := exists_paints_expandBlit (asset := asset) ht hc hr hin
    exact ⟨k, hk, r, some⟩

end Sys2Proof.Proofs
end
